-- ==== Sys2Proof/Word.lean ====
section
/-! DEFINITION. The words of the TT-EPD core: bytes on the wire and in the planes, the 48-bit request, the 16-bit
completion (spec/00_scope.md R12, spec/30_encoding.md R80 and R84). Only what the spec treats as bits is a bit vector. -/

namespace Sys2Proof

/-- A byte, bit 7 the most significant (R12). -/
abbrev Byte := BitVec 8

/-- A request word `REQ[47:0]` (R80). -/
abbrev RequestWord := BitVec 48

/-- A completion word `COMP[15:0]` (R84). -/
abbrev CompletionWord := BitVec 16

/-- The place of a wire frame inside a running operation: the command byte in bits 7..0 and, above it, the operation
code of the operation that sends it, `0x00` where none is named (log entry 6). -/
abbrev FrameWord := BitVec 16

/-- The 8-bit complement of R12: `~b = 0xFF - b`. -/
def Byte.complement (b : Byte) : Byte := ~~~b

end Sys2Proof
end

