-- ==== Sys2Proof/Config.lean ====
section
/-! DEFINITION. What an implementation of the core fixes at construction (the straps and parameters of
spec/00_scope.md R8 to R11), the names the rules use for levels, lines, planes and dialects, and the FREE VALUES: the
opaque constants the environment's answers and the dead registers come from once a state's own script is used up. -/

namespace Sys2Proof

/-- A level of a line: 0 (low) or 1 (high) (R12). -/
inductive Level where
  | low
  | high
  deriving DecidableEq, Repr, Inhabited

/-- The environment's answer to a `Drive` or a `Tx`: `Ok` or `Err` (R120, R121). -/
inductive Ack where
  | ok
  | err
  deriving DecidableEq, Repr, Inhabited

/-- The three output lines (R3). -/
inductive Line where
  | rst
  | dc
  | cs
  deriving DecidableEq, Repr

/-- The two memories of the core, `BLACK` and `RED` (R50); in a request `C[0]` selects one (R81). -/
inductive Plane where
  | black
  | red
  deriving DecidableEq, Repr

/-- The dialect flag: `New` (0) or `Old` (1) (R23). -/
inductive Dialect where
  | new
  | old
  deriving DecidableEq, Repr

/-- The strap `DIALECT_CFG`, `00` to `11` in this order (R9). -/
inductive DialectCfg where
  | new
  | old
  | probe
  | reserved
  deriving DecidableEq, Repr

/-- The strap `CS_MODE`: 0 the bus is hardware-selected, 1 the core drives CS (R9). -/
inductive CsMode where
  | hardCS
  | softCS
  deriving DecidableEq, Repr

/-- What the data bytes of a plane-write frame are (R179): the core's own plane, as DISPLAY streams it, or the constant
white image PANEL_CLEAR streams. -/
inductive PlaneSource where
  | framebuffer
  | white
  deriving DecidableEq, Repr

/-- The two mode bytes of the deep-sleep frame (R183): `0x03` from SLEEP, `0x01` from POWER_OFF_AND_DEEP_SLEEP. -/
inductive SleepMode where
  | ordinary
  | persistent
  deriving DecidableEq, Repr

/-- A byte and the level of the DC line it is sent with, `(dc, byte)` (R160). -/
abbrev SentByte := Level × Byte

/-- One element of a sequence: a byte sent with the DC line at `dc`, or a busy-wait (R160). -/
inductive SeqItem where
  | send (dc : Level) (b : Byte)
  | busyWait
  deriving DecidableEq, Repr

/-- One element of `CONFIG_SEQ`: a byte or a busy-wait (R160, field 7), or CONFIG's "call REHOME" (R142), which is INIT's use
of field 8. That the call stands in the sequence is the model's choice (log entry 20). -/
inductive ConfigItem where
  | item (i : SeqItem)
  | rehome
  deriving DecidableEq, Repr

/-- Fields 6 to 10 of a column of the dialect record (R160). For the Old column they are configuration (R162). -/
structure DialectTail where
  redInvert   : Bool
  configSeq   : List ConfigItem
  rehomeSeq   : List SentByte
  sleepSeq    : List SentByte
  shutdownSeq : List SeqItem
  deriving DecidableEq, Repr

/-- A column of the dialect record: fields 1 to 5 by name, fields 6 to 10 in `tail` (R160). -/
structure DialectRecord where
  busyLevel  : Level
  blackWrite : Byte
  redWrite   : Byte
  powerOn    : Option Byte
  refreshSeq : List SentByte
  tail       : DialectTail
  deriving DecidableEq, Repr

/-- The geometry straps under the constraints of R8. A core outside them cannot be built: the model refuses it by
giving it no value of this type (log entry 2). -/
structure Geometry where
  width  : Nat
  height : Nat
  width_legal  : width % 8 = 0 ∧ 8 ≤ width ∧ width ≤ 2048
  height_legal : 1 ≤ height ∧ height ≤ 65536
  deriving DecidableEq, Repr

/-- The open parameter `T_RST_LO`: any integer in 2..5 ms, one value per core (R10). -/
structure ResetLow where
  ms    : Nat
  legal : 2 ≤ ms ∧ ms ≤ 5
  deriving DecidableEq, Repr

/-- The straps and open parameters, sampled at construction; no request reads or writes them (R26). -/
structure Straps where
  /-- `W` and `H`. -/
  geometry   : Geometry
  /-- `DIALECT_CFG`. -/
  dialectCfg : DialectCfg
  /-- `CS_MODE`. -/
  csMode     : CsMode
  /-- `T_RST_LO`. -/
  tRstLo     : ResetLow
  /-- `T_INTERBYTE` in ms; 0 emits no delay (R128). -/
  tInterbyte : Nat
  /-- `probe_decode` as data: the bytes it recognises as Old; every other byte is New (R166, log entry 4). -/
  probeOld   : List Byte
  /-- Fields 6 to 10 of the Old column (R162). -/
  oldTail    : DialectTail
  deriving DecidableEq, Repr

/-- What the core can be given to run: a request word of the host (R80), or the wire frame the sequencer stands at. -/
inductive Code where
  | request (w : RequestWord)
  | frame (w : FrameWord)
  deriving DecidableEq, Repr

/-- FREE VALUE: the environment's answer to the `n`-th `Drive` or `Tx` (R126, log entry 5). -/
opaque Config.freeAck : Nat → Ack

/-- FREE VALUE: the environment's answer to the `n`-th `Rx`, `none` for `Err` (R122, log entry 5). -/
opaque Config.freeRead : Nat → Option Byte

/-- FREE VALUE: the environment's answer to the `n`-th `Sample(BUSY)`, `none` for `Err` (R123, log entry 5). -/
opaque Config.freeSample : Nat → Option Level

/-- FREE VALUE: what `fb_addr` holds after the `n`-th completion; undefined between operations (R27, log entry 7). -/
opaque Config.deadFbAddr : Nat → Nat

/-- FREE VALUE: what `poll_cnt` holds after the `n`-th completion; undefined between operations (R27, log entry 7). -/
opaque Config.deadPollCnt : Nat → Nat

end Sys2Proof
end

