-- ==== Sys2Proof/Syntax.lean ====
section
/-! DEFINITION. The instructions of the core, one constructor per row of spec/opcode_table.json: the 13 requests of the
host (spec/30_encoding.md R83) and the 19 wire commands of the sequencer (R92, R93). -/

namespace Sys2Proof

/-- An instruction of the TT-EPD core. -/
inductive Instr where
  /-- FB_CLEAR, R111; `colour` is the raw 2-bit code, `0b01` included. -/
  | fbClear (colour : BitVec 2)
  /-- FB_SET_PIXEL, R112. -/
  | fbSetPixel (x y : BitVec 16) (colour : BitVec 2)
  /-- FB_READ, R113. -/
  | fbRead (plane : Plane) (index : BitVec 32)
  /-- RESET, R130. -/
  | reset
  /-- SEND_COMMAND, R131. -/
  | sendCommand (byte : Byte)
  /-- SEND_DATA, R132. -/
  | sendData (byte : Byte)
  /-- READ_BUSY, R133. -/
  | readBusy
  /-- TURN_ON_DISPLAY, R134. -/
  | turnOnDisplay
  /-- INIT, R140. -/
  | init
  /-- DISPLAY, R143. -/
  | display
  /-- PANEL_CLEAR, R144. -/
  | panelClear
  /-- SLEEP, R150. -/
  | sleep
  /-- POWER_OFF_AND_DEEP_SLEEP, R151. -/
  | powerOffAndDeepSleep
  /-- W_SW_RESET `0x12`, R171. -/
  | wSwReset
  /-- W_BORDER_WAVEFORM `0x3C`, R172. -/
  | wBorderWaveform
  /-- W_TEMP_SENSOR `0x18`, R173. -/
  | wTempSensor
  /-- W_DATA_ENTRY_MODE `0x11`, R174. -/
  | wDataEntryMode
  /-- W_RAM_X_WINDOW `0x44`, R175. -/
  | wRamXWindow
  /-- W_RAM_Y_WINDOW `0x45`, R176. -/
  | wRamYWindow
  /-- W_RAM_X_COUNTER `0x4E`, R177. -/
  | wRamXCounter
  /-- W_RAM_Y_COUNTER `0x4F`, R178. -/
  | wRamYCounter
  /-- W_WRITE_BLACK `0x24`, R179. -/
  | wWriteBlack (source : PlaneSource)
  /-- W_WRITE_RED `0x26`, R180. -/
  | wWriteRed (source : PlaneSource)
  /-- W_ACTIVATION `0x22`, R181. -/
  | wActivation
  /-- W_MASTER_ACTIVATE `0x20`, R182. -/
  | wMasterActivate
  /-- W_DEEP_SLEEP `0x10`, R183. -/
  | wDeepSleep (mode : SleepMode)
  /-- W_POWER_OFF `0x02`, R184. -/
  | wPowerOff
  /-- W_DETECT `0x2F`, R185. -/
  | wDetect
  /-- W_OLD_WRITE_BLACK `0x10`, R186. -/
  | wOldWriteBlack (source : PlaneSource)
  /-- W_OLD_WRITE_RED `0x13`, R187. -/
  | wOldWriteRed (source : PlaneSource)
  /-- W_OLD_POWER_ON `0x04`, R188. -/
  | wOldPowerOn
  /-- W_OLD_REFRESH `0x12`, R189. -/
  | wOldRefresh
  deriving DecidableEq, Repr

end Sys2Proof
end

