-- ==== Sys2Proof/WellFormed.lean ====
section
/-! DEFINITION. Which instructions are well-formed, and which geometries a core can be built with. Field widths hold by
type; what is left to check is the colour code (spec/30_encoding.md R82, R85) and the geometry (spec/00_scope.md R8). -/

namespace Sys2Proof

/-- `0b01` is the fourth combination, which is no colour (R82). -/
def colourLegal (colour : BitVec 2) : Bool := colour != 0b01#2

/-- An instruction whose operands are legal in every core. FB_READ's bound `N` depends on the core's geometry, so its
meaning checks it; the meanings also check the colour, so an ill-formed instruction is refused with ILLEGAL_REQUEST. -/
def Instr.wellFormed : Instr → Bool
  | .fbClear colour => colourLegal colour
  | .fbSetPixel _ _ colour => colourLegal colour
  | .fbRead _ _ => true
  | .reset => true
  | .sendCommand _ => true
  | .sendData _ => true
  | .readBusy => true
  | .turnOnDisplay => true
  | .init => true
  | .display => true
  | .panelClear => true
  | .sleep => true
  | .powerOffAndDeepSleep => true
  | .wSwReset => true
  | .wBorderWaveform => true
  | .wTempSensor => true
  | .wDataEntryMode => true
  | .wRamXWindow => true
  | .wRamYWindow => true
  | .wRamXCounter => true
  | .wRamYCounter => true
  | .wWriteBlack _ => true
  | .wWriteRed _ => true
  | .wActivation => true
  | .wMasterActivate => true
  | .wDeepSleep _ => true
  | .wPowerOff => true
  | .wDetect => true
  | .wOldWriteBlack _ => true
  | .wOldWriteRed _ => true
  | .wOldPowerOn => true
  | .wOldRefresh => true

/-- The geometry of a core, or `none` where R8's constraints refuse it. -/
def Geometry.ofSize (width height : Nat) : Option Geometry :=
  if hw : width % 8 = 0 ∧ 8 ≤ width ∧ width ≤ 2048 then
    if hh : 1 ≤ height ∧ height ≤ 65536 then some ⟨width, height, hw, hh⟩ else none
  else none

/-- The reset-low time, or `none` outside 2..5 ms (R10). -/
def ResetLow.ofMs (ms : Nat) : Option ResetLow :=
  if h : 2 ≤ ms ∧ ms ≤ 5 then some ⟨ms, h⟩ else none

end Sys2Proof
end

