-- ==== Sys2Proof/Decode.lean ====
section
/-! DEFINITION. The decoder, total on every request word and every wire-frame word, and the encoder. Requests follow
spec/30_encoding.md R80 to R85; the wire frames follow the two tables R92 and R93, told apart by the operation that
sends them (R93: decided "by the operation and the dialect flag, never by looking at the byte"; log entry 6). -/

namespace Sys2Proof

/-- Why a word is no instruction. -/
inductive DecodeError where
  /-- A request whose `OP` is none of the 13 codes of R83 (R85). -/
  | unknownOp (op : Byte)
  /-- A frame word that no row of R92 or R93 has. -/
  | unknownFrame (w : FrameWord)
  deriving DecidableEq, Repr

/-! ### Requests -/

/-- `OP = REQ[47:40]` (R80). -/
def reqOp (w : RequestWord) : Byte := w.extractLsb' 40 8

/-- `C = REQ[39:32]` (R80). -/
def reqC (w : RequestWord) : Byte := w.extractLsb' 32 8

/-- `A = REQ[31:16]` (R80). -/
def reqA (w : RequestWord) : BitVec 16 := w.extractLsb' 16 16

/-- `B = REQ[15:0]` (R80). -/
def reqB (w : RequestWord) : BitVec 16 := w.extractLsb' 0 16

/-- `colour = C[1:0]` (R81). -/
def reqColour (w : RequestWord) : BitVec 2 := w.extractLsb' 32 2

/-- `plane = C[0]`: 0 is `BLACK`, 1 is `RED` (R81). -/
def reqPlane (w : RequestWord) : Plane := if w.getLsbD 32 then .red else .black

/-- `index = A ‖ B` (R81). -/
def reqIndex (w : RequestWord) : BitVec 32 := w.extractLsb' 0 32

/-- The request decoder: every 48-bit word is one of the 13 operations or rejected by name (R83, R85). Bits an
operation does not use are ignored (R81). -/
def decodeRequest (w : RequestWord) : Except DecodeError Instr :=
  if reqOp w = 0xA1#8 then .ok (.fbClear (reqColour w))
  else if reqOp w = 0xA2#8 then .ok (.fbSetPixel (reqA w) (reqB w) (reqColour w))
  else if reqOp w = 0xA3#8 then .ok (.fbRead (reqPlane w) (reqIndex w))
  else if reqOp w = 0xD0#8 then .ok .reset
  else if reqOp w = 0xD1#8 then .ok (.sendCommand (reqC w))
  else if reqOp w = 0xD2#8 then .ok (.sendData (reqC w))
  else if reqOp w = 0xD3#8 then .ok .readBusy
  else if reqOp w = 0xD4#8 then .ok .turnOnDisplay
  else if reqOp w = 0xD5#8 then .ok .init
  else if reqOp w = 0xD6#8 then .ok .display
  else if reqOp w = 0xD7#8 then .ok .panelClear
  else if reqOp w = 0xD8#8 then .ok .sleep
  else if reqOp w = 0xD9#8 then .ok .powerOffAndDeepSleep
  else .error (.unknownOp (reqOp w))

/-! ### Wire frames -/

/-- The command byte of a frame word. -/
def frameCmd (w : FrameWord) : Byte := w.extractLsb' 0 8

/-- The operation code of the operation that sends the frame; `0x00` where none is named. -/
def frameSender (w : FrameWord) : Byte := w.extractLsb' 8 8

/-- One row of R92 or R93: a command byte, the operation code of an operation that sends it, and the frame it is. -/
structure FrameRow where
  cmd    : Byte
  sender : Byte
  instr  : Instr
  deriving DecidableEq, Repr

/-- The rows of R92: the New dialect and the dialect-independent sequences. -/
def newFrameRows : List FrameRow :=
  [⟨0x02#8, 0xD9#8, .wPowerOff⟩,
   ⟨0x10#8, 0xD8#8, .wDeepSleep .ordinary⟩,
   ⟨0x10#8, 0xD9#8, .wDeepSleep .persistent⟩,
   ⟨0x11#8, 0xD5#8, .wDataEntryMode⟩,
   ⟨0x12#8, 0xD5#8, .wSwReset⟩,
   ⟨0x18#8, 0xD5#8, .wTempSensor⟩,
   ⟨0x20#8, 0xD4#8, .wMasterActivate⟩,
   ⟨0x22#8, 0xD4#8, .wActivation⟩,
   ⟨0x24#8, 0xD6#8, .wWriteBlack .framebuffer⟩,
   ⟨0x24#8, 0xD7#8, .wWriteBlack .white⟩,
   ⟨0x26#8, 0xD6#8, .wWriteRed .framebuffer⟩,
   ⟨0x26#8, 0xD7#8, .wWriteRed .white⟩] ++
  [⟨0x2F#8, 0xD5#8, .wDetect⟩,
   ⟨0x3C#8, 0xD5#8, .wBorderWaveform⟩,
   ⟨0x44#8, 0xD5#8, .wRamXWindow⟩,
   ⟨0x45#8, 0xD5#8, .wRamYWindow⟩,
   ⟨0x4E#8, 0xD5#8, .wRamXCounter⟩,
   ⟨0x4E#8, 0xD6#8, .wRamXCounter⟩,
   ⟨0x4E#8, 0xD7#8, .wRamXCounter⟩,
   ⟨0x4F#8, 0xD5#8, .wRamYCounter⟩,
   ⟨0x4F#8, 0xD6#8, .wRamYCounter⟩,
   ⟨0x4F#8, 0xD7#8, .wRamYCounter⟩]

/-- The rows of R93: the frames only the Old dialect has. -/
def oldFrameRows : List FrameRow :=
  [⟨0x10#8, 0xD6#8, .wOldWriteBlack .framebuffer⟩,
   ⟨0x10#8, 0xD7#8, .wOldWriteBlack .white⟩,
   ⟨0x13#8, 0xD6#8, .wOldWriteRed .framebuffer⟩,
   ⟨0x13#8, 0xD7#8, .wOldWriteRed .white⟩,
   ⟨0x04#8, 0xD5#8, .wOldPowerOn⟩,
   ⟨0x12#8, 0xD4#8, .wOldRefresh⟩]

/-- The table rows in the order a frame that names no sender is looked up: the active dialect's own meaning of a byte
first ("`0x10` is deep-sleep in the New table and black-plane write in the Old one", R93). -/
def frameRows : Dialect → List FrameRow
  | .new => newFrameRows ++ oldFrameRows
  | .old => oldFrameRows ++ newFrameRows

/-- Whether a row is the meaning of a frame word: its byte, and its sender where the word names one. -/
def FrameRow.holds (w : FrameWord) (r : FrameRow) : Bool :=
  decide (r.cmd = frameCmd w) && (decide (frameSender w = 0x00#8) || decide (r.sender = frameSender w))

/-- The wire-frame decoder. -/
def decodeFrame (d : Dialect) (w : FrameWord) : Except DecodeError Instr :=
  match (frameRows d).find? (FrameRow.holds w) with
  | some r => .ok r.instr
  | none => .error (.unknownFrame w)

/-- The decoder of the machine: what the core is given to run, read under the active dialect. -/
def decode (d : Dialect) : Code → Except DecodeError Instr
  | .request w => decodeRequest w
  | .frame w => decodeFrame d w

/-! ### The encoder -/

/-- A request word from its four fields, `OP ‖ C ‖ A ‖ B` (R80). -/
def packRequest (op c : Byte) (a b : BitVec 16) : RequestWord := op ++ c ++ a ++ b

/-- A frame word from its command byte and its sender. -/
def packFrame (cmd sender : Byte) : FrameWord := sender ++ cmd

/-- The colour operand in `C`, the unused bits zero (R86). -/
def colourField (colour : BitVec 2) : Byte := colour.setWidth 8

/-- The plane select in `C[0]` (R81). -/
def planeField : Plane → Byte
  | .black => 0x00#8
  | .red => 0x01#8

/-- The words of an instruction, unused fields written as zero (R83, R86, R92, R93). A frame that several operations
send is written with the first of them. -/
def encode : Instr → Code
  | .fbClear colour => .request (packRequest 0xA1#8 (colourField colour) 0#16 0#16)
  | .fbSetPixel x y colour => .request (packRequest 0xA2#8 (colourField colour) x y)
  | .fbRead plane index =>
      .request (packRequest 0xA3#8 (planeField plane) (index.extractLsb' 16 16) (index.extractLsb' 0 16))
  | .reset => .request (packRequest 0xD0#8 0#8 0#16 0#16)
  | .sendCommand byte => .request (packRequest 0xD1#8 byte 0#16 0#16)
  | .sendData byte => .request (packRequest 0xD2#8 byte 0#16 0#16)
  | .readBusy => .request (packRequest 0xD3#8 0#8 0#16 0#16)
  | .turnOnDisplay => .request (packRequest 0xD4#8 0#8 0#16 0#16)
  | .init => .request (packRequest 0xD5#8 0#8 0#16 0#16)
  | .display => .request (packRequest 0xD6#8 0#8 0#16 0#16)
  | .panelClear => .request (packRequest 0xD7#8 0#8 0#16 0#16)
  | .sleep => .request (packRequest 0xD8#8 0#8 0#16 0#16)
  | .powerOffAndDeepSleep => .request (packRequest 0xD9#8 0#8 0#16 0#16)
  | .wSwReset => .frame (packFrame 0x12#8 0xD5#8)
  | .wBorderWaveform => .frame (packFrame 0x3C#8 0xD5#8)
  | .wTempSensor => .frame (packFrame 0x18#8 0xD5#8)
  | .wDataEntryMode => .frame (packFrame 0x11#8 0xD5#8)
  | .wRamXWindow => .frame (packFrame 0x44#8 0xD5#8)
  | .wRamYWindow => .frame (packFrame 0x45#8 0xD5#8)
  | .wRamXCounter => .frame (packFrame 0x4E#8 0xD5#8)
  | .wRamYCounter => .frame (packFrame 0x4F#8 0xD5#8)
  | .wWriteBlack .framebuffer => .frame (packFrame 0x24#8 0xD6#8)
  | .wWriteBlack .white => .frame (packFrame 0x24#8 0xD7#8)
  | .wWriteRed .framebuffer => .frame (packFrame 0x26#8 0xD6#8)
  | .wWriteRed .white => .frame (packFrame 0x26#8 0xD7#8)
  | .wActivation => .frame (packFrame 0x22#8 0xD4#8)
  | .wMasterActivate => .frame (packFrame 0x20#8 0xD4#8)
  | .wDeepSleep .ordinary => .frame (packFrame 0x10#8 0xD8#8)
  | .wDeepSleep .persistent => .frame (packFrame 0x10#8 0xD9#8)
  | .wPowerOff => .frame (packFrame 0x02#8 0xD9#8)
  | .wDetect => .frame (packFrame 0x2F#8 0xD5#8)
  | .wOldWriteBlack .framebuffer => .frame (packFrame 0x10#8 0xD6#8)
  | .wOldWriteBlack .white => .frame (packFrame 0x10#8 0xD7#8)
  | .wOldWriteRed .framebuffer => .frame (packFrame 0x13#8 0xD6#8)
  | .wOldWriteRed .white => .frame (packFrame 0x13#8 0xD7#8)
  | .wOldPowerOn => .frame (packFrame 0x04#8 0xD5#8)
  | .wOldRefresh => .frame (packFrame 0x12#8 0xD4#8)

/-! ### The opcode table's view -/

/-- A table word of `nbits` bits as the core is given it: a word of a request, or, for the rows of 8 bits, a frame word
that names no sender (the bits above are zero). -/
def tableCode (nbits w : Nat) : Code :=
  if nbits ≤ 16 then .frame (BitVec.ofNat 16 (w % 2 ^ nbits)) else .request (BitVec.ofNat 48 (w % 2 ^ nbits))

/-- The instruction the decoder reads from a word numbered as spec/opcode_table.json numbers it, under the New dialect,
which is the one the core has after reset. -/
def decodeTableWord (nbits w : Nat) : Option Instr :=
  match decode .new (tableCode nbits w) with
  | .ok i => some i
  | .error _ => none

end Sys2Proof
end

