-- ==== Sys2Proof/Machine/Params.lean ====
section
/-! DEFINITION. The derived constants of the geometry (spec/00_scope.md R8, both formulas of spec/20_memory.md R57 as
written), the nominal times and counts of R10, and `probe_decode` (spec/45_dialect_tables.md R166). -/

namespace Sys2Proof.Machine

/-- `BPR = ceil(W/8)`, the bytes of a plane row. -/
def bytesPerRow (g : Geometry) : Nat := (g.width + 7) / 8

/-- `N = BPR * H`, the bytes of a plane. -/
def planeBytes (g : Geometry) : Nat := bytesPerRow g * g.height

/-- `X_END = floor(W/8) - 1`, in bytes of 8 pixels (R94). -/
def xEnd (g : Geometry) : Nat := g.width / 8 - 1

/-- `Y_END = H - 1`, in rows (R94). -/
def yEnd (g : Geometry) : Nat := g.height - 1

/-- The parameter byte `X_END` (R94). -/
def xEndByte (g : Geometry) : Byte := BitVec.ofNat 8 (xEnd g)

/-- `Y_END_LO = Y_END mod 256` (R94). -/
def yEndLo (g : Geometry) : Byte := BitVec.ofNat 8 (yEnd g % 256)

/-- `Y_END_HI = floor(Y_END / 256)` (R94). -/
def yEndHi (g : Geometry) : Byte := BitVec.ofNat 8 (yEnd g / 256)

/-- `T_RST_HI` in ms. -/
def tRstHi : Nat := 200

/-- `T_POLL` in ms. -/
def tPoll : Nat := 10

/-- `BUSY_POLL_MAX`, in samples. -/
def busyPollMax : Nat := 500

/-- `T_PROBE` in ms. -/
def tProbe : Nat := 50

/-- `T_SLEEP_SETTLE` in ms. -/
def tSleepSettle : Nat := 2000

/-- `DIALECT_CFG` from its two bits (R9). -/
def dialectCfgOfBits (b : BitVec 2) : DialectCfg :=
  if b = 0b00#2 then .new else if b = 0b01#2 then .old else if b = 0b10#2 then .probe else .reserved

/-- `CS_MODE` from its bit (R9). -/
def csModeOfBit (b : Bool) : CsMode := if b then .softCS else .hardCS

/-- `probe_decode`: Old for the bytes the straps recognise, New for every other (R166). -/
def probeDecode (p : Straps) (b : Byte) : Dialect := if b ∈ p.probeOld then .old else .new

end Sys2Proof.Machine
end

