-- ==== Sys2Proof/Machine/Dialect.lean ====
section
/-! DEFINITION. The wire frames of constant length (spec/30_encoding.md R92, R93), the two columns of the dialect record
made from them (spec/45_dialect_tables.md R160 to R162), and the straps of the hardware the spec names (R8, R9). -/

namespace Sys2Proof.Machine

/-! ### The frames whose bytes are constants or geometry -/

/-- A command byte and its parameter bytes (R90): DC low, then DC high for each parameter. -/
def frameOf (cmd : Byte) (params : List Byte) : List SentByte := (.low, cmd) :: params.map fun b => (.high, b)

/-- `C 12` (R171). -/
def frameSwReset : List SentByte := frameOf 0x12#8 []
/-- `C 3C, D 05` (R172). -/
def frameBorderWaveform : List SentByte := frameOf 0x3C#8 [0x05#8]
/-- `C 18, D 80` (R173). -/
def frameTempSensor : List SentByte := frameOf 0x18#8 [0x80#8]
/-- `C 11, D 03` (R174). -/
def frameDataEntryMode : List SentByte := frameOf 0x11#8 [0x03#8]
/-- `C 44, D 00, D X_END` (R175). -/
def frameRamXWindow (g : Geometry) : List SentByte := frameOf 0x44#8 [0x00#8, xEndByte g]
/-- `C 45, D 00, D 00, D Y_END_LO, D Y_END_HI` (R176). -/
def frameRamYWindow (g : Geometry) : List SentByte := frameOf 0x45#8 [0x00#8, 0x00#8, yEndLo g, yEndHi g]
/-- `C 4E, D 00` (R177). -/
def frameRamXCounter : List SentByte := frameOf 0x4E#8 [0x00#8]
/-- `C 4F, D 00, D 00` (R178). -/
def frameRamYCounter : List SentByte := frameOf 0x4F#8 [0x00#8, 0x00#8]
/-- `C 22, D F7` (R181). -/
def frameActivation : List SentByte := frameOf 0x22#8 [0xF7#8]
/-- `C 20` (R182). -/
def frameMasterActivate : List SentByte := frameOf 0x20#8 []
/-- The mode byte of R183. -/
def sleepModeByte : SleepMode → Byte
  | .ordinary => 0x03#8
  | .persistent => 0x01#8
/-- `C 10, D 03` or `C 10, D 01` (R183). -/
def frameDeepSleep (m : SleepMode) : List SentByte := frameOf 0x10#8 [sleepModeByte m]
/-- `C 02` (R184). -/
def framePowerOff : List SentByte := frameOf 0x02#8 []
/-- `C 04` (R188). -/
def frameOldPowerOn : List SentByte := frameOf 0x04#8 []
/-- `C 12` of the Old table (R189). -/
def frameOldRefresh : List SentByte := frameOf 0x12#8 []

/-! ### The dialect record -/

/-- Bytes as elements of a sequence. -/
def sends (bytes : List SentByte) : List SeqItem := bytes.map fun p => .send p.1 p.2

/-- What CONFIG sends: the configuration sequence with the column's own `REHOME_SEQ` in the place of "call REHOME" (R142). -/
def configBlock (tail : DialectTail) : List SeqItem :=
  tail.configSeq.flatMap fun c =>
    match c with
    | .item i => [i]
    | .rehome => sends tail.rehomeSeq

/-- CONFIG before its "call REHOME" (R142). -/
def configHead (g : Geometry) : List SeqItem :=
  sends frameSwReset ++ [.busyWait] ++
    sends (frameBorderWaveform ++ frameTempSensor ++ frameDataEntryMode ++ frameRamXWindow g ++ frameRamYWindow g)

/-- Fields 6 to 10 of the New column (R161); `CONFIG_SEQ` calls REHOME as R142 writes it (log entry 20). -/
def newTail (g : Geometry) : DialectTail where
  redInvert := true
  configSeq := (configHead g).map .item ++ [.rehome, .item .busyWait]
  rehomeSeq := frameRamXCounter ++ frameRamYCounter
  sleepSeq := frameDeepSleep .ordinary
  shutdownSeq := sends framePowerOff ++ [.busyWait] ++ sends (frameDeepSleep .persistent) ++ [.busyWait]

/-- The New column (R161). -/
def newColumn (g : Geometry) : DialectRecord where
  busyLevel := .high
  blackWrite := 0x24#8
  redWrite := 0x26#8
  powerOn := none
  refreshSeq := frameActivation ++ frameMasterActivate
  tail := newTail g

/-- The Old column (R162); fields 6 to 10 are the configuration `tail`. -/
def oldColumn (tail : DialectTail) : DialectRecord where
  busyLevel := .low
  blackWrite := 0x10#8
  redWrite := 0x13#8
  powerOn := some 0x04#8
  refreshSeq := frameOldRefresh
  tail := tail

/-- The column the dialect flag selects (R160). -/
def column (p : Straps) : Dialect → DialectRecord
  | .new => newColumn p.geometry
  | .old => oldColumn p.oldTail

/-! ### The straps of the hardware the spec names -/

/-- `W = 400`, `H = 300` (R8). -/
def hardwareGeometry : Geometry where
  width := 400
  height := 300
  width_legal := by decide
  height_legal := by decide

/-- Straps with every default the spec gives: probe_decode constant New (R11), no pacing (R10), the Old column's
sequences equal to New's (R162). `T_RST_LO` is 2 ms, the value of the spec's vectors (log entry 3). -/
def strapsFor (g : Geometry) (cfg : DialectCfg) (cs : CsMode) : Straps where
  geometry := g
  dialectCfg := cfg
  csMode := cs
  tRstLo := ⟨2, by decide⟩
  tInterbyte := 0
  probeOld := []
  oldTail := newTail g

/-- The straps of the core after reset: 400 x 300, the all-zeros dialect strap New, SoftCS (log entry 3). -/
def hardwareStraps : Straps := strapsFor hardwareGeometry .new .softCS

end Sys2Proof.Machine
end

