-- ==== Sys2Proof/Machine/State.lean ====
section
/-! DEFINITION. The state of the core (spec/10_state.md R20 to R34), the environment's scripted answers, the ghost state
of spec/70_reset_and_hazards.md R245, and the state after construction (R33, R230). -/

namespace Sys2Proof.Machine

/-- A plane's memory: the bytes that differ from what an unlisted address reads as, by rising address. -/
abbrev Memory := List Host.Cell

/-- What an unlisted address of a plane reads as: its construction value, `0xFF` in `BLACK` and `0x00` in `RED` (R33). -/
def unlisted : Plane → Byte
  | .black => 0xFF#8
  | .red => 0x00#8

/-- The canonical form of a plane of `n` bytes: addresses strictly rising and below `n`, no entry equal to what an
unlisted address reads as. -/
abbrev Memory.wf (p : Plane) (n : Nat) (m : Memory) : Prop :=
  m.Pairwise (fun a b => a.1 < b.1) ∧ ∀ c ∈ m, c.1 < n ∧ c.2 ≠ unlisted p

/-- An output-line latch: the last level driven, or `U` (R24). -/
inductive Latch where
  | low
  | high
  | unknown
  deriving DecidableEq, Repr

/-- `Operational` or `ConfigFault` (R25). -/
inductive Mode where
  | operational
  | configFault
  deriving DecidableEq, Repr

/-- The sequencer position `sp` (R28) where a step can find it: idle, or at the first micro-operation of a wire frame of
a running operation. Operations are atomic steps (D28), so the positions inside one pass within its step (log entry 6). -/
inductive SeqPos where
  | idle
  | frame (w : FrameWord)
  deriving DecidableEq, Repr

/-- The sequencer: `sp` and the transient registers of R27. -/
structure Sequencer where
  sp      : SeqPos
  fbAddr  : Nat
  pollCnt : Nat
  deriving DecidableEq, Repr

/-- One micro-operation with the environment's answer, as the trace keeps it (R15). -/
inductive Event where
  | drive (l : Line) (v : Level) (a : Ack)
  | tx (b : Byte) (a : Ack)
  | rx (r : Option Byte)
  | sample (r : Option Level)
  | delay (ms : Nat)
  /-- `Log`, with the code it carries; the core logs Timeout alone (R125). -/
  | log (code : Byte)
  deriving DecidableEq, Repr

/-- The two planes of the framebuffer (R21, R22). -/
structure Framebuffer where
  black : Memory
  red   : Memory
  deriving DecidableEq, Repr

/-- The three output-line latches (R24). -/
structure Lines where
  rst : Latch
  dc  : Latch
  cs  : Latch
  deriving DecidableEq, Repr

/-- The environment: its answers to come, by port, and how many it has given. A script that has run out is continued by
the free values of Config (R126, log entry 5). The model's own field. -/
structure Env where
  /-- Answers to `Drive` and `Tx`. -/
  acks        : List Ack
  ackDraws    : Nat
  /-- Answers to `Rx`; `none` is `Err`. -/
  reads       : List (Option Byte)
  readDraws   : Nat
  /-- Answers to `Sample(BUSY)`; `none` is `Err`. -/
  samples     : List (Option Level)
  sampleDraws : Nat
  deriving DecidableEq, Repr

/-- The ghost phase of the panel (R245). -/
inductive Phase where
  | uninitialized
  | ready
  | asleep
  | asleepPersistent
  | undefined
  deriving DecidableEq, Repr

/-- What the ghost knows of the image on the panel (R246): nothing; that the image the persistence shutdown retained is
erased (U13), with nothing known of what the panel shows instead; or that it is the image of these planes. -/
inductive PanelImage where
  | unknown
  | erased
  | shows (fb : Framebuffer)
  deriving DecidableEq, Repr

/-- The ghost state (R245, R246) and the never-cleared fault mark (R211). No meaning lets it influence the core. -/
structure Ghost where
  phase     : Phase
  image     : PanelImage
  faultMark : Bool
  /-- The named assumption `OldSeqOk` of R246; never changed. -/
  oldSeqOk  : Bool
  deriving DecidableEq, Repr

/-- The state of the machine. -/
structure State where
  /-- The straps and open parameters (R26); constant. -/
  straps      : Straps
  /-- `mode` (R25). -/
  mode        : Mode
  /-- `black` and `red` (R21, R22). -/
  fb          : Framebuffer
  /-- The dialect flag (R23). -/
  dialect     : Dialect
  /-- `RST`, `DC`, `CS` (R24). -/
  lines       : Lines
  /-- `sp`, `fb_addr`, `poll_cnt` (R27, R28). -/
  seq         : Sequencer
  /-- The event trace `T`, newest event first (R15, R32). -/
  trace       : List Event
  /-- The requests the host will present, the one on the port first (R16). -/
  requests    : List RequestWord
  /-- The completion words returned, newest first (R16, R84). -/
  completions : List CompletionWord
  /-- The environment's answers to come. -/
  env         : Env
  /-- The ghost state. -/
  ghost       : Ghost
  deriving DecidableEq, Repr

/-- The machine's faults. -/
inductive Fault where
  /-- Raised by `step` when the sequencer stands at a frame word that is no row of R92 or R93: a byte "the sequencer
  never sends" (R96). No step leaves the sequencer there. Safe: the model stops. -/
  | unknownFrame
  deriving DecidableEq, Repr

/-- The machine's refusals. -/
inductive Refusal where
  /-- An instruction whose meaning is not written yet. No arm of `exec` raises it: every instruction has its meaning.
  Safe: the model stops. -/
  | notModelled (mnemonic : String)
  deriving DecidableEq, Repr

/-- The kinds of micro-operation that can fail; a TransportError reports one as its `VALUE` (R84). -/
inductive MicroKind where
  | drive (l : Line)
  | tx
  | rx
  | sample
  deriving DecidableEq, Repr

/-- What a piece of an operation comes to: it went on, or a micro-operation failed and the operation is aborted (R210). -/
inductive Run where
  | ok (s : State)
  | abort (k : MicroKind) (s : State)
  deriving DecidableEq, Repr

/-- The two planes after construction: every byte as an unlisted address reads (R110). -/
def Framebuffer.fresh : Framebuffer := ⟨[], []⟩

/-- The dialect flag at construction (R23, R163). For the reserved strap the spec leaves it unspecified and never read;
the model holds New (log entry 8). -/
def dialectAtConstruction : DialectCfg → Dialect
  | .new => .new
  | .old => .old
  | .probe => .new
  | .reserved => .new

/-- `mode` at construction (R25). -/
def modeAtConstruction : DialectCfg → Mode
  | .new => .operational
  | .old => .operational
  | .probe => .operational
  | .reserved => .configFault

/-- Construction with given straps (R230): the core's only reset. -/
def State.construct (p : Straps) : State where
  straps := p
  mode := modeAtConstruction p.dialectCfg
  fb := Framebuffer.fresh
  dialect := dialectAtConstruction p.dialectCfg
  lines := ⟨.unknown, .unknown, .unknown⟩
  seq := ⟨.idle, 0, 0⟩
  trace := []
  requests := []
  completions := []
  env := ⟨[], 0, [], 0, [], 0⟩
  ghost := ⟨.uninitialized, .unknown, false, false⟩

/-- The state right after construction with the straps of the hardware the spec names (R8, R33). -/
def State.reset : State := State.construct hardwareStraps

end Sys2Proof.Machine
end

