-- ==== Sys2Proof/Machine/Flags.lean ====
section
/-! DEFINITION. The core has no flags and no condition codes (spec/10_state.md R30): "the result of an operation is its
completion status only". This file holds that status: the exceptions (spec/60_exceptions.md R200) and the completion word
(spec/30_encoding.md R84). -/

namespace Sys2Proof.Machine

/-- The code of the failing micro-operation, the `VALUE` of a TransportError (R84). -/
def MicroKind.code : MicroKind → Byte
  | .drive .rst => 0x01#8
  | .drive .dc => 0x02#8
  | .drive .cs => 0x03#8
  | .tx => 0x04#8
  | .rx => 0x05#8
  | .sample => 0x06#8

/-- The exceptions that end an operation (R200). Timeout is not among them: it is logged, never raised (R202). -/
inductive Trap where
  | transportError (k : MicroKind)
  | misconfiguration
  | illegalRequest
  deriving DecidableEq, Repr

/-- `STATUS` of an operation that ran to its end, time-outs included (R84). -/
def statusOk : Byte := 0x00#8

/-- The code of Timeout, carried by `Log(Timeout)` and never a `STATUS` (R84, R125). -/
def timeoutCode : Byte := 0x02#8

/-- `STATUS` of an exception (R84). -/
def Trap.status : Trap → Byte
  | .transportError _ => 0x01#8
  | .misconfiguration => 0x03#8
  | .illegalRequest => 0x04#8

/-- `VALUE` of an exception (R84). -/
def Trap.value : Trap → Byte
  | .transportError k => k.code
  | .misconfiguration => 0x00#8
  | .illegalRequest => 0x00#8

/-- `COMP[15:0] = STATUS ‖ VALUE` (R84). -/
def completionWord (status value : Byte) : CompletionWord := status ++ value

end Sys2Proof.Machine
end

