-- ==== Sys2Proof/Machine/Operands.lean ====
section
/-! DEFINITION. The operand forms of the requests (spec/30_encoding.md R81, R82) and the pixel map of the planes
(spec/20_memory.md R51, R52). -/

namespace Sys2Proof.Machine

/-- The black-plane bit of a colour code, `C[1]` (R82). -/
def colourBlackBit (colour : BitVec 2) : Bool := colour.getLsbD 1

/-- The red-plane bit of a colour code, `C[0]` (R82). -/
def colourRedBit (colour : BitVec 2) : Bool := colour.getLsbD 0

/-- The bit a colour code has in a plane (R82). -/
def colourBit (colour : BitVec 2) : Plane → Bool
  | .black => colourBlackBit colour
  | .red => colourRedBit colour

/-- A plane bit replicated 8 times (R111). -/
def replicateBit (bit : Bool) : Byte := if bit then 0xFF#8 else 0x00#8

/-- Whether a pixel is inside the panel; the comparison is unsigned (R68, R112). -/
def pixelInRange (g : Geometry) (x y : BitVec 16) : Bool := decide (x.toNat < g.width) && decide (y.toNat < g.height)

/-- `byte_index = y * BPR + floor(x / 8)` (R51). -/
def byteIndex (g : Geometry) (x y : BitVec 16) : Nat := y.toNat * bytesPerRow g + x.toNat / 8

/-- `bit = 0x80 >> (x mod 8)` (R51). -/
def bitMask (x : BitVec 16) : Byte := 0x80#8 >>> (x.toNat % 8)

/-- A plane byte with the bits of a mask set or cleared, the other bits kept (R112). -/
def withMask (bit : Bool) (mask b : Byte) : Byte := if bit then b ||| mask else b &&& ~~~mask

end Sys2Proof.Machine
end

