-- ==== Sys2Proof/Machine/Ops.lean ====
section
/-! DEFINITION. The named operations the meanings are written over: plane memory (spec/20_memory.md), the environment's
answers, the micro-operations of spec/41_bus_primitives.md, the end of an operation and the taking of an exception
(spec/60_exceptions.md R209 to R212), the ghost rows of spec/70_reset_and_hazards.md R246. -/

namespace Sys2Proof.Machine

/-! ### Plane memory -/

/-- The byte at an index of a plane: the listed one, or what an unlisted address reads as. -/
def Memory.read (p : Plane) (m : Memory) (i : Nat) : Byte :=
  match m with
  | [] => unlisted p
  | (a, v) :: rest => if a = i then v else Memory.read p rest i

/-- Replace the byte at an index of a plane, keeping the canonical form. -/
def Memory.write (p : Plane) (m : Memory) (i : Nat) (v : Byte) : Memory :=
  match m with
  | [] => if v = unlisted p then [] else [(i, v)]
  | (a, w) :: rest =>
    if a = i then (if v = unlisted p then rest else (i, v) :: rest)
    else if i < a then (if v = unlisted p then (a, w) :: rest else (i, v) :: (a, w) :: rest)
    else (a, w) :: Memory.write p rest i v

/-- A plane of `n` bytes that all hold `v`. -/
def Memory.fill (p : Plane) (n : Nat) (v : Byte) : Memory :=
  if v = unlisted p then [] else (List.range n).map fun i => (i, v)

/-- The memory of a plane. -/
def Framebuffer.plane (fb : Framebuffer) : Plane → Memory
  | .black => fb.black
  | .red => fb.red

/-- `MemRead(plane, i, 1)` (R13). -/
def Framebuffer.read (fb : Framebuffer) (p : Plane) (i : Nat) : Byte := (fb.plane p).read p i

/-- `MemWrite(BLACK, i, 1, b)` and `MemWrite(RED, i, 1, r)` as one step (R58). -/
def Framebuffer.writeBoth (fb : Framebuffer) (i : Nat) (b r : Byte) : Framebuffer where
  black := fb.black.write .black i b
  red := fb.red.write .red i r

/-- Both planes filled, each with its bit of the colour (R111). -/
def Framebuffer.cleared (n : Nat) (colour : BitVec 2) : Framebuffer where
  black := Memory.fill .black n (replicateBit (colourBlackBit colour))
  red := Memory.fill .red n (replicateBit (colourRedBit colour))

/-- One pixel given a colour: one bit of each plane, read-modify-write of one byte each (R112). -/
def Framebuffer.setPixel (fb : Framebuffer) (g : Geometry) (x y : BitVec 16) (colour : BitVec 2) : Framebuffer :=
  fb.writeBoth (byteIndex g x y)
    (withMask (colourBlackBit colour) (bitMask x) (fb.read .black (byteIndex g x y)))
    (withMask (colourRedBit colour) (bitMask x) (fb.read .red (byteIndex g x y)))

/-! ### Updates of one part of the state -/

/-- Append an event to the trace. -/
def State.emit (s : State) (e : Event) : State := { s with trace := e :: s.trace }

/-- The three latches with one of them set. -/
def Lines.set (ls : Lines) (l : Line) (v : Latch) : Lines :=
  match l with
  | .rst => { ls with rst := v }
  | .dc => { ls with dc := v }
  | .cs => { ls with cs := v }

/-- Set a line latch (R24). -/
def State.setLatch (s : State) (l : Line) (v : Latch) : State := { s with lines := s.lines.set l v }

/-- Replace the framebuffer. -/
def State.setFb (s : State) (fb : Framebuffer) : State := { s with fb := fb }

/-- Write the dialect flag (R23). -/
def State.setDialect (s : State) (d : Dialect) : State := { s with dialect := d }

/-- `fb_addr <- n` (R136). -/
def State.setFbAddr (s : State) (n : Nat) : State := { s with seq := { s.seq with fbAddr := n } }

/-- `poll_cnt <- n` (R133). -/
def State.setPollCnt (s : State) (n : Nat) : State := { s with seq := { s.seq with pollCnt := n } }

/-- `sp <- Idle`; the transient registers are dead and hold free values (R27, R28). -/
def State.retire (s : State) : State :=
  { s with seq := ⟨.idle, Config.deadFbAddr s.completions.length, Config.deadPollCnt s.completions.length⟩ }

/-- Return a completion word to the host (R84). -/
def State.respond (s : State) (status value : Byte) : State :=
  { s with completions := completionWord status value :: s.completions }

/-- Replace the ghost state. -/
def State.setGhost (s : State) (g : Ghost) : State := { s with ghost := g }

/-- Take the request on the port. -/
def State.dropRequest (s : State) : State := { s with requests := s.requests.tail }

/-- Leave the frame the sequencer stands at. -/
def State.leaveFrame (s : State) : State := { s with seq := { s.seq with sp := .idle } }

/-- Stand at a wire frame (the sequencer's fetch, R65; log entry 6). -/
def State.standAt (s : State) (w : FrameWord) : State := { s with seq := { s.seq with sp := .frame w } }

/-- Put a request on the port, before any that wait. -/
def State.present (s : State) (w : RequestWord) : State := leaveFrame { s with requests := w :: s.requests }

/-! ### The environment's answers -/

/-- The `j`-th answer to come to a `Drive` or `Tx`: from the script, then free (R126). -/
def Env.ackAt (e : Env) (j : Nat) : Ack := (e.acks[j]?).getD (Config.freeAck (e.ackDraws + j))

/-- The `j`-th answer to come to an `Rx` (R122). -/
def Env.readAt (e : Env) (j : Nat) : Option Byte := (e.reads[j]?).getD (Config.freeRead (e.readDraws + j))

/-- The `j`-th answer to come to a `Sample(BUSY)` (R123). -/
def Env.sampleAt (e : Env) (j : Nat) : Option Level := (e.samples[j]?).getD (Config.freeSample (e.sampleDraws + j))

/-- Consume an answer to a `Drive` or `Tx`. -/
def State.drawAck (s : State) : State :=
  { s with env := { s.env with acks := s.env.acks.tail, ackDraws := s.env.ackDraws + 1 } }

/-- Consume an answer to an `Rx`. -/
def State.drawRead (s : State) : State :=
  { s with env := { s.env with reads := s.env.reads.tail, readDraws := s.env.readDraws + 1 } }

/-- Consume an answer to a `Sample(BUSY)`. -/
def State.drawSample (s : State) : State :=
  { s with env := { s.env with samples := s.env.samples.tail, sampleDraws := s.env.sampleDraws + 1 } }

/-! ### Micro-operations -/

/-- Go on with the next piece unless the operation is aborted (R210). -/
def Run.andThen (r : Run) (f : State → Run) : Run :=
  match r with
  | .ok s => f s
  | .abort k s => .abort k s

/-- The latch value of a level driven successfully (R24). -/
def latchOf : Level → Latch
  | .low => .low
  | .high => .high

/-- `Drive(l, v)` (R120). With a hardware-selected bus `Drive(CS, v)` is skipped: no call, no event. -/
def drive (l : Line) (v : Level) (s : State) : Run :=
  if l = .cs ∧ s.straps.csMode = .hardCS then .ok s
  else
    match s.env.ackAt 0 with
    | .ok => .ok ((s.drawAck.setLatch l (latchOf v)).emit (.drive l v .ok))
    | .err => .abort (.drive l) ((s.drawAck.setLatch l .unknown).emit (.drive l v .err))

/-- `Tx(b)` (R121). -/
def transmit (b : Byte) (s : State) : Run :=
  match s.env.ackAt 0 with
  | .ok => .ok (s.drawAck.emit (.tx b .ok))
  | .err => .abort .tx (s.drawAck.emit (.tx b .err))

/-- `Delay(ms)`; `Delay(0)` is never emitted (R124). -/
def pause (ms : Nat) (s : State) : State := if ms = 0 then s else s.emit (.delay ms)

/-- `send_byte(dc, b)` (R131), with the pacing of R128. -/
def sendByte (dc : Level) (b : Byte) (s : State) : Run :=
  (drive .dc dc s).andThen fun s =>
  (drive .cs .low s).andThen fun s =>
  (transmit b s).andThen fun s =>
  (drive .cs .high s).andThen fun s =>
  .ok (pause s.straps.tInterbyte s)

/-- The column of the dialect record the state's flag selects (R160). -/
def State.column (s : State) : DialectRecord := Machine.column s.straps s.dialect

/-- The poll loop of READ_BUSY with `left` samples still allowed (R133). -/
def pollLoop : Nat → State → Run
  | 0, s => .ok (s.emit (.log timeoutCode))
  | left + 1, s =>
    match s.env.sampleAt 0 with
    | none => .abort .sample (s.drawSample.emit (.sample none))
    | some v =>
      if v = s.column.busyLevel then
        pollLoop left ((pause tPoll (s.drawSample.emit (.sample (some v)))).setPollCnt (s.seq.pollCnt + 1))
      else .ok (s.drawSample.emit (.sample (some v)))

/-- The samples READ_BUSY may still take: `poll_cnt < BUSY_POLL_MAX` (R133). -/
def samplesLeft (s : State) : Nat := busyPollMax - s.seq.pollCnt

/-- READ_BUSY as an operation calls it (R133): `poll_cnt <- 0`, then the loop. -/
def readBusy (s : State) : Run := pollLoop (samplesLeft (s.setPollCnt 0)) (s.setPollCnt 0)

/-- One element of a sequence (R160). -/
def runItem (item : SeqItem) (s : State) : Run :=
  match item with
  | .send dc b => sendByte dc b s
  | .busyWait => readBusy s

/-- A sequence of the dialect record, element by element. -/
def runItems : List SeqItem → State → Run
  | [], s => .ok s
  | item :: rest, s => (runItem item s).andThen (runItems rest)

/-- The data bytes of SEND_PLANE still to send, `left` of them from `fb_addr` on (R136). `f` reads the data byte at an
index from the state. A stream stops early only where a micro-operation fails; loss of power, which R237 names beside that, is
no transition of the model (log entry 21). -/
def planeLoop (f : State → Nat → Byte) : Nat → State → Run
  | 0, s => .ok s
  | left + 1, s =>
    (sendByte .high (f s s.seq.fbAddr) s).andThen fun t => planeLoop f left (t.setFbAddr (s.seq.fbAddr + 1))

/-- SEND_PLANE `cmd`, `f` (R136). -/
def sendPlane (cmd : Byte) (f : State → Nat → Byte) (s : State) : Run :=
  (sendByte .low cmd s).andThen fun s => planeLoop f (planeBytes s.straps.geometry) (s.setFbAddr 0)

/-- The logical byte of a plane before the wire's complement: the core's own, or that of the white image (R143, R144). -/
def sourceByte (src : PlaneSource) (p : Plane) (s : State) (i : Nat) : Byte :=
  match src with
  | .framebuffer => s.fb.read p i
  | .white => unlisted p

/-- Data byte `i` of a black-plane write (R94): unchanged. -/
def blackDataByte (src : PlaneSource) (s : State) (i : Nat) : Byte := sourceByte src .black s i

/-- Data byte `i` of a red-plane write (R94), complemented where the column's `RED_INVERT` says so (R160). -/
def redDataByte (invert : Bool) (src : PlaneSource) (s : State) (i : Nat) : Byte :=
  if invert then (sourceByte src .red s i).complement else sourceByte src .red s i

/-! ### Ghost rows -/

/-- The rows of R246 that a driver operation can have. -/
inductive GhostRow where
  | init
  | display
  | panelClear
  | sleep
  | shutdown
  | raw
  | unchanged
  deriving DecidableEq, Repr

/-- How many time-outs a trace has logged. -/
def timeouts (t : List Event) : Nat := t.count (.log timeoutCode)

/-- A ghost with its phase and image replaced. -/
def Ghost.panel (g : Ghost) (phase : Phase) (image : PanelImage) : Ghost := { g with phase := phase, image := image }

/-- The image after INIT or PANEL_CLEAR ran: after the persistence shutdown it was retained, and is erased (R246, U13);
else nothing is known of it (log entry 10). -/
def Ghost.imageLost (g : Ghost) : PanelImage := if g.phase = .asleepPersistent then .erased else .unknown

/-- The ghost after an operation that ended OK without a logged time-out (R246); `trusted` is that the dialect is New or
`OldSeqOk` is assumed, `fb` the framebuffer. -/
def Ghost.afterClean (g : Ghost) (row : GhostRow) (trusted : Bool) (fb : Framebuffer) : Ghost :=
  match row with
  | .unchanged => g
  | .raw => g.panel .undefined .unknown
  | .init => if trusted then g.panel .ready g.imageLost else g.panel .undefined .unknown
  | .display =>
    if trusted ∧ g.phase = .ready then g.panel .ready (.shows fb) else g.panel .undefined .unknown
  | .panelClear =>
    if trusted ∧ g.phase = .ready then g.panel .ready (.shows Framebuffer.fresh) else g.panel .undefined g.imageLost
  | .sleep => if trusted ∧ g.phase = .ready then g.panel .asleep .unknown else g.panel .undefined .unknown
  | .shutdown =>
    if trusted ∧ g.phase = .ready then g.panel .asleepPersistent g.image else g.panel .undefined .unknown

/-- Whether the ghost follows the sequences under the state's dialect (R246). -/
def State.trusted (s : State) : Bool := decide (s.dialect = .new) || s.ghost.oldSeqOk

/-- The ghost at the end of an operation that ran to its end: the row's, or `Undefined` after a logged time-out. -/
def Ghost.atEnd (g : Ghost) (row : GhostRow) (timedOut trusted : Bool) (fb : Framebuffer) : Ghost :=
  if timedOut then g.panel .undefined .unknown else g.afterClean row trusted fb

/-- The ghost after an abort: the panel is unknown, and the fault mark is set for good (R211). -/
def Ghost.atAbort (g : Ghost) : Ghost := { g with phase := .undefined, image := .unknown, faultMark := true }

/-! ### The end of an operation -/

/-- TAKING AN EXCEPTION (R210, R211). Nothing is saved and no vector is fetched: the core has no handler. `sp` is idle,
the completion carries the kind and its value, and a TransportError sets the ghost's fault mark. The framebuffer, the
dialect flag and the latches stay as the failing micro-operation left them. There is no return from an exception: the
core takes the next request like any other (R212). -/
def State.raise (s : State) (t : Trap) : State :=
  match t with
  | .transportError _ => ((s.setGhost s.ghost.atAbort).retire).respond t.status t.value
  | .misconfiguration => s.respond t.status t.value
  | .illegalRequest => s.respond t.status t.value

/-- The end of a driver operation that began at `start`: the OK completion with its ghost row, or the abort. -/
def State.settle (start : State) (row : GhostRow) (r : Run) : State :=
  match r with
  | .ok t =>
    ((t.setGhost (t.ghost.atEnd row (decide (timeouts start.trace < timeouts t.trace)) t.trusted t.fb)).retire).respond
      statusOk 0x00#8
  | .abort k t => t.raise (.transportError k)

/-- The first check of every request (R209): a misconfigured core answers MISCONFIGURATION and does nothing (R205). -/
def State.guarded (s : State) (f : State → State) : State :=
  match s.mode with
  | .configFault => s.raise .misconfiguration
  | .operational => f s

/-- A driver operation: the mode check, its micro-operations, its end. It always answers a next state. -/
def State.operate (s : State) (row : GhostRow) (body : State → Run) : Host.Outcome State Fault Refusal :=
  .next (s.guarded fun s => s.settle row (body s))

/-- A framebuffer operation: the mode check, then a change without micro-operations. It always answers a next state. -/
def State.answer (s : State) (f : State → State) : Host.Outcome State Fault Refusal := .next (s.guarded f)

end Sys2Proof.Machine
end

