-- ==== Sys2Proof/Machine/Pixels.lean ====
section
/-! DEFINITION. The framebuffer requests FB_CLEAR, FB_SET_PIXEL and FB_READ (spec/40_framebuffer.md R111 to R113). None
emits a micro-operation. -/

namespace Sys2Proof.Machine

/-- The answer of a framebuffer request that changes the planes: OK, `VALUE` zero. -/
def State.answerOk (s : State) (fb : Framebuffer) : State := (s.setFb fb).respond statusOk 0x00#8

/-- FB_CLEAR `colour` (R111). -/
def execFbClear (colour : BitVec 2) (s : State) : Host.Outcome State Fault Refusal :=
  s.answer fun s =>
    if colour = 0b01#2 then s.raise .illegalRequest
    else s.answerOk (Framebuffer.cleared (planeBytes s.straps.geometry) colour)

/-- FB_SET_PIXEL `x`, `y`, `colour` (R112): the colour is checked before the coordinates; out of range is a silent
no-op. -/
def execFbSetPixel (x y : BitVec 16) (colour : BitVec 2) (s : State) : Host.Outcome State Fault Refusal :=
  s.answer fun s =>
    if colour = 0b01#2 then s.raise .illegalRequest
    else if pixelInRange s.straps.geometry x y then s.answerOk (s.fb.setPixel s.straps.geometry x y colour)
    else s.answerOk s.fb

/-- FB_READ `plane`, `index` (R113): the in-memory byte, not complemented. -/
def execFbRead (plane : Plane) (index : BitVec 32) (s : State) : Host.Outcome State Fault Refusal :=
  s.answer fun s =>
    if index.toNat < planeBytes s.straps.geometry then s.respond statusOk (s.fb.read plane index.toNat)
    else s.raise .illegalRequest

end Sys2Proof.Machine
end

