-- ==== Sys2Proof/Machine/PowerDown.lean ====
section
/-! DEFINITION. SLEEP and POWER_OFF_AND_DEEP_SLEEP (spec/44_power_down.md R150, R151). -/

namespace Sys2Proof.Machine

/-- SLEEP (R150): the column's sleep sequence and the settling delay; no poll. -/
def execSleep (s : State) : Host.Outcome State Fault Refusal :=
  s.operate .sleep fun s => (runItems (sends s.column.tail.sleepSeq) s).andThen fun s => .ok (pause tSleepSettle s)

/-- POWER_OFF_AND_DEEP_SLEEP (R151): the column's shutdown sequence, its two busy-waits included. -/
def execPowerOffAndDeepSleep (s : State) : Host.Outcome State Fault Refusal :=
  s.operate .shutdown fun s => runItems s.column.tail.shutdownSeq s

end Sys2Proof.Machine
end

