-- ==== Sys2Proof/Machine/Driver.lean ====
section
/-! DEFINITION. The driver primitives RESET, SEND_COMMAND, SEND_DATA, READ_BUSY and TURN_ON_DISPLAY
(spec/42_driver_primitives.md R130 to R134). -/

namespace Sys2Proof.Machine

/-- RESET as INIT calls it too (R130): the panel's reset pulse; no poll, no other line. -/
def resetPulse (s : State) : Run :=
  (drive .rst .high s).andThen fun s =>
  (drive .rst .low (pause tRstHi s)).andThen fun s =>
  (drive .rst .high (pause s.straps.tRstLo.ms s)).andThen fun s =>
  .ok (pause tRstHi s)

/-- TURN_ON_DISPLAY as DISPLAY and PANEL_CLEAR call it too (R134): the column's refresh sequence, then READ_BUSY. -/
def turnOn (s : State) : Run := (runItems (sends s.column.refreshSeq) s).andThen readBusy

/-- RESET (R130). -/
def execReset (s : State) : Host.Outcome State Fault Refusal := s.operate .raw resetPulse

/-- SEND_COMMAND `byte` (R131): any byte, DC low. -/
def execSendCommand (byte : Byte) (s : State) : Host.Outcome State Fault Refusal := s.operate .raw (sendByte .low byte)

/-- SEND_DATA `byte` (R132): any byte, DC high. -/
def execSendData (byte : Byte) (s : State) : Host.Outcome State Fault Refusal := s.operate .raw (sendByte .high byte)

/-- READ_BUSY (R133). -/
def execReadBusy (s : State) : Host.Outcome State Fault Refusal := s.operate .unchanged readBusy

/-- TURN_ON_DISPLAY (R134). -/
def execTurnOnDisplay (s : State) : Host.Outcome State Fault Refusal := s.operate .raw turnOn

end Sys2Proof.Machine
end

