-- ==== Sys2Proof/Machine/Sequences.lean ====
section
/-! DEFINITION. The sequences INIT, DISPLAY and PANEL_CLEAR with PROBE, CONFIG and REHOME
(spec/43_driver_sequences.md R140 to R144, spec/42_driver_primitives.md R135). -/

namespace Sys2Proof.Machine

/-- The verdict of a probe read: a failed read gives New (R141, R166). -/
def probeVerdict (p : Straps) (r : Option Byte) : Dialect :=
  match r with
  | none => .new
  | some b => probeDecode p b

/-- `Rx()` and the deselect of the read frame (R97, R141): an `Err` is tolerated, the deselect is executed all the same. -/
def readFrame (s : State) : Run := drive .cs .high (s.drawRead.emit (.rx (s.env.readAt 0)))

/-- The detection command, the delay and the read frame of PROBE (R141, R185). -/
def detect (s : State) : Run :=
  (sendByte .low 0x2F#8 s).andThen fun s =>
  (drive .dc .high (pause tProbe s)).andThen fun s =>
  (drive .cs .low s).andThen readFrame

/-- PROBE (R141): the verdict on the answer of its one `Rx`, the environment's next, is written to the flag. -/
def probe (s : State) : Run :=
  (detect s).andThen fun t => .ok (t.setDialect (probeVerdict s.straps (s.env.readAt 0)))

/-- The power-on step of INIT (R140): the column's command, if it has one, and READ_BUSY. -/
def powerOn (s : State) : Run :=
  match s.column.powerOn with
  | some p => (sendByte .low p s).andThen readBusy
  | none => .ok s

/-- CONFIG (R142): the configuration block of the column selected now, its "call REHOME" by that column's `REHOME_SEQ`
(R160; log entry 20). -/
def config (s : State) : Run := runItems (configBlock s.column.tail) s

/-- The probe step of INIT: only under the Probe strap (R140); nothing else writes the flag (R163). -/
def probeStep (s : State) : Run := if s.straps.dialectCfg = .probe then probe s else .ok s

/-- INIT's body (R140). -/
def initBody (s : State) : Run :=
  (resetPulse s).andThen fun s => (probeStep s).andThen fun s => (powerOn s).andThen config

/-- REHOME (R135). -/
def rehome (s : State) : Run := runItems (sends s.column.tail.rehomeSeq) s

/-- The image transfer of DISPLAY and of PANEL_CLEAR, then one refresh (R143, R144). -/
def transfer (src : PlaneSource) (s : State) : Run :=
  (rehome s).andThen fun s =>
  (sendPlane s.column.blackWrite (blackDataByte src) s).andThen fun s =>
  (sendPlane s.column.redWrite (redDataByte s.column.tail.redInvert src) s).andThen turnOn

/-- INIT (R140). -/
def execInit (s : State) : Host.Outcome State Fault Refusal := s.operate .init initBody

/-- DISPLAY (R143). -/
def execDisplay (s : State) : Host.Outcome State Fault Refusal := s.operate .display (transfer .framebuffer)

/-- PANEL_CLEAR (R144): DISPLAY's transfer of the white image, and one more READ_BUSY. -/
def execPanelClear (s : State) : Host.Outcome State Fault Refusal :=
  s.operate .panelClear fun s => (transfer .white s).andThen readBusy

end Sys2Proof.Machine
end

