-- ==== Sys2Proof/Machine/Wire.lean ====
section
/-! DEFINITION. The 19 wire commands, one by one (spec/46_wire_commands.md R170 to R189): the frame, then what its rule
puts "then" after it. Run on its own, a frame is raw traffic to the ghost (R246) and its end returns `sp` to idle with a
completion (R28); log entry 6. -/

namespace Sys2Proof.Machine

/-- W_SW_RESET (R171): `C 12`, then READ_BUSY. -/
def execWSwReset (s : State) : Host.Outcome State Fault Refusal :=
  s.operate .raw (runItems (sends frameSwReset ++ [.busyWait]))

/-- W_BORDER_WAVEFORM (R172). -/
def execWBorderWaveform (s : State) : Host.Outcome State Fault Refusal :=
  s.operate .raw (runItems (sends frameBorderWaveform))

/-- W_TEMP_SENSOR (R173). -/
def execWTempSensor (s : State) : Host.Outcome State Fault Refusal := s.operate .raw (runItems (sends frameTempSensor))

/-- W_DATA_ENTRY_MODE (R174). -/
def execWDataEntryMode (s : State) : Host.Outcome State Fault Refusal := s.operate .raw (runItems (sends frameDataEntryMode))

/-- W_RAM_X_WINDOW (R175). -/
def execWRamXWindow (s : State) : Host.Outcome State Fault Refusal :=
  s.operate .raw (runItems (sends (frameRamXWindow s.straps.geometry)))

/-- W_RAM_Y_WINDOW (R176). -/
def execWRamYWindow (s : State) : Host.Outcome State Fault Refusal :=
  s.operate .raw (runItems (sends (frameRamYWindow s.straps.geometry)))

/-- W_RAM_X_COUNTER (R177). -/
def execWRamXCounter (s : State) : Host.Outcome State Fault Refusal := s.operate .raw (runItems (sends frameRamXCounter))

/-- W_RAM_Y_COUNTER (R178). -/
def execWRamYCounter (s : State) : Host.Outcome State Fault Refusal := s.operate .raw (runItems (sends frameRamYCounter))

/-- W_WRITE_BLACK (R179). -/
def execWWriteBlack (source : PlaneSource) (s : State) : Host.Outcome State Fault Refusal :=
  s.operate .raw (sendPlane (newColumn s.straps.geometry).blackWrite (blackDataByte source))

/-- W_WRITE_RED (R180). -/
def execWWriteRed (source : PlaneSource) (s : State) : Host.Outcome State Fault Refusal :=
  s.operate .raw
    (sendPlane (newColumn s.straps.geometry).redWrite
      (redDataByte (newColumn s.straps.geometry).tail.redInvert source))

/-- W_ACTIVATION (R181). -/
def execWActivation (s : State) : Host.Outcome State Fault Refusal := s.operate .raw (runItems (sends frameActivation))

/-- W_MASTER_ACTIVATE (R182): `C 20`, then READ_BUSY. -/
def execWMasterActivate (s : State) : Host.Outcome State Fault Refusal :=
  s.operate .raw (runItems (sends frameMasterActivate ++ [.busyWait]))

/-- What follows the deep-sleep frame (R183): SLEEP's settling delay, or the shutdown's READ_BUSY. -/
def afterDeepSleep (mode : SleepMode) (s : State) : Run :=
  match mode with
  | .ordinary => .ok (pause tSleepSettle s)
  | .persistent => readBusy s

/-- W_DEEP_SLEEP (R183). -/
def execWDeepSleep (mode : SleepMode) (s : State) : Host.Outcome State Fault Refusal :=
  s.operate .raw fun s => (runItems (sends (frameDeepSleep mode)) s).andThen (afterDeepSleep mode)

/-- W_POWER_OFF (R184): `C 02`, then READ_BUSY. -/
def execWPowerOff (s : State) : Host.Outcome State Fault Refusal :=
  s.operate .raw (runItems (sends framePowerOff ++ [.busyWait]))

/-- W_DETECT (R185): the command, the delay and the one-byte read of the probe. The dialect flag is written by the PROBE step
of an INIT and by nothing else (R163), so this frame alone leaves it. -/
def execWDetect (s : State) : Host.Outcome State Fault Refusal := s.operate .raw detect

/-- W_OLD_WRITE_BLACK (R186). -/
def execWOldWriteBlack (source : PlaneSource) (s : State) : Host.Outcome State Fault Refusal :=
  s.operate .raw (sendPlane (oldColumn s.straps.oldTail).blackWrite (blackDataByte source))

/-- W_OLD_WRITE_RED (R187). -/
def execWOldWriteRed (source : PlaneSource) (s : State) : Host.Outcome State Fault Refusal :=
  s.operate .raw
    (sendPlane (oldColumn s.straps.oldTail).redWrite (redDataByte (oldColumn s.straps.oldTail).tail.redInvert source))

/-- W_OLD_POWER_ON (R188): `C 04`, then READ_BUSY, which polls by the active flag (R133): while LOW when the flag is Old. R188
gives "poll (while LOW)" for the frame an Old core sends; that the frame run on its own under New polls while HIGH is the
model's choice (log entry 6). -/
def execWOldPowerOn (s : State) : Host.Outcome State Fault Refusal :=
  s.operate .raw (runItems (sends frameOldPowerOn ++ [.busyWait]))

/-- W_OLD_REFRESH (R189): `C 12`, then READ_BUSY, polling by the active flag: while LOW when it is Old, as R189 says; run on its
own under New, while HIGH, the model's choice (log entry 6). -/
def execWOldRefresh (s : State) : Host.Outcome State Fault Refusal :=
  s.operate .raw (runItems (sends frameOldRefresh ++ [.busyWait]))

end Sys2Proof.Machine
end

