-- ==== Sys2Proof/Machine/Dispatch.lean ====
section
/-! DEFINITION. The meaning of each instruction, one arm per constructor. -/

namespace Sys2Proof.Machine

def exec (i : Instr) (s : State) : Host.Outcome State Fault Refusal :=
  match i with
  | .fbClear colour => Sys2Proof.Machine.execFbClear colour s
  | .fbSetPixel x y colour => Sys2Proof.Machine.execFbSetPixel x y colour s
  | .fbRead plane index => Sys2Proof.Machine.execFbRead plane index s
  | .reset => Sys2Proof.Machine.execReset s
  | .sendCommand byte => Sys2Proof.Machine.execSendCommand byte s
  | .sendData byte => Sys2Proof.Machine.execSendData byte s
  | .readBusy => Sys2Proof.Machine.execReadBusy s
  | .turnOnDisplay => Sys2Proof.Machine.execTurnOnDisplay s
  | .init => Sys2Proof.Machine.execInit s
  | .display => Sys2Proof.Machine.execDisplay s
  | .panelClear => Sys2Proof.Machine.execPanelClear s
  | .sleep => Sys2Proof.Machine.execSleep s
  | .powerOffAndDeepSleep => Sys2Proof.Machine.execPowerOffAndDeepSleep s
  | .wSwReset => Sys2Proof.Machine.execWSwReset s
  | .wBorderWaveform => Sys2Proof.Machine.execWBorderWaveform s
  | .wTempSensor => Sys2Proof.Machine.execWTempSensor s
  | .wDataEntryMode => Sys2Proof.Machine.execWDataEntryMode s
  | .wRamXWindow => Sys2Proof.Machine.execWRamXWindow s
  | .wRamYWindow => Sys2Proof.Machine.execWRamYWindow s
  | .wRamXCounter => Sys2Proof.Machine.execWRamXCounter s
  | .wRamYCounter => Sys2Proof.Machine.execWRamYCounter s
  | .wWriteBlack source => Sys2Proof.Machine.execWWriteBlack source s
  | .wWriteRed source => Sys2Proof.Machine.execWWriteRed source s
  | .wActivation => Sys2Proof.Machine.execWActivation s
  | .wMasterActivate => Sys2Proof.Machine.execWMasterActivate s
  | .wDeepSleep mode => Sys2Proof.Machine.execWDeepSleep mode s
  | .wPowerOff => Sys2Proof.Machine.execWPowerOff s
  | .wDetect => Sys2Proof.Machine.execWDetect s
  | .wOldWriteBlack source => Sys2Proof.Machine.execWOldWriteBlack source s
  | .wOldWriteRed source => Sys2Proof.Machine.execWOldWriteRed source s
  | .wOldPowerOn => Sys2Proof.Machine.execWOldPowerOn s
  | .wOldRefresh => Sys2Proof.Machine.execWOldRefresh s

end Sys2Proof.Machine
end

