-- ==== Sys2Proof/Machine/Fetch.lean ====
section
/-! DEFINITION. What the core is given to run next, and the answer to a word that is no instruction. -/

namespace Sys2Proof.Machine

/-- The code the core runs next: the frame the sequencer stands at, else the request on the port (R16, R28). -/
def State.fetch (s : State) : Option Code :=
  match s.seq.sp with
  | .frame w => some (.frame w)
  | .idle => s.requests.head?.map Code.request

/-- The state with the fetched code taken: the frame is left, or the request is off the port. -/
def State.taken (s : State) : State :=
  match s.seq.sp with
  | .frame _ => s.leaveFrame
  | .idle => s.dropRequest

/-- A code that is no instruction: an illegal request is answered ILLEGAL_REQUEST, in a misconfigured core
MISCONFIGURATION (R85, R209); a frame no table has is a stuck state (R96). -/
def State.undecoded (s : State) (e : DecodeError) : Host.Outcome State Fault Refusal :=
  match e with
  | .unknownOp _ => .next (s.guarded fun s => s.raise .illegalRequest)
  | .unknownFrame _ => .fault .unknownFrame

/-- Place a word where the next step fetches: a frame word at the sequencer, or a request on the port. -/
def State.place (s : State) : Code → State
  | .frame w => s.standAt w
  | .request w => s.present w

end Sys2Proof.Machine
end

