-- ==== Sys2Proof/Machine/Step.lean ====
section
/-! DEFINITION. One step of the core: one whole operation (spec/92_eei_decisions.md D28), or nothing while no request is
presented. Loss of power (R237) is no step (log entry 21). -/

namespace Sys2Proof.Machine

/-- Fetch, decode under the active dialect, run. With nothing to fetch the core stays idle. -/
def step (s : State) : Host.Outcome State Fault Refusal :=
  match s.fetch with
  | none => .next s
  | some c =>
    match decode s.dialect c with
    | .ok i => exec i s.taken
    | .error e => s.taken.undecoded e

/-- The state with a word of the opcode table where the next step fetches. -/
def State.withFetchWord (s : State) (nbits w : Nat) : State := s.place (tableCode nbits w)

end Sys2Proof.Machine
end

