-- ==== Sys2Proof/Safety.lean ====
section
/-! DEFINITION. The terms the claims are made in: the trace read from its beginning and its projections
(spec/00_scope.md R15), the assumptions a claim names about the environment (spec/41_bus_primitives.md R126), what it is
for an operation to complete, and the invariants of spec/10_state.md R34. -/

namespace Sys2Proof.Machine

/-! ### The trace and its projections -/

/-- The event trace `T` from its beginning (R15). -/
def State.history (s : State) : List Event := s.trace.reverse

/-- The latches after one event: a successful `Drive` sets its line, a failed one makes it unknown (R24, R120). -/
def Lines.afterEvent (ls : Lines) : Event → Lines
  | .drive l v .ok => ls.set l (latchOf v)
  | .drive l _ .err => ls.set l .unknown
  | _ => ls

/-- The latches after a list of events. -/
def Lines.after (ls : Lines) (evs : List Event) : Lines := evs.foldl Lines.afterEvent ls

/-- The wire projection of events that begin with the DC latch at `dc`: for every `Tx(b, Ok)` the pair of the latch and
the byte (R15). -/
def wireFrom (dc : Latch) : List Event → List (Latch × Byte)
  | [] => []
  | .tx b .ok :: evs => (dc, b) :: wireFrom dc evs
  | .drive .dc v .ok :: evs => wireFrom (latchOf v) evs
  | .drive .dc _ .err :: evs => wireFrom .unknown evs
  | _ :: evs => wireFrom dc evs

/-- `wire(T)` (R15). -/
def State.wire (s : State) : List (Latch × Byte) := wireFrom .unknown s.history

/-- `C b`: a command byte (R15). -/
def C (b : Byte) : SeqItem := .send .low b

/-- `D b`: a data byte (R15). -/
def D (b : Byte) : SeqItem := .send .high b

/-- `Bw`: a busy-wait (R15). -/
def Bw : SeqItem := .busyWait

/-- The level of the BUSY line that is not busy: low under New, high under Old (R161, R162). -/
def idleLevel : Dialect → Level
  | .new => .low
  | .old => .high

/-- The busy level (R161, R162). -/
def busyLevelOf : Dialect → Level
  | .new => .high
  | .old => .low

/-- The events of one framed byte that does not fail (R91, R128): four with SoftCS, two with HardCS, and the pacing
delay if there is one. -/
def byteEvents (p : Straps) (dc : Level) (b : Byte) : List Event :=
  match p.csMode with
  | .softCS =>
    [.drive .dc dc .ok, .drive .cs .low .ok, .tx b .ok, .drive .cs .high .ok] ++
      (if p.tInterbyte = 0 then [] else [.delay p.tInterbyte])
  | .hardCS => [.drive .dc dc .ok, .tx b .ok] ++ (if p.tInterbyte = 0 then [] else [.delay p.tInterbyte])

/-- The events a frame projection stands for when nothing fails and BUSY is idle at every first sample (R15, R145). -/
def frameEvents (p : Straps) (d : Dialect) (items : List SeqItem) : List Event :=
  items.flatMap fun item =>
    match item with
    | .send dc b => byteEvents p dc b
    | .busyWait => [.sample (some (idleLevel d))]

/-- The six events of a RESET that does not fail (R130). -/
def resetEvents (p : Straps) : List Event :=
  [.drive .rst .high .ok, .delay 200, .drive .rst .low .ok, .delay p.tRstLo.ms, .drive .rst .high .ok, .delay 200]

/-- The failing micro-operation an event records, if it is one that raises TransportError (R201): a failed `Drive`, `Tx`
or `Sample`; a failed `Rx` is tolerated. -/
def Event.failure : Event → Option MicroKind
  | .drive l _ .err => some (.drive l)
  | .tx _ .err => some .tx
  | .sample none => some .sample
  | _ => none

/-- Whether an event consumes an answer to a `Drive` or a `Tx`. -/
def Event.takesAck : Event → Bool
  | .drive _ _ _ => true
  | .tx _ _ => true
  | _ => false

/-- Whether an event consumes an answer to an `Rx`. -/
def Event.takesRead : Event → Bool
  | .rx _ => true
  | _ => false

/-- Whether an event consumes an answer to a `Sample(BUSY)`. -/
def Event.takesSample : Event → Bool
  | .sample _ => true
  | _ => false

/-- The milliseconds an event waits. -/
def Event.waits : Event → Nat
  | .delay ms => ms
  | _ => 0

/-- The sum of the `Delay` events (R251). -/
def waited (evs : List Event) : Nat := (evs.map Event.waits).sum

/-- The environment once the answers of some events are consumed. -/
def Env.after (e : Env) (evs : List Event) : Env where
  acks := e.acks.drop (evs.countP Event.takesAck)
  ackDraws := e.ackDraws + evs.countP Event.takesAck
  reads := e.reads.drop (evs.countP Event.takesRead)
  readDraws := e.readDraws + evs.countP Event.takesRead
  samples := e.samples.drop (evs.countP Event.takesSample)
  sampleDraws := e.sampleDraws + evs.countP Event.takesSample

/-- Each event carries the answer the environment has next for it (R126). -/
def Answered (env : Env) : List Event → Prop
  | [] => True
  | e :: evs => (match e with
      | .drive _ _ a => env.ackAt 0 = a
      | .tx _ a => env.ackAt 0 = a
      | .rx r => env.readAt 0 = r
      | .sample r => env.sampleAt 0 = r
      | .delay _ => True
      | .log _ => True) ∧ Answered (env.after [e]) evs

/-- The events of the probe's read frame when nothing but the read can fail (R97): `Drive(DC, 1)`, select, `Rx`,
deselect. -/
def probeReadEvents (p : Straps) (r : Option Byte) : List Event :=
  match p.csMode with
  | .softCS => [.drive .dc .high .ok, .drive .cs .low .ok, .rx r, .drive .cs .high .ok]
  | .hardCS => [.drive .dc .high .ok, .rx r]

/-- The events of `k` polls that see the busy level (R133). -/
def busyPolls (d : Dialect) (k : Nat) : List Event :=
  (List.replicate k [Event.sample (some (busyLevelOf d)), .delay 10]).flatten

/-! ### The spec's frame projections -/

/-- The configuration block of INIT (R142), with `X_END = floor(W/8) - 1` and `Y_END = H - 1`. -/
def configFrames (g : Geometry) : List SeqItem :=
  [C 0x12#8, Bw, C 0x3C#8, D 0x05#8, C 0x18#8, D 0x80#8, C 0x11#8, D 0x03#8,
   C 0x44#8, D 0x00#8, D (BitVec.ofNat 8 (g.width / 8 - 1)),
   C 0x45#8, D 0x00#8, D 0x00#8, D (BitVec.ofNat 8 ((g.height - 1) % 256)), D (BitVec.ofNat 8 ((g.height - 1) / 256)),
   C 0x4E#8, D 0x00#8, C 0x4F#8, D 0x00#8, D 0x00#8, Bw]

/-- What INIT sends after RESET and the probe (R140): under Old the power-on command and a busy-wait first. -/
def initFrames (g : Geometry) : Dialect → List SeqItem
  | .new => configFrames g
  | .old => [C 0x04#8, Bw] ++ configFrames g

/-- REHOME (R135). -/
def rehomeFrames : List SeqItem := [C 0x4E#8, D 0x00#8, C 0x4F#8, D 0x00#8, D 0x00#8]

/-- A plane-write frame (R136): the command and the data bytes of indexes `0` to `n - 1`. -/
def planeFrame (cmd : Byte) (n : Nat) (data : Nat → Byte) : List SeqItem :=
  C cmd :: (List.range n).map fun i => D (data i)

/-- TURN_ON_DISPLAY (R134). -/
def refreshFrames : Dialect → List SeqItem
  | .new => [C 0x22#8, D 0xF7#8, C 0x20#8, Bw]
  | .old => [C 0x12#8, Bw]

/-- The command byte of a black-plane write (R161, R162). -/
def blackCommand : Dialect → Byte
  | .new => 0x24#8
  | .old => 0x10#8

/-- The command byte of a red-plane write (R161, R162). -/
def redCommand : Dialect → Byte
  | .new => 0x26#8
  | .old => 0x13#8

/-- DISPLAY's transfer and refresh of an image whose plane bytes are `black` and `red` (R143). -/
def imageFrames (d : Dialect) (n : Nat) (black red : Nat → Byte) : List SeqItem :=
  rehomeFrames ++ planeFrame (blackCommand d) n black ++ planeFrame (redCommand d) n (fun i => ~~~(red i)) ++
    refreshFrames d

/-! ### Assumptions about the environment -/

/-- No one of the next `k` `Drive` and `Tx` micro-operations fails. -/
def State.AcksOk (s : State) (k : Nat) : Prop := ∀ j, j < k → s.env.ackAt j = .ok

/-- No one of the next `q` samples of BUSY fails, whatever level it shows. -/
def State.SamplesOk (s : State) (q : Nat) : Prop := ∀ j, j < q → s.env.sampleAt j ≠ none

/-- BUSY is at the idle level of dialect `d` at the next `q` samples. -/
def State.BusyIdle (s : State) (d : Dialect) (q : Nat) : Prop := ∀ j, j < q → s.env.sampleAt j = some (idleLevel d)

/-- Nothing that the micro-operations of `evs` ask of the environment fails, and BUSY is idle for dialect `d` at every
sample among them. -/
def State.CleanFor (s : State) (d : Dialect) (evs : List Event) : Prop :=
  s.AcksOk (evs.countP Event.takesAck) ∧ s.BusyIdle d (evs.countP Event.takesSample)

/-- The Old column's sequences are New's, the decided value of R162; a claim about the Old dialect names it. -/
def OldAsNew (p : Straps) : Prop := p.oldTail = newTail p.geometry

/-! ### The spec's sequences, operation by operation

What each instruction does to the lines and the bus when nothing fails, in the words of its rule: New's bytes are the spec's,
the Old column's fields 6 to 10 are the configured ones (R162). -/

/-- One piece of an operation: an element of a sequence, a level driven on RST, a delay, or the read frame of the probe with
the environment's answer to its `Rx`. -/
inductive Piece where
  | item (i : SeqItem)
  | rst (v : Level)
  | wait (ms : Nat)
  | read (r : Option Byte)
  deriving DecidableEq, Repr

/-- RESET (R130). -/
def resetPieces (p : Straps) : List Piece :=
  [.rst .high, .wait 200, .rst .low, .wait p.tRstLo.ms, .rst .high, .wait 200]

/-- The detection command, the delay and the read frame of PROBE (R141). -/
def detectPieces (s : State) : List Piece := [.item (C 0x2F#8), .wait 50, .read (s.env.readAt 0)]

/-- `(dc, byte)` pairs as elements of a sequence. -/
def itemsOf (bytes : List SentByte) : List SeqItem := bytes.map fun x => .send x.1 x.2

/-- `CONFIG_SEQ` of the Old column, its "call REHOME" the column's own `REHOME_SEQ` (R142, R160; log entry 20). -/
def oldConfigFrames (p : Straps) : List SeqItem :=
  p.oldTail.configSeq.flatMap fun c =>
    match c with
    | .item i => [i]
    | .rehome => itemsOf p.oldTail.rehomeSeq

/-- What INIT sends after RESET and PROBE (R140). -/
def initSequence (p : Straps) : Dialect → List SeqItem
  | .new => configFrames p.geometry
  | .old => [C 0x04#8, Bw] ++ oldConfigFrames p

/-- REHOME (R135, R160). -/
def rehomeSequence (p : Straps) : Dialect → List SeqItem
  | .new => rehomeFrames
  | .old => itemsOf p.oldTail.rehomeSeq

/-- A red data byte on the wire (R143, R160). -/
def redOnWire (p : Straps) (d : Dialect) (b : Byte) : Byte :=
  match d with
  | .new => ~~~b
  | .old => if p.oldTail.redInvert then ~~~b else b

/-- DISPLAY's and PANEL_CLEAR's transfer and refresh of an image whose plane bytes are `black` and `red` (R143, R144). -/
def imageSequence (p : Straps) (d : Dialect) (black red : Nat → Byte) : List SeqItem :=
  rehomeSequence p d ++ planeFrame (blackCommand d) (planeBytes p.geometry) black ++
    planeFrame (redCommand d) (planeBytes p.geometry) (fun i => redOnWire p d (red i)) ++ refreshFrames d

/-- SLEEP's bytes (R150, R160). -/
def sleepSequence (p : Straps) : Dialect → List SeqItem
  | .new => [C 0x10#8, D 0x03#8]
  | .old => itemsOf p.oldTail.sleepSeq

/-- POWER_OFF_AND_DEEP_SLEEP (R151, R160). -/
def shutdownSequence (p : Straps) : Dialect → List SeqItem
  | .new => [C 0x02#8, Bw, C 0x10#8, D 0x01#8, Bw]
  | .old => p.oldTail.shutdownSeq

/-- The logical byte of a plane a plane-write frame streams: the core's own, or the white image's. -/
def streamed (s : State) (plane : Plane) (src : PlaneSource) (i : Nat) : Byte :=
  match src with
  | .framebuffer => s.fb.read plane i
  | .white => if plane = .black then 0xFF#8 else 0x00#8

/-- The sequence of an instruction in a state whose dialect, once a probe has settled it, is `d`: the operations by R130 to
R151, the frames run on their own by R171 to R189 (log entry 6). A framebuffer request has none. -/
def sequenceOf (i : Instr) (s : State) (d : Dialect) : List Piece :=
  match i with
  | .fbClear _ => []
  | .fbSetPixel _ _ _ => []
  | .fbRead _ _ => []
  | .reset => resetPieces s.straps
  | .sendCommand b => [.item (C b)]
  | .sendData b => [.item (D b)]
  | .readBusy => [.item Bw]
  | .turnOnDisplay => (refreshFrames d).map .item
  | .init => resetPieces s.straps ++ (if s.straps.dialectCfg = .probe then detectPieces s else []) ++
      (initSequence s.straps d).map .item
  | .display => (imageSequence s.straps d (s.fb.read .black) (s.fb.read .red)).map .item
  | .panelClear => (imageSequence s.straps d (fun _ => 0xFF#8) (fun _ => 0x00#8) ++ [Bw]).map .item
  | .sleep => (sleepSequence s.straps d).map .item ++ [.wait 2000]
  | .powerOffAndDeepSleep => (shutdownSequence s.straps d).map .item
  | .wSwReset => [C 0x12#8, Bw].map .item
  | .wBorderWaveform => [C 0x3C#8, D 0x05#8].map .item
  | .wTempSensor => [C 0x18#8, D 0x80#8].map .item
  | .wDataEntryMode => [C 0x11#8, D 0x03#8].map .item
  | .wRamXWindow => [C 0x44#8, D 0x00#8, D (BitVec.ofNat 8 (s.straps.geometry.width / 8 - 1))].map .item
  | .wRamYWindow =>
      [C 0x45#8, D 0x00#8, D 0x00#8, D (BitVec.ofNat 8 ((s.straps.geometry.height - 1) % 256)),
        D (BitVec.ofNat 8 ((s.straps.geometry.height - 1) / 256))].map .item
  | .wRamXCounter => [C 0x4E#8, D 0x00#8].map .item
  | .wRamYCounter => [C 0x4F#8, D 0x00#8, D 0x00#8].map .item
  | .wWriteBlack src => (planeFrame 0x24#8 (planeBytes s.straps.geometry) (streamed s .black src)).map .item
  | .wWriteRed src =>
      (planeFrame 0x26#8 (planeBytes s.straps.geometry) (fun j => ~~~(streamed s .red src j))).map .item
  | .wActivation => [C 0x22#8, D 0xF7#8].map .item
  | .wMasterActivate => [C 0x20#8, Bw].map .item
  | .wDeepSleep .ordinary => [.item (C 0x10#8), .item (D 0x03#8), .wait 2000]
  | .wDeepSleep .persistent => [C 0x10#8, D 0x01#8, Bw].map .item
  | .wPowerOff => [C 0x02#8, Bw].map .item
  | .wDetect => detectPieces s
  | .wOldWriteBlack src => (planeFrame 0x10#8 (planeBytes s.straps.geometry) (streamed s .black src)).map .item
  | .wOldWriteRed src =>
      (planeFrame 0x13#8 (planeBytes s.straps.geometry)
        (fun j => redOnWire s.straps .old (streamed s .red src j))).map .item
  | .wOldPowerOn => [C 0x04#8, Bw].map .item
  | .wOldRefresh => [C 0x12#8, Bw].map .item

/-- The verdict on the environment's next answer to an `Rx`: New for a failed read and for every byte `probe_decode` does not
recognise (R141, R166). -/
def State.verdict (s : State) : Dialect :=
  match s.env.readAt 0 with
  | none => .new
  | some b => if b ∈ s.straps.probeOld then .old else .new

/-- The dialect an instruction that runs to its end leaves: only an INIT under the Probe strap writes it (R163). -/
def State.dialectAfter (s : State) (i : Instr) : Dialect :=
  if i = .init ∧ s.straps.dialectCfg = .probe then s.verdict else s.dialect

/-- The bytes of a sequence as the wire projection shows them (R15). -/
def bytesOf (pieces : List Piece) : List (Latch × Byte) :=
  pieces.filterMap fun x =>
    match x with
    | .item (.send dc b) => some (latchOf dc, b)
    | _ => none

/-- The busy-waits of a sequence. -/
def pollsOf (pieces : List Piece) : Nat := pieces.count (.item Bw)

/-! ### What a sequence can come to -/

/-- The events of a READ_BUSY in which no sample fails (R133): fewer than 500 busy polls and an idle sample, or 500 busy
polls and the logged time-out. -/
def Polled (d : Dialect) (evs : List Event) : Prop :=
  (∃ k, k < 500 ∧ evs = busyPolls d k ++ [.sample (some (idleLevel d))]) ∨ evs = busyPolls d 500 ++ [.log 0x02#8]

/-- The events of a piece in which nothing fails. -/
def Piece.Done (p : Straps) (d : Dialect) (x : Piece) (evs : List Event) : Prop :=
  match x with
  | .item (.send dc b) => evs = byteEvents p dc b
  | .item .busyWait => Polled d evs
  | .rst v => evs = [.drive .rst v .ok]
  | .wait ms => evs = [.delay ms]
  | .read r => evs = probeReadEvents p r

/-- The same micro-operation, failing. -/
def Event.failed : Event → Event
  | .drive l v _ => .drive l v .err
  | .tx b _ => .tx b .err
  | .sample _ => .sample none
  | e => e

/-- The events of a sequence in which nothing fails: those of its pieces, in order; after a logged time-out it goes on
(R202). -/
def Done (p : Straps) (d : Dialect) : List Piece → List Event → Prop
  | [], evs => evs = []
  | x :: xs, evs => ∃ a b, evs = a ++ b ∧ x.Done p d a ∧ Done p d xs b

/-- The events of a sequence that stops at its first failing micro-operation, one of kind `k`: those of the done sequence up
to it, and it (R210). -/
def Cut (k : MicroKind) (p : Straps) (d : Dialect) (pieces : List Piece) (evs : List Event) : Prop :=
  ∃ init e rest, Done p d pieces (init ++ e :: rest) ∧ evs = init ++ [e.failed] ∧ e.failed.failure = some k

/-- The events of a piece when nothing fails and BUSY is idle at the first sample. -/
def Piece.cleanEvents (p : Straps) (d : Dialect) : Piece → List Event
  | .item i => frameEvents p d [i]
  | .rst v => [.drive .rst v .ok]
  | .wait ms => [.delay ms]
  | .read r => probeReadEvents p r

/-- The events of a sequence when nothing fails and BUSY is idle at every first sample. -/
def cleanEvents (p : Straps) (d : Dialect) (pieces : List Piece) : List Event := pieces.flatMap (Piece.cleanEvents p d)

/-! ### Completion -/

/-- `t` is `s` after a driver operation with events `evs` ran to its end: the events are appended, the completion is OK,
the latches and the environment are as the events leave them, the dialect flag is `d`, the sequencer is idle, and
straps, mode, framebuffer, waiting requests and fault mark are unchanged (R35, R210). -/
structure Completed (s t : State) (d : Dialect) (evs : List Event) : Prop where
  history     : t.history = s.history ++ evs
  completions : t.completions = 0x0000#16 :: s.completions
  lines       : t.lines = s.lines.after evs
  env         : t.env = s.env.after evs
  dialect     : t.dialect = d
  sp          : t.seq.sp = .idle
  straps      : t.straps = s.straps
  mode        : t.mode = s.mode
  fb          : t.fb = s.fb
  requests    : t.requests = s.requests
  faultMark   : t.ghost.faultMark = s.ghost.faultMark

/-! ### The access matrix of R35 -/

/-- What an instruction may write: one row of R35. -/
structure Access where
  fb      : Bool
  dialect : Bool
  rst     : Bool
  dcCs    : Bool
  events  : Bool
  deriving DecidableEq, Repr

/-- FB_CLEAR and FB_SET_PIXEL write the planes. -/
def accessPaint : Access := ⟨true, false, false, false, false⟩
/-- FB_READ writes nothing. -/
def accessRead : Access := ⟨false, false, false, false, false⟩
/-- RESET drives RST alone. -/
def accessReset : Access := ⟨false, false, true, false, true⟩
/-- READ_BUSY writes nothing and emits events. -/
def accessPoll : Access := ⟨false, false, false, false, true⟩
/-- Operations that send bytes drive DC and CS. -/
def accessSend : Access := ⟨false, false, false, true, true⟩
/-- INIT drives all three lines and may write the dialect flag. -/
def accessInit : Access := ⟨false, true, true, true, true⟩

/-- The matrix of R35; a wire command is a part of the operations that send it. -/
def access : Instr → Access
  | .fbClear _ => accessPaint
  | .fbSetPixel _ _ _ => accessPaint
  | .fbRead _ _ => accessRead
  | .reset => accessReset
  | .sendCommand _ => accessSend
  | .sendData _ => accessSend
  | .readBusy => accessPoll
  | .turnOnDisplay => accessSend
  | .init => accessInit
  | .display => accessSend
  | .panelClear => accessSend
  | .sleep => accessSend
  | .powerOffAndDeepSleep => accessSend
  | .wSwReset => accessSend
  | .wBorderWaveform => accessSend
  | .wTempSensor => accessSend
  | .wDataEntryMode => accessSend
  | .wRamXWindow => accessSend
  | .wRamYWindow => accessSend
  | .wRamXCounter => accessSend
  | .wRamYCounter => accessSend
  | .wWriteBlack _ => accessSend
  | .wWriteRed _ => accessSend
  | .wActivation => accessSend
  | .wMasterActivate => accessSend
  | .wDeepSleep _ => accessSend
  | .wPowerOff => accessSend
  | .wDetect => accessSend
  | .wOldWriteBlack _ => accessSend
  | .wOldWriteRed _ => accessSend
  | .wOldPowerOn => accessSend
  | .wOldRefresh => accessSend

/-! ### The ghost's table -/

/-- The phase R246 gives after an operation that ended OK without a time-out, from the phase before. `trusted`: the
dialect is New, or `OldSeqOk` is assumed. Frames run on their own are raw traffic (log entry 6). -/
def phaseAfter (i : Instr) (trusted : Bool) (phase : Phase) : Phase :=
  match i with
  | .fbClear _ => phase
  | .fbSetPixel _ _ _ => phase
  | .fbRead _ _ => phase
  | .readBusy => phase
  | .init => if trusted then .ready else .undefined
  | .display => if trusted ∧ phase = .ready then .ready else .undefined
  | .panelClear => if trusted ∧ phase = .ready then .ready else .undefined
  | .sleep => if trusted ∧ phase = .ready then .asleep else .undefined
  | .powerOffAndDeepSleep => if trusted ∧ phase = .ready then .asleepPersistent else .undefined
  | _ => .undefined

/-! ### Pixels and invariants -/

/-- The pair of bits of a pixel, black-plane bit first (R52). -/
def Framebuffer.pixel (fb : Framebuffer) (g : Geometry) (x y : BitVec 16) : Bool × Bool :=
  ((fb.read .black (byteIndex g x y)).getLsbD (7 - x.toNat % 8),
   (fb.read .red (byteIndex g x y)).getLsbD (7 - x.toNat % 8))

/-- Both planes are in canonical form with every address below `N`, and no pixel is the fourth combination: where a
red bit is 1 the black bit is 1 (R34, R52). -/
structure FramebufferInv (s : State) : Prop where
  black_wf : Memory.wf .black (planeBytes s.straps.geometry) s.fb.black
  red_wf   : Memory.wf .red (planeBytes s.straps.geometry) s.fb.red
  closed   : ∀ i, s.fb.read .red i &&& ~~~(s.fb.read .black i) = 0#8

/-- The mode is the strap's, an explicit dialect strap holds its dialect for good, a misconfigured core has done nothing
(R25, R163, R205), and `0x02` is never a status (R84). -/
structure ControlInv (s : State) : Prop where
  mode_strap : s.mode = modeAtConstruction s.straps.dialectCfg
  new_strap  : s.straps.dialectCfg = .new → s.dialect = .new
  old_strap  : s.straps.dialectCfg = .old → s.dialect = .old
  misconfigured : s.mode = .configFault → s.trace = [] ∧ ∀ w ∈ s.completions, w = 0x0300#16
  statuses   : ∀ w ∈ s.completions, w.extractLsb' 8 8 ∈ [0x00#8, 0x01#8, 0x03#8, 0x04#8]

/-- The latches are what the trace says was last driven (R24), a hardware-selected bus never sees CS driven (R120), and
the fault mark says that some micro-operation has failed (R211). -/
structure TraceInv (s : State) : Prop where
  latches   : s.lines = Lines.after ⟨.unknown, .unknown, .unknown⟩ s.history
  hard_cs   : s.straps.csMode = .hardCS → ∀ v a, Event.drive .cs v a ∉ s.trace
  faultMark : s.ghost.faultMark = true ↔ ∃ e ∈ s.trace, e.failure.isSome

/-! ### Used bits of a request -/

/-- The bits of a request word that its operation uses (R81, R83). -/
def usedBits : Instr → RequestWord
  | .fbClear _ => 0xFF0300000000#48
  | .fbSetPixel _ _ _ => 0xFF03FFFFFFFF#48
  | .fbRead _ _ => 0xFF01FFFFFFFF#48
  | .sendCommand _ => 0xFFFF00000000#48
  | .sendData _ => 0xFFFF00000000#48
  | _ => 0xFF0000000000#48

/-- The 13 operation codes of R83. -/
def requestOps : List Byte :=
  [0xA1#8, 0xA2#8, 0xA3#8, 0xD0#8, 0xD1#8, 0xD2#8, 0xD3#8, 0xD4#8, 0xD5#8, 0xD6#8, 0xD7#8, 0xD8#8, 0xD9#8]

end Sys2Proof.Machine
end

