-- ==== Sys2Proof/Certificates/Slice0/Obligations.lean ====
section
/-! DEFINITION. The statements for the provers. Each names the rule of the spec it formalises; a clause that rests on a
choice of the model says so and names the log entry. -/

open Sys2Proof Sys2Proof.Machine

/-! ### Fetching and decoding -/

/-- One step of the core is the meaning of the instruction it fetches: the request on the port, taken off it, when the
sequencer is idle (R16), or the frame the sequencer stands at, which it leaves (R28; log entry 6). With no request presented
the core stays as it is (log entry 1: read from the spec by inference, and the list of waiting requests is the model's). -/
def Obligations.StepRunsFetchedInstruction : Prop :=
  (∀ (s : State) (w : RequestWord) (rest : List RequestWord) (i : Instr),
    s.seq.sp = .idle → s.requests = w :: rest → decodeRequest w = .ok i →
      step s = exec i { s with requests := rest }) ∧
  (∀ (s : State) (w : FrameWord) (i : Instr),
    s.seq.sp = .frame w → decodeFrame s.dialect w = .ok i →
      step s = exec i { s with seq := { s.seq with sp := .idle } }) ∧
  (∀ s : State, s.seq.sp = .idle → s.requests = [] → step s = .next s)

/-- A table word placed for the next step is the instruction that runs, with nothing else changed (log entry 6). -/
def Obligations.PlacedWordRuns : Prop :=
  ∀ (s : State) (w : Nat) (i : Instr), s.seq.sp = .idle →
    (decodeTableWord 48 w = some i → step (s.withFetchWord 48 w) = exec i s) ∧
    (s.dialect = .new → decodeTableWord 8 w = some i → step (s.withFetchWord 8 w) = exec i s)

/-- Every step answers a next state, but for a frame word that no table has (R85, R96). The spec says of such a byte only
that the sequencer never sends it; that the model stops there with a fault is its own choice (log entry 19). -/
def Obligations.StepAnswersOrFaultsOnUnknownFrame : Prop :=
  ∀ s : State, (∃ t, step s = .next t) ∨
    (∃ w e, s.seq.sp = .frame w ∧ decodeFrame s.dialect w = .error e ∧ step s = .fault .unknownFrame)

/-- Request words written out from the spec's table decode as it says (R83). The spec gives command bytes as what the core
sends (R92, R93), never as something it decodes: that a command byte with no sender reads under a dialect, as a plane-write
frame with the core's own planes and as SLEEP's deep-sleep frame, is the model's choice (log entry 6). -/
def Obligations.SpecWordsDecode : Prop :=
  decodeRequest 0xA10200000000#48 = .ok (.fbClear 0b10#2) ∧
  decodeRequest 0xA200018F012B#48 = .ok (.fbSetPixel 399#16 299#16 0b00#2) ∧
  decodeRequest 0xA30100000033#48 = .ok (.fbRead .red 51#32) ∧
  decodeRequest 0xD12200000000#48 = .ok (.sendCommand 0x22#8) ∧
  decodeRequest 0xD5FFFFFFFFFF#48 = .ok .init ∧
  decodeRequest 0x240000000000#48 = .error (.unknownOp 0x24#8) ∧
  decodeTableWord 8 0x3C = some .wBorderWaveform ∧
  decodeTableWord 8 0x13 = some (.wOldWriteRed .framebuffer) ∧
  decodeFrame .old 0x0010#16 = .ok (.wOldWriteBlack .framebuffer) ∧
  decodeFrame .new 0x0010#16 = .ok (.wDeepSleep .ordinary)

/-- Decoding the words of an instruction gives the instruction back, every operand at every value, under either dialect;
ill-formed colours included. -/
def Obligations.DecodeOfEncode : Prop := ∀ (d : Dialect) (i : Instr), decode d (encode i) = .ok i

/-- A request decodes to an instruction that encodes to the word with its unused bits cleared: exactly the used bits
matter (R81). -/
def Obligations.RequestUsesOnlyItsBits : Prop :=
  ∀ (w : RequestWord) (i : Instr), decodeRequest w = .ok i → encode i = .request (w &&& usedBits i)

/-- The request decoder, code by code (R83), with each operand read from the bits R81 gives it and no other; every other
word is rejected with its code, so the decoder is total (R85). -/
def Obligations.RequestDecoderFollowsTable : Prop :=
  ∀ w : RequestWord,
    (reqOp w = 0xA1#8 → decodeRequest w = .ok (.fbClear (w.extractLsb' 32 2))) ∧
    (reqOp w = 0xA2#8 →
      decodeRequest w = .ok (.fbSetPixel (w.extractLsb' 16 16) (w.extractLsb' 0 16) (w.extractLsb' 32 2))) ∧
    (reqOp w = 0xA3#8 →
      decodeRequest w = .ok (.fbRead (if w.getLsbD 32 then .red else .black) (w.extractLsb' 0 32))) ∧
    (reqOp w = 0xD0#8 → decodeRequest w = .ok .reset) ∧
    (reqOp w = 0xD1#8 → decodeRequest w = .ok (.sendCommand (w.extractLsb' 32 8))) ∧
    (reqOp w = 0xD2#8 → decodeRequest w = .ok (.sendData (w.extractLsb' 32 8))) ∧
    (reqOp w = 0xD3#8 → decodeRequest w = .ok .readBusy) ∧
    (reqOp w = 0xD4#8 → decodeRequest w = .ok .turnOnDisplay) ∧
    (reqOp w = 0xD5#8 → decodeRequest w = .ok .init) ∧
    (reqOp w = 0xD6#8 → decodeRequest w = .ok .display) ∧
    (reqOp w = 0xD7#8 → decodeRequest w = .ok .panelClear) ∧
    (reqOp w = 0xD8#8 → decodeRequest w = .ok .sleep) ∧
    (reqOp w = 0xD9#8 → decodeRequest w = .ok .powerOffAndDeepSleep) ∧
    (reqOp w ∉ requestOps → decodeRequest w = .error (.unknownOp (reqOp w)))

/-! ### Construction and configuration -/

/-- Construction with any straps (R33, R230): both planes preset, the dialect flag and the mode from `DIALECT_CFG`, the
latches unknown, the sequencer idle, nothing emitted. -/
def Obligations.ConstructionValues : Prop :=
  ∀ p : Straps,
    (∀ i, (State.construct p).fb.read .black i = 0xFF#8 ∧ (State.construct p).fb.read .red i = 0x00#8) ∧
    (p.dialectCfg = .new ∨ p.dialectCfg = .probe → (State.construct p).dialect = .new) ∧
    (p.dialectCfg = .old → (State.construct p).dialect = .old) ∧
    ((State.construct p).mode = if p.dialectCfg = .reserved then .configFault else .operational) ∧
    (State.construct p).lines = ⟨.unknown, .unknown, .unknown⟩ ∧
    (State.construct p).seq.sp = .idle ∧ (State.construct p).trace = [] ∧
    (State.construct p).ghost.phase = .uninitialized ∧ (State.construct p).straps = p

/-- A geometry exists exactly under the constraints of R8. Its constants: the two formulas for a row agree, `X_END` fits
one byte, and `Y_END` is sent as its low and high byte. For 400 x 300 they are the source's (R8). -/
def Obligations.GeometryConstants : Prop :=
  (∀ w h : Nat, (∃ g, Geometry.ofSize w h = some g ∧ g.width = w ∧ g.height = h) ↔
    w % 8 = 0 ∧ 8 ≤ w ∧ w ≤ 2048 ∧ 1 ≤ h ∧ h ≤ 65536) ∧
  (∀ g : Geometry, bytesPerRow g = (g.width + 7) / 8 ∧ bytesPerRow g = g.width / 8 ∧
    planeBytes g = bytesPerRow g * g.height ∧ (xEndByte g).toNat = g.width / 8 - 1 ∧
    (yEndLo g).toNat = (g.height - 1) % 256 ∧ (yEndHi g).toNat = (g.height - 1) / 256 ∧
    (yEndLo g).toNat + 256 * (yEndHi g).toNat = g.height - 1) ∧
  State.reset.straps.geometry.width = 400 ∧ State.reset.straps.geometry.height = 300 ∧
  bytesPerRow State.reset.straps.geometry = 50 ∧
  planeBytes State.reset.straps.geometry = 15000 ∧ xEndByte State.reset.straps.geometry = 0x31#8 ∧
  yEndLo State.reset.straps.geometry = 0x2B#8 ∧ yEndHi State.reset.straps.geometry = 0x01#8

/-- The two columns of the dialect record, field by field (R161, R162): New's fields 1 to 10, with `CONFIG_SEQ` as the
bytes and busy-waits it stands for; Old's fields 1 to 5, its last five fields configuration, which in the core after reset are
New's. -/
def Obligations.DialectColumns : Prop :=
  (∀ p : Straps,
    (column p .new).busyLevel = .high ∧ (column p .new).blackWrite = 0x24#8 ∧ (column p .new).redWrite = 0x26#8 ∧
    (column p .new).powerOn = none ∧
    (column p .new).refreshSeq = [(.low, 0x22#8), (.high, 0xF7#8), (.low, 0x20#8)] ∧
    (column p .new).tail.redInvert = true ∧ configBlock (column p .new).tail = configFrames p.geometry ∧
    (column p .new).tail.rehomeSeq =
      [(.low, 0x4E#8), (.high, 0x00#8), (.low, 0x4F#8), (.high, 0x00#8), (.high, 0x00#8)] ∧
    (column p .new).tail.sleepSeq = [(.low, 0x10#8), (.high, 0x03#8)] ∧
    (column p .new).tail.shutdownSeq = [C 0x02#8, Bw, C 0x10#8, D 0x01#8, Bw] ∧
    column p .old = ⟨.low, 0x10#8, 0x13#8, some 0x04#8, [(.low, 0x12#8)], p.oldTail⟩) ∧
  (column State.reset.straps .old).tail = (column State.reset.straps .new).tail

/-! ### Invariants -/

/-- A freshly constructed core meets the three invariants. -/
def Obligations.ConstructionMeetsInvariants : Prop :=
  ∀ p : Straps, FramebufferInv (State.construct p) ∧ ControlInv (State.construct p) ∧ TraceInv (State.construct p)

/-- Every step keeps both planes canonical and inside `N` bytes, and no step makes the fourth combination (R34). -/
def Obligations.StepKeepsFramebufferInv : Prop :=
  ∀ s t : State, FramebufferInv s → step s = .next t → FramebufferInv t

/-- Every step keeps the mode its strap's, an explicit dialect fixed, a misconfigured core dead and `0x02` no status
(R25, R163, R205, R84). -/
def Obligations.StepKeepsControlInv : Prop := ∀ s t : State, ControlInv s → step s = .next t → ControlInv t

/-- Every step keeps the latches equal to what the trace last drove, CS undriven on a hardware-selected bus, and the
fault mark equal to "some micro-operation has failed" (R24, R120, R211). -/
def Obligations.StepKeepsTraceInv : Prop := ∀ s t : State, TraceInv s → step s = .next t → TraceInv t

/-! ### Requests that end without an effect -/

/-- A core strapped `0b11` is dead: every request, legal or not, is answered MISCONFIGURATION with no event and no other
change (R205). The second clause says the same of every instruction, wire frames run on their own included, whose answer
is the model's choice (log entry 6). -/
def Obligations.MisconfiguredCoreIsDead : Prop :=
  (∀ p : Straps, p.dialectCfg = .reserved ↔ (State.construct p).mode = .configFault) ∧
  (∀ (i : Instr) (s : State), s.mode = .configFault →
    exec i s = .next { s with completions := 0x0300#16 :: s.completions }) ∧
  (∀ (s : State) (w : RequestWord) (rest : List RequestWord), s.mode = .configFault → s.seq.sp = .idle →
    s.requests = w :: rest →
      step s = .next { s with requests := rest, completions := 0x0300#16 :: s.completions })

/-- An unknown operation code, colour `0b01`, and an FB_READ index from `N` on are answered ILLEGAL_REQUEST with no event
and no other change (R85, R206). -/
def Obligations.IllegalRequestsChangeNothing : Prop :=
  (∀ (s : State) (w : RequestWord) (rest : List RequestWord), s.mode = .operational → s.seq.sp = .idle →
    s.requests = w :: rest → reqOp w ∉ requestOps →
      step s = .next { s with requests := rest, completions := 0x0400#16 :: s.completions }) ∧
  (∀ s : State, s.mode = .operational →
    exec (.fbClear 0b01#2) s = .next { s with completions := 0x0400#16 :: s.completions }) ∧
  (∀ (s : State) (x y : BitVec 16), s.mode = .operational →
    exec (.fbSetPixel x y 0b01#2) s = .next { s with completions := 0x0400#16 :: s.completions }) ∧
  (∀ (s : State) (p : Plane) (index : BitVec 32), s.mode = .operational →
    planeBytes s.straps.geometry ≤ index.toNat →
      exec (.fbRead p index) s = .next { s with completions := 0x0400#16 :: s.completions })

/-! ### The framebuffer -/

/-- FB_CLEAR, operation code `0xA1`: with a legal colour it completes OK, fills each plane with the colour's bit in it, and
changes nothing else; colour `0b01` is an illegal request and changes nothing (R111). -/
def Obligations.FbClearFillsPlanes : Prop :=
  (∀ w : RequestWord, reqOp w = 0xA1#8 → decodeRequest w = .ok (.fbClear (w.extractLsb' 32 2))) ∧
  ∀ (s : State) (colour : BitVec 2), s.mode = .operational →
    (colour ≠ 0b01#2 →
      ∃ fb, exec (.fbClear colour) s = .next { s with fb := fb, completions := 0x0000#16 :: s.completions } ∧
        ∀ i, i < planeBytes s.straps.geometry →
          fb.read .black i = (if colour.getLsbD 1 then 0xFF#8 else 0x00#8) ∧
          fb.read .red i = (if colour.getLsbD 0 then 0xFF#8 else 0x00#8)) ∧
    (colour = 0b01#2 → exec (.fbClear colour) s = .next { s with completions := 0x0400#16 :: s.completions })

/-- FB_SET_PIXEL, operation code `0xA2`. Colour `0b01` is an illegal request wherever the pixel is. With a legal colour it
completes OK: in range it sets or clears the pixel's bit in the one byte of each plane and leaves every other byte as it
was, out of range it changes nothing (R112). The canonical form of the planes is assumed, which every step keeps. -/
def Obligations.FbSetPixelSetsTwoBits : Prop :=
  (∀ w : RequestWord, reqOp w = 0xA2#8 →
    decodeRequest w = .ok (.fbSetPixel (w.extractLsb' 16 16) (w.extractLsb' 0 16) (w.extractLsb' 32 2))) ∧
  ∀ (s : State) (x y : BitVec 16) (colour : BitVec 2), s.mode = .operational → FramebufferInv s →
    (colour = 0b01#2 →
      exec (.fbSetPixel x y colour) s = .next { s with completions := 0x0400#16 :: s.completions }) ∧
    (colour ≠ 0b01#2 → x.toNat < s.straps.geometry.width ∧ y.toNat < s.straps.geometry.height →
      ∃ fb, exec (.fbSetPixel x y colour) s =
          .next { s with fb := fb, completions := 0x0000#16 :: s.completions } ∧
        (∀ (p : Plane) (j : Nat), j ≠ y.toNat * (s.straps.geometry.width / 8) + x.toNat / 8 →
          fb.read p j = s.fb.read p j) ∧
        (∀ (p : Plane) (b : Byte), b = s.fb.read p (y.toNat * (s.straps.geometry.width / 8) + x.toNat / 8) →
          fb.read p (y.toNat * (s.straps.geometry.width / 8) + x.toNat / 8) =
            if colour.getLsbD (match p with | .black => 1 | .red => 0) then b ||| (0x80#8 >>> (x.toNat % 8))
            else b &&& ~~~(0x80#8 >>> (x.toNat % 8)))) ∧
    (colour ≠ 0b01#2 → ¬(x.toNat < s.straps.geometry.width ∧ y.toNat < s.straps.geometry.height) →
      exec (.fbSetPixel x y colour) s = .next { s with completions := 0x0000#16 :: s.completions })

/-- FB_READ, operation code `0xA3`: an index below `N` completes with the in-memory byte and changes nothing, any other is
an illegal request and changes nothing (R113). -/
def Obligations.FbReadReturnsPlaneByte : Prop :=
  (∀ w : RequestWord, reqOp w = 0xA3#8 →
    decodeRequest w = .ok (.fbRead (if w.getLsbD 32 then .red else .black) (w.extractLsb' 0 32))) ∧
  ∀ (s : State) (p : Plane) (index : BitVec 32), s.mode = .operational →
    (index.toNat < planeBytes s.straps.geometry →
      exec (.fbRead p index) s =
        .next { s with completions := ((0x00#8 ++ s.fb.read p index.toNat : BitVec 16)) :: s.completions }) ∧
    (planeBytes s.straps.geometry ≤ index.toNat →
      exec (.fbRead p index) s = .next { s with completions := 0x0400#16 :: s.completions })

/-- The pixel map by its formula: it stays inside the plane, and two pixels share a byte and a bit only if they are one (R51). -/
def Obligations.PixelMapIsInjective : Prop :=
  ∀ (g : Geometry) (x y x' y' : BitVec 16), x.toNat < g.width → y.toNat < g.height → x'.toNat < g.width →
    y'.toNat < g.height →
      byteIndex g x y = y.toNat * bytesPerRow g + x.toNat / 8 ∧ bitMask x = 0x80#8 >>> (x.toNat % 8) ∧
      byteIndex g x y < planeBytes g ∧
      (byteIndex g x y = byteIndex g x' y' → bitMask x = bitMask x' → x = x' ∧ y = y')

/-- Last write wins, pixel by pixel: after an in-range FB_SET_PIXEL the pixel has the two bits of its colour and every
other in-range pixel has the two bits it had; after FB_CLEAR every in-range pixel has the colour (R52, R114). -/
def Obligations.LastWriteWins : Prop :=
  ∀ (s t : State) (colour : BitVec 2), s.mode = .operational → FramebufferInv s → colour ≠ 0b01#2 →
    (∀ x y x' y' : BitVec 16, x.toNat < s.straps.geometry.width → y.toNat < s.straps.geometry.height →
      x'.toNat < s.straps.geometry.width → y'.toNat < s.straps.geometry.height →
      exec (.fbSetPixel x y colour) s = .next t →
        t.fb.pixel s.straps.geometry x' y' =
          if x' = x ∧ y' = y then (colour.getLsbD 1, colour.getLsbD 0)
          else s.fb.pixel s.straps.geometry x' y') ∧
    (∀ x y : BitVec 16, x.toNat < s.straps.geometry.width → y.toNat < s.straps.geometry.height →
      exec (.fbClear colour) s = .next t →
        t.fb.pixel s.straps.geometry x y = (colour.getLsbD 1, colour.getLsbD 0))

/-- Painting twice is painting once: the framebuffer after a repeated FB_CLEAR or FB_SET_PIXEL is that of the first, as
data (R114). -/
def Obligations.RepeatedPaintIsIdempotent : Prop :=
  ∀ s t u : State, FramebufferInv s →
    (∀ colour : BitVec 2, exec (.fbClear colour) s = .next t → exec (.fbClear colour) t = .next u → u.fb = t.fb) ∧
    (∀ (x y : BitVec 16) (colour : BitVec 2), exec (.fbSetPixel x y colour) s = .next t →
      exec (.fbSetPixel x y colour) t = .next u → u.fb = t.fb)

/-! ### Driver primitives -/

/-- SEND_COMMAND and SEND_DATA of any byte, nothing failing: the events of one framed byte with DC low or high, and the
lines as they leave them (R131, R132). -/
def Obligations.SendByteFrames : Prop :=
  ∀ (s : State) (b : Byte), s.mode = .operational →
    (s.CleanFor s.dialect (byteEvents s.straps .low b) →
      ∃ t, exec (.sendCommand b) s = .next t ∧ Completed s t s.dialect (byteEvents s.straps .low b) ∧
        t.lines.dc = .low ∧ t.lines.cs = (if s.straps.csMode = .softCS then .high else s.lines.cs) ∧
        t.lines.rst = s.lines.rst) ∧
    (s.CleanFor s.dialect (byteEvents s.straps .high b) →
      ∃ t, exec (.sendData b) s = .next t ∧ Completed s t s.dialect (byteEvents s.straps .high b) ∧
        t.lines.dc = .high ∧ t.lines.cs = (if s.straps.csMode = .softCS then .high else s.lines.cs) ∧
        t.lines.rst = s.lines.rst)

/-- Where SEND_COMMAND and SEND_DATA abort, at each micro-operation that can fail: nothing after it runs (after a failed
`Tx` the device stays selected), its line becomes unknown, and the completion names it (R131, R210, R211). -/
def Obligations.SendByteAborts : Prop :=
  ∀ (s : State) (i : Instr) (b : Byte) (v : Level),
    (i = .sendCommand b ∧ v = .low ∨ i = .sendData b ∧ v = .high) → s.mode = .operational →
    (s.env.ackAt 0 = .err → ∃ t, exec i s = .next t ∧ t.history = s.history ++ [.drive .dc v .err] ∧
      t.completions = 0x0102#16 :: s.completions ∧ t.lines = { s.lines with dc := .unknown } ∧
      t.ghost.faultMark = true ∧ t.ghost.phase = .undefined) ∧
    (s.straps.csMode = .softCS → s.env.ackAt 0 = .ok → s.env.ackAt 1 = .err →
      ∃ t, exec i s = .next t ∧ t.history = s.history ++ [.drive .dc v .ok, .drive .cs .low .err] ∧
        t.completions = 0x0103#16 :: s.completions ∧ t.lines = ⟨s.lines.rst, latchOf v, .unknown⟩ ∧
        t.ghost.faultMark = true ∧ t.ghost.phase = .undefined) ∧
    (s.straps.csMode = .softCS → s.env.ackAt 0 = .ok → s.env.ackAt 1 = .ok → s.env.ackAt 2 = .err →
      ∃ t, exec i s = .next t ∧
        t.history = s.history ++ [.drive .dc v .ok, .drive .cs .low .ok, .tx b .err] ∧
        t.completions = 0x0104#16 :: s.completions ∧ t.lines = ⟨s.lines.rst, latchOf v, .low⟩ ∧
        t.ghost.faultMark = true ∧ t.ghost.phase = .undefined) ∧
    (s.straps.csMode = .softCS → s.env.ackAt 0 = .ok → s.env.ackAt 1 = .ok → s.env.ackAt 2 = .ok →
      s.env.ackAt 3 = .err →
      ∃ t, exec i s = .next t ∧
        t.history = s.history ++ [.drive .dc v .ok, .drive .cs .low .ok, .tx b .ok, .drive .cs .high .err] ∧
        t.completions = 0x0103#16 :: s.completions ∧ t.lines = ⟨s.lines.rst, latchOf v, .unknown⟩ ∧
        t.ghost.faultMark = true ∧ t.ghost.phase = .undefined) ∧
    (s.straps.csMode = .hardCS → s.env.ackAt 0 = .ok → s.env.ackAt 1 = .err →
      ∃ t, exec i s = .next t ∧ t.history = s.history ++ [.drive .dc v .ok, .tx b .err] ∧
        t.completions = 0x0104#16 :: s.completions ∧ t.lines = { s.lines with dc := latchOf v } ∧
        t.ghost.faultMark = true ∧ t.ghost.phase = .undefined)

/-- RESET, operation code `0xD0`: six events and RST high when nothing fails; the abort at each of its three `Drive`s otherwise; no other line,
no poll, nothing inside the core (R130). -/
def Obligations.ResetPulsesPanel : Prop :=
  (∀ w : RequestWord, reqOp w = 0xD0#8 → decodeRequest w = .ok .reset) ∧
  ∀ s : State, s.mode = .operational →
    (s.AcksOk 3 → ∃ t, exec .reset s = .next t ∧ Completed s t s.dialect (resetEvents s.straps) ∧
      t.lines = { s.lines with rst := .high }) ∧
    (∀ k, k < 3 → s.AcksOk k → s.env.ackAt k = .err →
      ∃ t e, exec .reset s = .next t ∧ t.history = s.history ++ (resetEvents s.straps).take (2 * k) ++ [e] ∧
        e = .drive .rst (if k = 1 then .low else .high) .err ∧
        t.completions = 0x0101#16 :: s.completions ∧ t.lines = { s.lines with rst := .unknown } ∧
        t.fb = s.fb ∧ t.dialect = s.dialect)

/-- READ_BUSY with BUSY at the busy level of the active dialect for `k < 500` samples and then idle: `k` polls, one more
sample, no log, OK (R133). -/
def Obligations.ReadBusyPollsUntilIdle : Prop :=
  ∀ (s : State) (k : Nat), s.mode = .operational → k < 500 →
    (∀ j, j < k → s.env.sampleAt j = some (busyLevelOf s.dialect)) →
    s.env.sampleAt k = some (idleLevel s.dialect) →
      ∃ t, exec .readBusy s = .next t ∧
        Completed s t s.dialect (busyPolls s.dialect k ++ [.sample (some (idleLevel s.dialect))]) ∧
        t.lines = s.lines

/-- READ_BUSY is bounded: 500 busy samples give 500 polls and one log that carries the code of Timeout, `0x02`, 1001 events,
and the operation proceeds with OK (R125, R133, R202); a sample that fails before that is a TransportError at once. -/
def Obligations.ReadBusyIsBounded : Prop :=
  ∀ s : State, s.mode = .operational →
    ((∀ j, j < 500 → s.env.sampleAt j = some (busyLevelOf s.dialect)) →
      ∃ t, exec .readBusy s = .next t ∧ Completed s t s.dialect (busyPolls s.dialect 500 ++ [.log 0x02#8]) ∧
        (busyPolls s.dialect 500 ++ [Event.log 0x02#8]).length = 1001 ∧ t.lines = s.lines) ∧
    (∀ k, k < 500 → (∀ j, j < k → s.env.sampleAt j = some (busyLevelOf s.dialect)) → s.env.sampleAt k = none →
      ∃ t, exec .readBusy s = .next t ∧ t.history = s.history ++ (busyPolls s.dialect k ++ [.sample none]) ∧
        t.completions = 0x0106#16 :: s.completions ∧ t.lines = s.lines ∧ t.ghost.faultMark = true)

/-- An operation goes on after a busy poll and after a logged time-out: where none of its `Drive`, `Tx` and `Sample` fails,
whatever levels BUSY shows, it completes OK with its whole sequence done (each busy-wait some busy polls and an idle sample,
or 500 busy polls and the log), every event carrying the environment's answer, and all its bytes are on the wire (R133,
R202). Wire frames run on their own are included (log entry 6); INIT's sequence under a configured Old column is log entry
20's. -/
def Obligations.OperationsGoOnAfterTimeouts : Prop :=
  ∀ (i : Instr) (s : State) (d : Dialect), s.mode = .operational → (access i).events = true → d = s.dialectAfter i →
    s.AcksOk ((cleanEvents s.straps d (sequenceOf i s d)).countP Event.takesAck) →
    s.SamplesOk (500 * pollsOf (sequenceOf i s d)) →
      ∃ t evs, exec i s = .next t ∧ Completed s t d evs ∧ Done s.straps d (sequenceOf i s d) evs ∧
        Answered s.env evs ∧ t.wire = s.wire ++ bytesOf (sequenceOf i s d)

/-- TURN_ON_DISPLAY, nothing failing and BUSY idle at once: the refresh bytes of the dialect, then a sample (R134). -/
def Obligations.TurnOnDisplayRefreshes : Prop :=
  ∀ s : State, s.mode = .operational →
    s.CleanFor s.dialect (frameEvents s.straps s.dialect (refreshFrames s.dialect)) →
      ∃ t, exec .turnOnDisplay s = .next t ∧
        Completed s t s.dialect (frameEvents s.straps s.dialect (refreshFrames s.dialect))

/-! ### Sequences -/

/-- INIT without a probe, nothing failing and BUSY idle at every first sample: the reset pulse, under Old the power-on
command and a busy-wait, and the 20 bytes and two busy-waits of the configuration block (R140, R142). The Old sequence is
claimed under `OldAsNew`. -/
def Obligations.InitSendsConfiguration : Prop :=
  ∀ s : State, s.mode = .operational → s.straps.dialectCfg ≠ .probe → (s.dialect = .old → OldAsNew s.straps) →
    s.CleanFor s.dialect
      (resetEvents s.straps ++ frameEvents s.straps s.dialect (initFrames s.straps.geometry s.dialect)) →
      ∃ t, exec .init s = .next t ∧
        Completed s t s.dialect
          (resetEvents s.straps ++ frameEvents s.straps s.dialect (initFrames s.straps.geometry s.dialect))

/-- INIT under the Probe strap: after the reset pulse the detection command, 50 ms, the read frame; whatever the read
answers, a failed read included, INIT goes on, with the dialect of the verdict: New for a failed read and for every byte
`probe_decode` does not recognise (R141, R166). -/
def Obligations.InitProbesDialect : Prop :=
  ∀ (s : State) (d : Dialect) (evs : List Event), s.mode = .operational → s.straps.dialectCfg = .probe →
    d = (match s.env.readAt 0 with
      | none => .new
      | some b => if b ∈ s.straps.probeOld then .old else .new) →
    (d = .old → OldAsNew s.straps) →
    evs = resetEvents s.straps ++ (frameEvents s.straps d [C 0x2F#8] ++ ([.delay 50] ++
      (probeReadEvents s.straps (s.env.readAt 0) ++ frameEvents s.straps d (initFrames s.straps.geometry d)))) →
    s.CleanFor d evs →
      ∃ t, exec .init s = .next t ∧ Completed s t d evs

/-- DISPLAY, nothing failing and BUSY idle: REHOME, the black plane verbatim, the red plane complemented, the refresh,
each plane in `N` data bytes in ascending order; the framebuffer is not changed (R143). -/
def Obligations.DisplayStreamsPlanes : Prop :=
  ∀ (s : State) (evs : List Event), s.mode = .operational → (s.dialect = .old → OldAsNew s.straps) →
    evs = frameEvents s.straps s.dialect
      (imageFrames s.dialect (planeBytes s.straps.geometry) (s.fb.read .black) (s.fb.read .red)) →
    s.CleanFor s.dialect evs →
      ∃ t, exec .display s = .next t ∧ Completed s t s.dialect evs

/-- PANEL_CLEAR, nothing failing and BUSY idle: DISPLAY's transfer of an all-white black plane and an all-zero red plane,
one refresh, and one more busy-wait, whatever the framebuffer holds (R144). -/
def Obligations.PanelClearStreamsWhite : Prop :=
  ∀ (s : State) (evs : List Event), s.mode = .operational → (s.dialect = .old → OldAsNew s.straps) →
    evs = frameEvents s.straps s.dialect
      (imageFrames s.dialect (planeBytes s.straps.geometry) (fun _ => 0xFF#8) (fun _ => 0x00#8) ++ [Bw]) →
    s.CleanFor s.dialect evs →
      ∃ t, exec .panelClear s = .next t ∧ Completed s t s.dialect evs

/-- SLEEP: `C 10, D 03` and 2000 ms, no poll (R150). -/
def Obligations.SleepSendsDeepSleep : Prop :=
  ∀ (s : State) (evs : List Event), s.mode = .operational → (s.dialect = .old → OldAsNew s.straps) →
    evs = frameEvents s.straps s.dialect [C 0x10#8, D 0x03#8] ++ [.delay 2000] → s.CleanFor s.dialect evs →
      ∃ t, exec .sleep s = .next t ∧ Completed s t s.dialect evs

/-- POWER_OFF_AND_DEEP_SLEEP: `C 02`, wait, `C 10, D 01`, wait, in this order with no omission (R151). -/
def Obligations.ShutdownKeepsItsOrder : Prop :=
  ∀ (s : State) (evs : List Event), s.mode = .operational → (s.dialect = .old → OldAsNew s.straps) →
    evs = frameEvents s.straps s.dialect [C 0x02#8, Bw, C 0x10#8, D 0x01#8, Bw] → s.CleanFor s.dialect evs →
      ∃ t, exec .powerOffAndDeepSleep s = .next t ∧ Completed s t s.dialect evs

/-- When the dialect is Old, by its strap or by the verdict of the probe INIT runs, the sequences are the configured ones of
the Old column, whatever they are: INIT sends the power-on command, a busy-wait and `CONFIG_SEQ`, in which "call REHOME" is
`REHOME_SEQ` (log entry 20), DISPLAY and PANEL_CLEAR re-home by `REHOME_SEQ`, write the planes with `0x10` and `0x13`,
complement red as `RED_INVERT` says and refresh with `0x12`, and SLEEP and POWER_OFF_AND_DEEP_SLEEP send `SLEEP_SEQ` and
`SHUTDOWN_SEQ` (R140, R141, R160, R162). -/
def Obligations.OldConfigurationIsFollowed : Prop :=
  ∀ (s : State) (i : Instr) (evs : List Event), s.mode = .operational → s.dialectAfter i = .old →
    (i, evs) ∈
      [(Instr.init, resetEvents s.straps ++
          ((if s.straps.dialectCfg = .probe then frameEvents s.straps .old [C 0x2F#8] ++ ([.delay 50] ++
              probeReadEvents s.straps (s.env.readAt 0)) else []) ++
            frameEvents s.straps .old ([C 0x04#8, Bw] ++ oldConfigFrames s.straps))),
       (.display, frameEvents s.straps .old (itemsOf s.straps.oldTail.rehomeSeq ++
          planeFrame 0x10#8 (planeBytes s.straps.geometry) (s.fb.read .black) ++
          planeFrame 0x13#8 (planeBytes s.straps.geometry)
            (fun j => if s.straps.oldTail.redInvert then ~~~(s.fb.read .red j) else s.fb.read .red j) ++
          [C 0x12#8, Bw])),
       (.panelClear, frameEvents s.straps .old (itemsOf s.straps.oldTail.rehomeSeq ++
          planeFrame 0x10#8 (planeBytes s.straps.geometry) (fun _ => 0xFF#8) ++
          planeFrame 0x13#8 (planeBytes s.straps.geometry)
            (fun _ => if s.straps.oldTail.redInvert then 0xFF#8 else 0x00#8) ++
          [C 0x12#8, Bw, Bw])),
       (.sleep, frameEvents s.straps .old (itemsOf s.straps.oldTail.sleepSeq) ++ [.delay 2000]),
       (.powerOffAndDeepSleep, frameEvents s.straps .old s.straps.oldTail.shutdownSeq)] →
    s.CleanFor .old evs → ∃ t, exec i s = .next t ∧ Completed s t .old evs

/-- The event counts of operations that meet no failure and an idle BUSY, with default pacing: an operation of `k` bytes and
`q` busy-waits appends `4k + q` events with SoftCS and `2k + q` with HardCS; INIT 6 more for the reset pulse and, when its
probe runs, one byte more and 5 or 3 events more for the delay and the read frame (R145). The Old counts of INIT, DISPLAY and
PANEL_CLEAR are claimed under `OldAsNew`. -/
def Obligations.CleanEventCounts : Prop :=
  ∀ (s : State) (i : Instr) (d : Dialect) (probes per k q extra : Nat), s.mode = .operational →
    s.straps.tInterbyte = 0 → d = s.dialectAfter i → (d = .old → OldAsNew s.straps) →
    probes = (if s.straps.dialectCfg = .probe then 1 else 0) → per = (if s.straps.csMode = .softCS then 4 else 2) →
    (i, d, k, q, extra) ∈
      [(Instr.init, Dialect.new, 20 + probes, 2, 6 + probes * (if s.straps.csMode = .softCS then 5 else 3)),
       (.init, .old, 21 + probes, 3, 6 + probes * (if s.straps.csMode = .softCS then 5 else 3)),
       (.display, .new, 2 * planeBytes s.straps.geometry + 10, 1, 0),
       (.display, .old, 2 * planeBytes s.straps.geometry + 8, 1, 0),
       (.panelClear, .new, 2 * planeBytes s.straps.geometry + 10, 2, 0),
       (.panelClear, .old, 2 * planeBytes s.straps.geometry + 8, 2, 0),
       (.turnOnDisplay, .new, 3, 1, 0), (.turnOnDisplay, .old, 1, 1, 0)] →
    s.CleanFor d (cleanEvents s.straps d (sequenceOf i s d)) →
      ∃ t, exec i s = .next t ∧ t.completions = 0x0000#16 :: s.completions ∧
        t.trace.length = s.trace.length + (per * k + q + extra)

/-! ### Wire commands -/

/-- The wire commands with constant or geometry parameters, each run on its own with nothing failing: exactly its frame
(R172 to R178, R181). That a frame can be run on its own is the model's choice (log entry 6). -/
def Obligations.WireParameterFrames : Prop :=
  ∀ (s : State) (i : Instr) (items : List SeqItem), s.mode = .operational →
    (i, items) ∈
      [(Instr.wBorderWaveform, [C 0x3C#8, D 0x05#8]), (.wTempSensor, [C 0x18#8, D 0x80#8]),
       (.wDataEntryMode, [C 0x11#8, D 0x03#8]),
       (.wRamXWindow, [C 0x44#8, D 0x00#8, D (BitVec.ofNat 8 (s.straps.geometry.width / 8 - 1))]),
       (.wRamYWindow, [C 0x45#8, D 0x00#8, D 0x00#8, D (BitVec.ofNat 8 ((s.straps.geometry.height - 1) % 256)),
         D (BitVec.ofNat 8 ((s.straps.geometry.height - 1) / 256))]),
       (.wRamXCounter, [C 0x4E#8, D 0x00#8]), (.wRamYCounter, [C 0x4F#8, D 0x00#8, D 0x00#8]),
       (.wActivation, [C 0x22#8, D 0xF7#8])] →
    s.CleanFor s.dialect (frameEvents s.straps s.dialect items) →
      ∃ t, exec i s = .next t ∧ Completed s t s.dialect (frameEvents s.straps s.dialect items)

/-- The wire commands that a busy-wait follows, each run on its own with nothing failing and BUSY idle: the command byte,
then a sample, whose idle level is the active dialect's (R171, R182, R184, R188, R189; log entry 6, also for the polarity of the
two Old frames run under New). -/
def Obligations.WirePolledFrames : Prop :=
  ∀ (s : State) (i : Instr) (cmd : Byte), s.mode = .operational →
    (i, cmd) ∈
      [(Instr.wSwReset, 0x12#8), (.wMasterActivate, 0x20#8), (.wPowerOff, 0x02#8), (.wOldPowerOn, 0x04#8),
       (.wOldRefresh, 0x12#8)] →
    s.CleanFor s.dialect (frameEvents s.straps s.dialect [C cmd, Bw]) →
      ∃ t, exec i s = .next t ∧ Completed s t s.dialect (frameEvents s.straps s.dialect [C cmd, Bw])

/-- The plane-write commands, each run on its own with nothing failing: the command and `N` data bytes, the core's own
plane or the white image, red complemented; in the Old table as the configured `RED_INVERT` says (R179, R180, R186, R187;
log entry 6). -/
def Obligations.WirePlaneFrames : Prop :=
  ∀ (s : State) (i : Instr) (items : List SeqItem), s.mode = .operational →
    (i, items) ∈
      [(Instr.wWriteBlack .framebuffer, planeFrame 0x24#8 (planeBytes s.straps.geometry) (s.fb.read .black)),
       (.wWriteBlack .white, planeFrame 0x24#8 (planeBytes s.straps.geometry) (fun _ => 0xFF#8)),
       (.wWriteRed .framebuffer, planeFrame 0x26#8 (planeBytes s.straps.geometry) (fun j => ~~~(s.fb.read .red j))),
       (.wWriteRed .white, planeFrame 0x26#8 (planeBytes s.straps.geometry) (fun _ => 0xFF#8)),
       (.wOldWriteBlack .framebuffer, planeFrame 0x10#8 (planeBytes s.straps.geometry) (s.fb.read .black)),
       (.wOldWriteBlack .white, planeFrame 0x10#8 (planeBytes s.straps.geometry) (fun _ => 0xFF#8)),
       (.wOldWriteRed .framebuffer, planeFrame 0x13#8 (planeBytes s.straps.geometry)
         (fun j => if s.straps.oldTail.redInvert then ~~~(s.fb.read .red j) else s.fb.read .red j)),
       (.wOldWriteRed .white, planeFrame 0x13#8 (planeBytes s.straps.geometry)
         (fun _ => if s.straps.oldTail.redInvert then 0xFF#8 else 0x00#8))] →
    s.CleanFor s.dialect (frameEvents s.straps s.dialect items) →
      ∃ t, exec i s = .next t ∧ Completed s t s.dialect (frameEvents s.straps s.dialect items)

/-- The deep-sleep frame run on its own: mode `0x03` and 2000 ms as SLEEP sends it, mode `0x01` and a busy-wait as the
shutdown sends it (R183; log entry 6). -/
def Obligations.WireDeepSleepFrames : Prop :=
  ∀ s : State, s.mode = .operational →
    (s.CleanFor s.dialect (frameEvents s.straps s.dialect [C 0x10#8, D 0x03#8] ++ [.delay 2000]) →
      ∃ t, exec (.wDeepSleep .ordinary) s = .next t ∧
        Completed s t s.dialect (frameEvents s.straps s.dialect [C 0x10#8, D 0x03#8] ++ [.delay 2000])) ∧
    (s.CleanFor s.dialect (frameEvents s.straps s.dialect [C 0x10#8, D 0x01#8, Bw]) →
      ∃ t, exec (.wDeepSleep .persistent) s = .next t ∧
        Completed s t s.dialect (frameEvents s.straps s.dialect [C 0x10#8, D 0x01#8, Bw]))

/-- The detection frame run on its own: `C 2F`, 50 ms, the read frame, an `Err` of the read tolerated (R185, R141). That it
can be run on its own is the model's choice (log entry 6); the dialect flag is written by the probe of an INIT and by nothing
else, so it stays as it is under every strap (R163). -/
def Obligations.WireDetectReads : Prop :=
  ∀ (s : State) (evs : List Event), s.mode = .operational →
    evs = frameEvents s.straps s.dialect [C 0x2F#8] ++ ([.delay 50] ++
      probeReadEvents s.straps (s.env.readAt 0)) →
    s.CleanFor s.dialect evs →
      ∃ t, exec .wDetect s = .next t ∧ Completed s t s.dialect evs

/-! ### Whole-machine rules -/

/-- The access matrix of R35 as a frame, for every instruction in every state: what it may not write is unchanged, and
straps, mode, waiting requests and `OldSeqOk` never change. A wire frame run on its own has the row of the operations that
send it, without the flag (log entry 6). -/
def Obligations.AccessMatrixHolds : Prop :=
  ∀ (i : Instr) (s t : State), exec i s = .next t →
    ((access i).fb = false → t.fb = s.fb) ∧
    ((access i).dialect = false ∨ s.straps.dialectCfg ≠ .probe → t.dialect = s.dialect) ∧
    ((access i).rst = false → t.lines.rst = s.lines.rst) ∧
    ((access i).dcCs = false → t.lines.dc = s.lines.dc ∧ t.lines.cs = s.lines.cs) ∧
    (s.straps.csMode = .hardCS → t.lines.cs = s.lines.cs) ∧
    ((access i).events = false → t.trace = s.trace ∧ t.env = s.env ∧ t.ghost = s.ghost ∧ t.seq = s.seq) ∧
    t.straps = s.straps ∧ t.mode = s.mode ∧ t.requests = s.requests ∧ t.ghost.oldSeqOk = s.ghost.oldSeqOk

/-- Every instruction that emits events either does its whole sequence, in order, and completes OK (busy polls, time-outs and
a failed probe read included), or it stops at the first micro-operation of that sequence that fails: this is its last event,
the completion names it, nothing is repeated and nothing after it runs (R62, R127, R202, R210). Either way every event carries
the environment's answer, the trace only grows, the sequencer is idle, and framebuffer, mode, straps and waiting requests are
as they were. An abort sets the fault mark and leaves the phase `Undefined` (R211, R246; log entry 18 for what sets the mark,
log entry 10 for the image, log entry 6 for wire frames run on their own, log entry 20 for INIT's sequence under a configured
Old column, log entry 21 for loss of power, which is no step). -/
def Obligations.AbortIsPrecise : Prop :=
  ∀ (i : Instr) (s t : State), s.mode = .operational → (access i).events = true → exec i s = .next t →
    ∃ evs, t.history = s.history ++ evs ∧ Answered s.env evs ∧ t.env = s.env.after evs ∧
      t.lines = s.lines.after evs ∧ t.seq.sp = .idle ∧ t.fb = s.fb ∧ t.mode = s.mode ∧ t.straps = s.straps ∧
      t.requests = s.requests ∧
      ((Done s.straps t.dialect (sequenceOf i s t.dialect) evs ∧ t.dialect = s.dialectAfter i ∧
          (∀ e ∈ evs, e.failure = none) ∧ t.completions = 0x0000#16 :: s.completions ∧
          t.ghost.faultMark = s.ghost.faultMark) ∨
        ∃ k, Cut k s.straps t.dialect (sequenceOf i s t.dialect) evs ∧
          (t.dialect = s.dialect ∨ t.dialect = s.dialectAfter i) ∧
          (∃ init last, evs = init ++ [last] ∧ (∀ e ∈ init, e.failure = none) ∧ last.failure = some k) ∧
          t.completions = ((0x01#8 ++ k.code : BitVec 16)) :: s.completions ∧
          t.ghost.faultMark = true ∧ t.ghost.phase = .undefined ∧ t.ghost.image = .unknown)

/-- One instruction, one completion; and a step that takes a request takes exactly one and answers it once (R16). That a
wire frame run on its own returns a completion is the model's choice (log entry 6), and loss of power is no step (log entry
21). -/
def Obligations.OneCompletionEach : Prop :=
  (∀ (i : Instr) (s t : State), exec i s = .next t →
    t.requests = s.requests ∧ ∃ w, t.completions = w :: s.completions) ∧
  (∀ (s t : State) (w : RequestWord) (rest : List RequestWord), s.seq.sp = .idle → s.requests = w :: rest →
    step s = .next t → t.requests = rest ∧ ∃ c, t.completions = c :: s.completions)

/-- The number of events of an operation is bounded whatever the environment answers, with default pacing (R137): READ_BUSY
1001, a sent byte 4, RESET 6, and so every operation by its bytes and its busy-waits, whatever the Old column's configured
sequences are, with 11 events for what is neither (the reset pulse, the probe's delay and read frame, SLEEP's delay); in
numbers, the Old column's sequences New's. The bounds of frames run on their own rest on log entry 6, INIT's sequence under a
configured Old column on log entry 20. -/
def Obligations.EventCountsAreBounded : Prop :=
  ∀ (i : Instr) (s t : State), s.straps.tInterbyte = 0 → exec i s = .next t →
    (t.trace.length ≤ s.trace.length + (4 * (bytesOf (sequenceOf i s t.dialect)).length +
      1001 * pollsOf (sequenceOf i s t.dialect) + 11)) ∧
    (i = .readBusy → t.trace.length ≤ s.trace.length + 1001) ∧
    (∀ b, i = .sendCommand b ∨ i = .sendData b → t.trace.length ≤ s.trace.length + 4) ∧
    (i = .reset → t.trace.length ≤ s.trace.length + 6) ∧
    (∀ src, i = .wWriteBlack src ∨ i = .wWriteRed src ∨ i = .wOldWriteBlack src ∨ i = .wOldWriteRed src →
      t.trace.length ≤ s.trace.length + 4 * (planeBytes s.straps.geometry + 1)) ∧
    (i = .turnOnDisplay → t.trace.length ≤ s.trace.length + 1013) ∧
    (OldAsNew s.straps →
      (i = .init → t.trace.length ≤ s.trace.length + 3102) ∧
      (i = .init → t.dialect = .new → t.trace.length ≤ s.trace.length + 2097) ∧
      (i = .display → t.trace.length ≤ s.trace.length + (4 * (2 * planeBytes s.straps.geometry + 10) + 1001)) ∧
      (i = .panelClear → t.trace.length ≤ s.trace.length + (4 * (2 * planeBytes s.straps.geometry + 10) + 2002)) ∧
      (i = .sleep → t.trace.length ≤ s.trace.length + 9) ∧
      (i = .powerOffAndDeepSleep → t.trace.length ≤ s.trace.length + 2014))

/-- The worst-case sum of an operation's delays, whatever the environment answers, with default pacing (R251). -/
def Obligations.WaitingIsBounded : Prop :=
  ∀ (i : Instr) (s t : State), s.straps.tInterbyte = 0 → OldAsNew s.straps → exec i s = .next t →
    ∃ evs, t.history = s.history ++ evs ∧
      (i = .readBusy → waited evs ≤ 5000) ∧
      (i = .reset → waited evs ≤ 405) ∧
      (i = .turnOnDisplay → waited evs ≤ 5000) ∧
      (i = .init → waited evs ≤ 15455) ∧
      (i = .init → t.dialect = .new → waited evs ≤ 10455) ∧
      (i = .init → s.straps.dialectCfg ≠ .probe → s.dialect = .new → waited evs ≤ 10405) ∧
      (i = .display → waited evs ≤ 5000) ∧
      (i = .panelClear → waited evs ≤ 10000) ∧
      (i = .sleep → waited evs ≤ 2000) ∧
      (i = .powerOffAndDeepSleep → waited evs ≤ 10000)

/-- How many time-outs an operation can log (R202): INIT 2 when it ends with the dialect New, whatever the strap, else 3. -/
def Obligations.TimeoutsAreCounted : Prop :=
  ∀ (i : Instr) (s t : State), OldAsNew s.straps → exec i s = .next t →
    (i = .readBusy ∨ i = .turnOnDisplay ∨ i = .display → timeouts t.trace ≤ timeouts s.trace + 1) ∧
    (i = .panelClear ∨ i = .powerOffAndDeepSleep → timeouts t.trace ≤ timeouts s.trace + 2) ∧
    (i = .init → timeouts t.trace ≤ timeouts s.trace + 3) ∧
    (i = .init → t.dialect = .new → timeouts t.trace ≤ timeouts s.trace + 2) ∧
    (∀ b, i = .reset ∨ i = .sleep ∨ i = .sendCommand b ∨ i = .sendData b →
      timeouts t.trace = timeouts s.trace)

/-- The ghost phase follows the table of R246: the row's phase after an OK completion without a logged time-out,
`Undefined` after an abort or a time-out. A DISPLAY from `Ready` shows the framebuffer, a PANEL_CLEAR from `Ready` all white, the
persistence shutdown keeps the image, and an INIT or a PANEL_CLEAR after it erases the retained image. What the table does
not say of the image is the model's choice: INIT from another phase, SLEEP, a time-out and an abort leave it unknown (log
entry 10). A frame run on its own counts as raw traffic (log entry 6). -/
def Obligations.GhostFollowsTable : Prop :=
  ∀ (i : Instr) (s t : State), s.mode = .operational → (access i).events = true → exec i s = .next t →
    (t.completions = 0x0000#16 :: s.completions → timeouts t.trace = timeouts s.trace →
      t.ghost.phase = phaseAfter i (decide (t.dialect = .new) || s.ghost.oldSeqOk) s.ghost.phase ∧
      (i = .init → t.ghost.phase = .ready →
        t.ghost.image = if s.ghost.phase = .asleepPersistent then .erased else .unknown) ∧
      (i = .display → t.ghost.phase = .ready → t.ghost.image = .shows s.fb) ∧
      (i = .panelClear → t.ghost.phase = .ready → t.ghost.image = .shows Framebuffer.fresh) ∧
      (i = .panelClear → s.ghost.phase = .asleepPersistent → t.ghost.image = .erased) ∧
      (i = .powerOffAndDeepSleep → t.ghost.phase = .asleepPersistent → t.ghost.image = s.ghost.image) ∧
      (i = .sleep → t.ghost.image = .unknown)) ∧
    (¬(t.completions = 0x0000#16 :: s.completions ∧ timeouts t.trace = timeouts s.trace) →
      t.ghost.phase = .undefined ∧ t.ghost.image = .unknown) ∧
    (s.ghost.faultMark = true → t.ghost.faultMark = true)

/-- Only INIT leaves `Undefined`, and only by ending OK, in `Ready` (R246). -/
def Obligations.OnlyInitLeavesUndefined : Prop :=
  ∀ (i : Instr) (s t : State), exec i s = .next t → s.ghost.phase = .undefined → t.ghost.phase ≠ .undefined →
    i = .init ∧ t.ghost.phase = .ready ∧ t.completions = 0x0000#16 :: s.completions ∧
      timeouts t.trace = timeouts s.trace

/-- The model claims an image on the panel only while the panel is `Ready` or in the persistence shutdown: every step keeps
this (R246; that INIT and SLEEP leave the image unknown is the model's choice, log entry 10). -/
def Obligations.StepKeepsPanelImage : Prop :=
  ∀ s t : State,
    (∀ fb, s.ghost.image = .shows fb → s.ghost.phase = .ready ∨ s.ghost.phase = .asleepPersistent) →
    step s = .next t →
      ∀ fb, t.ghost.image = .shows fb → t.ghost.phase = .ready ∨ t.ghost.phase = .asleepPersistent

/-- With the default `probe_decode`, which recognises no byte, no step leaves New, whatever the probe reads (R141, R166). -/
def Obligations.DefaultProbeKeepsNew : Prop :=
  ∀ s t : State, s.straps.probeOld = [] → s.dialect = .new → step s = .next t → t.dialect = .new

/-- The dialect flag is written by the probe of an INIT and by nothing else: a step that changes it took an INIT request of a
core under the Probe strap, and leaves the verdict on the byte read (R163, R164, R23). -/
def Obligations.OnlyInitWritesDialect : Prop :=
  ∀ s t : State, step s = .next t → t.dialect ≠ s.dialect →
    s.straps.dialectCfg = .probe ∧ s.seq.sp = .idle ∧ (∃ w rest, s.requests = w :: rest ∧ reqOp w = 0xD5#8) ∧
      t.dialect = (match s.env.readAt 0 with
        | none => .new
        | some b => if b ∈ s.straps.probeOld then .old else .new)

/-- The ghost never influences the core: with any other ghost, a step does the same to everything else (R245). -/
def Obligations.GhostNeverInfluences : Prop :=
  ∀ (s t : State) (g : Ghost), step s = .next t → ∃ g', step (s.setGhost g) = .next (t.setGhost g')

/-- The transient registers are dead between operations: with any other values in them, an instruction does the same to
everything else (R27). -/
def Obligations.DeadRegistersNeverRead : Prop :=
  ∀ (i : Instr) (s t : State) (a p : Nat), exec i s = .next t →
    ∃ a' p', exec i ((s.setFbAddr a).setPollCnt p) = .next ((t.setFbAddr a').setPollCnt p')

/-- Only DISPLAY, and the plane-write frames with the core's own planes, read the framebuffer: with any other planes in it,
every other driver operation and wire command does the same to everything else; PANEL_CLEAR streams constants (R35). -/
def Obligations.OnlyDisplayReadsPlanes : Prop :=
  ∀ (i : Instr) (s t : State) (fb : Framebuffer), (access i).events = true →
    i ∉ [.display, .wWriteBlack .framebuffer, .wWriteRed .framebuffer, .wOldWriteBlack .framebuffer,
      .wOldWriteRed .framebuffer] →
    exec i s = .next t → exec i (s.setFb fb) = .next (t.setFb fb)

/-- Between steps the sequencer is idle (R28, R34). -/
def Obligations.SequencerIdleAfterStep : Prop :=
  ∀ s t : State, step s = .next t → t.seq.sp = .idle

/-- What an operation puts on the wire: all bytes of its sequence when it completes OK, else the first of them, command bytes
with DC low and data bytes with DC high, whatever the events before it; and the chip-select mode and the pacing change
nothing of it (R15, R91, R210; log entry 6 for frames run on their own, log entry 20 for INIT's sequence under a configured
Old column). -/
def Obligations.WireProjectionIgnoresSelect : Prop :=
  ∀ (i : Instr) (s t : State), s.mode = .operational → (access i).events = true → exec i s = .next t →
    (t.completions = 0x0000#16 :: s.completions → t.wire = s.wire ++ bytesOf (sequenceOf i s t.dialect)) ∧
    (∃ n, t.wire = s.wire ++ (bytesOf (sequenceOf i s t.dialect)).take n) ∧
    (∀ (cs : CsMode) (pacing : Nat) (t' : State),
      exec i { s with straps := { s.straps with csMode := cs, tInterbyte := pacing } } = .next t' →
      t.completions = 0x0000#16 :: s.completions → t'.completions = 0x0000#16 :: s.completions → t'.wire = t.wire)
end

