-- ==== Sys2Proof/Laws/State.lean ====
section
/-! SUPPORT. One lemma for each field of State after each named update (Machine/Ops.lean), true by rfl. -/

namespace Sys2Proof.Machine

/-! ### emit -/
@[simp] theorem State.emit_straps (s : State) (e : Event) : (s.emit e).straps = s.straps := rfl
@[simp] theorem State.emit_mode (s : State) (e : Event) : (s.emit e).mode = s.mode := rfl
@[simp] theorem State.emit_fb (s : State) (e : Event) : (s.emit e).fb = s.fb := rfl
@[simp] theorem State.emit_dialect (s : State) (e : Event) : (s.emit e).dialect = s.dialect := rfl
@[simp] theorem State.emit_lines (s : State) (e : Event) : (s.emit e).lines = s.lines := rfl
@[simp] theorem State.emit_seq (s : State) (e : Event) : (s.emit e).seq = s.seq := rfl
@[simp] theorem State.emit_trace (s : State) (e : Event) : (s.emit e).trace = e :: s.trace := rfl
@[simp] theorem State.emit_requests (s : State) (e : Event) : (s.emit e).requests = s.requests := rfl
@[simp] theorem State.emit_completions (s : State) (e : Event) : (s.emit e).completions = s.completions := rfl
@[simp] theorem State.emit_env (s : State) (e : Event) : (s.emit e).env = s.env := rfl
@[simp] theorem State.emit_ghost (s : State) (e : Event) : (s.emit e).ghost = s.ghost := rfl

/-! ### setLatch -/
@[simp] theorem State.setLatch_straps (s : State) (l : Line) (v : Latch) : (s.setLatch l v).straps = s.straps := rfl
@[simp] theorem State.setLatch_mode (s : State) (l : Line) (v : Latch) : (s.setLatch l v).mode = s.mode := rfl
@[simp] theorem State.setLatch_fb (s : State) (l : Line) (v : Latch) : (s.setLatch l v).fb = s.fb := rfl
@[simp] theorem State.setLatch_dialect (s : State) (l : Line) (v : Latch) : (s.setLatch l v).dialect = s.dialect := rfl
@[simp] theorem State.setLatch_lines (s : State) (l : Line) (v : Latch) : (s.setLatch l v).lines = s.lines.set l v := rfl
@[simp] theorem State.setLatch_seq (s : State) (l : Line) (v : Latch) : (s.setLatch l v).seq = s.seq := rfl
@[simp] theorem State.setLatch_trace (s : State) (l : Line) (v : Latch) : (s.setLatch l v).trace = s.trace := rfl
@[simp] theorem State.setLatch_requests (s : State) (l : Line) (v : Latch) : (s.setLatch l v).requests = s.requests := rfl
@[simp] theorem State.setLatch_completions (s : State) (l : Line) (v : Latch) : (s.setLatch l v).completions = s.completions := rfl
@[simp] theorem State.setLatch_env (s : State) (l : Line) (v : Latch) : (s.setLatch l v).env = s.env := rfl
@[simp] theorem State.setLatch_ghost (s : State) (l : Line) (v : Latch) : (s.setLatch l v).ghost = s.ghost := rfl

/-! ### setFb -/
@[simp] theorem State.setFb_straps (s : State) (fb : Framebuffer) : (s.setFb fb).straps = s.straps := rfl
@[simp] theorem State.setFb_mode (s : State) (fb : Framebuffer) : (s.setFb fb).mode = s.mode := rfl
@[simp] theorem State.setFb_fb (s : State) (fb : Framebuffer) : (s.setFb fb).fb = fb := rfl
@[simp] theorem State.setFb_dialect (s : State) (fb : Framebuffer) : (s.setFb fb).dialect = s.dialect := rfl
@[simp] theorem State.setFb_lines (s : State) (fb : Framebuffer) : (s.setFb fb).lines = s.lines := rfl
@[simp] theorem State.setFb_seq (s : State) (fb : Framebuffer) : (s.setFb fb).seq = s.seq := rfl
@[simp] theorem State.setFb_trace (s : State) (fb : Framebuffer) : (s.setFb fb).trace = s.trace := rfl
@[simp] theorem State.setFb_requests (s : State) (fb : Framebuffer) : (s.setFb fb).requests = s.requests := rfl
@[simp] theorem State.setFb_completions (s : State) (fb : Framebuffer) : (s.setFb fb).completions = s.completions := rfl
@[simp] theorem State.setFb_env (s : State) (fb : Framebuffer) : (s.setFb fb).env = s.env := rfl
@[simp] theorem State.setFb_ghost (s : State) (fb : Framebuffer) : (s.setFb fb).ghost = s.ghost := rfl

/-! ### setDialect -/
@[simp] theorem State.setDialect_straps (s : State) (d : Dialect) : (s.setDialect d).straps = s.straps := rfl
@[simp] theorem State.setDialect_mode (s : State) (d : Dialect) : (s.setDialect d).mode = s.mode := rfl
@[simp] theorem State.setDialect_fb (s : State) (d : Dialect) : (s.setDialect d).fb = s.fb := rfl
@[simp] theorem State.setDialect_dialect (s : State) (d : Dialect) : (s.setDialect d).dialect = d := rfl
@[simp] theorem State.setDialect_lines (s : State) (d : Dialect) : (s.setDialect d).lines = s.lines := rfl
@[simp] theorem State.setDialect_seq (s : State) (d : Dialect) : (s.setDialect d).seq = s.seq := rfl
@[simp] theorem State.setDialect_trace (s : State) (d : Dialect) : (s.setDialect d).trace = s.trace := rfl
@[simp] theorem State.setDialect_requests (s : State) (d : Dialect) : (s.setDialect d).requests = s.requests := rfl
@[simp] theorem State.setDialect_completions (s : State) (d : Dialect) : (s.setDialect d).completions = s.completions := rfl
@[simp] theorem State.setDialect_env (s : State) (d : Dialect) : (s.setDialect d).env = s.env := rfl
@[simp] theorem State.setDialect_ghost (s : State) (d : Dialect) : (s.setDialect d).ghost = s.ghost := rfl

/-! ### setFbAddr -/
@[simp] theorem State.setFbAddr_straps (s : State) (n : Nat) : (s.setFbAddr n).straps = s.straps := rfl
@[simp] theorem State.setFbAddr_mode (s : State) (n : Nat) : (s.setFbAddr n).mode = s.mode := rfl
@[simp] theorem State.setFbAddr_fb (s : State) (n : Nat) : (s.setFbAddr n).fb = s.fb := rfl
@[simp] theorem State.setFbAddr_dialect (s : State) (n : Nat) : (s.setFbAddr n).dialect = s.dialect := rfl
@[simp] theorem State.setFbAddr_lines (s : State) (n : Nat) : (s.setFbAddr n).lines = s.lines := rfl
@[simp] theorem State.setFbAddr_seq (s : State) (n : Nat) : (s.setFbAddr n).seq = ⟨s.seq.sp, n, s.seq.pollCnt⟩ := rfl
@[simp] theorem State.setFbAddr_trace (s : State) (n : Nat) : (s.setFbAddr n).trace = s.trace := rfl
@[simp] theorem State.setFbAddr_requests (s : State) (n : Nat) : (s.setFbAddr n).requests = s.requests := rfl
@[simp] theorem State.setFbAddr_completions (s : State) (n : Nat) : (s.setFbAddr n).completions = s.completions := rfl
@[simp] theorem State.setFbAddr_env (s : State) (n : Nat) : (s.setFbAddr n).env = s.env := rfl
@[simp] theorem State.setFbAddr_ghost (s : State) (n : Nat) : (s.setFbAddr n).ghost = s.ghost := rfl

/-! ### setPollCnt -/
@[simp] theorem State.setPollCnt_straps (s : State) (n : Nat) : (s.setPollCnt n).straps = s.straps := rfl
@[simp] theorem State.setPollCnt_mode (s : State) (n : Nat) : (s.setPollCnt n).mode = s.mode := rfl
@[simp] theorem State.setPollCnt_fb (s : State) (n : Nat) : (s.setPollCnt n).fb = s.fb := rfl
@[simp] theorem State.setPollCnt_dialect (s : State) (n : Nat) : (s.setPollCnt n).dialect = s.dialect := rfl
@[simp] theorem State.setPollCnt_lines (s : State) (n : Nat) : (s.setPollCnt n).lines = s.lines := rfl
@[simp] theorem State.setPollCnt_seq (s : State) (n : Nat) : (s.setPollCnt n).seq = ⟨s.seq.sp, s.seq.fbAddr, n⟩ := rfl
@[simp] theorem State.setPollCnt_trace (s : State) (n : Nat) : (s.setPollCnt n).trace = s.trace := rfl
@[simp] theorem State.setPollCnt_requests (s : State) (n : Nat) : (s.setPollCnt n).requests = s.requests := rfl
@[simp] theorem State.setPollCnt_completions (s : State) (n : Nat) : (s.setPollCnt n).completions = s.completions := rfl
@[simp] theorem State.setPollCnt_env (s : State) (n : Nat) : (s.setPollCnt n).env = s.env := rfl
@[simp] theorem State.setPollCnt_ghost (s : State) (n : Nat) : (s.setPollCnt n).ghost = s.ghost := rfl

/-! ### retire -/
@[simp] theorem State.retire_straps (s : State) : (s.retire).straps = s.straps := rfl
@[simp] theorem State.retire_mode (s : State) : (s.retire).mode = s.mode := rfl
@[simp] theorem State.retire_fb (s : State) : (s.retire).fb = s.fb := rfl
@[simp] theorem State.retire_dialect (s : State) : (s.retire).dialect = s.dialect := rfl
@[simp] theorem State.retire_lines (s : State) : (s.retire).lines = s.lines := rfl
@[simp] theorem State.retire_seq (s : State) : (s.retire).seq = ⟨.idle, Config.deadFbAddr s.completions.length, Config.deadPollCnt s.completions.length⟩ := rfl
@[simp] theorem State.retire_trace (s : State) : (s.retire).trace = s.trace := rfl
@[simp] theorem State.retire_requests (s : State) : (s.retire).requests = s.requests := rfl
@[simp] theorem State.retire_completions (s : State) : (s.retire).completions = s.completions := rfl
@[simp] theorem State.retire_env (s : State) : (s.retire).env = s.env := rfl
@[simp] theorem State.retire_ghost (s : State) : (s.retire).ghost = s.ghost := rfl

/-! ### respond -/
@[simp] theorem State.respond_straps (s : State) (st v : Byte) : (s.respond st v).straps = s.straps := rfl
@[simp] theorem State.respond_mode (s : State) (st v : Byte) : (s.respond st v).mode = s.mode := rfl
@[simp] theorem State.respond_fb (s : State) (st v : Byte) : (s.respond st v).fb = s.fb := rfl
@[simp] theorem State.respond_dialect (s : State) (st v : Byte) : (s.respond st v).dialect = s.dialect := rfl
@[simp] theorem State.respond_lines (s : State) (st v : Byte) : (s.respond st v).lines = s.lines := rfl
@[simp] theorem State.respond_seq (s : State) (st v : Byte) : (s.respond st v).seq = s.seq := rfl
@[simp] theorem State.respond_trace (s : State) (st v : Byte) : (s.respond st v).trace = s.trace := rfl
@[simp] theorem State.respond_requests (s : State) (st v : Byte) : (s.respond st v).requests = s.requests := rfl
@[simp] theorem State.respond_completions (s : State) (st v : Byte) : (s.respond st v).completions = completionWord st v :: s.completions := rfl
@[simp] theorem State.respond_env (s : State) (st v : Byte) : (s.respond st v).env = s.env := rfl
@[simp] theorem State.respond_ghost (s : State) (st v : Byte) : (s.respond st v).ghost = s.ghost := rfl

/-! ### setGhost -/
@[simp] theorem State.setGhost_straps (s : State) (g : Ghost) : (s.setGhost g).straps = s.straps := rfl
@[simp] theorem State.setGhost_mode (s : State) (g : Ghost) : (s.setGhost g).mode = s.mode := rfl
@[simp] theorem State.setGhost_fb (s : State) (g : Ghost) : (s.setGhost g).fb = s.fb := rfl
@[simp] theorem State.setGhost_dialect (s : State) (g : Ghost) : (s.setGhost g).dialect = s.dialect := rfl
@[simp] theorem State.setGhost_lines (s : State) (g : Ghost) : (s.setGhost g).lines = s.lines := rfl
@[simp] theorem State.setGhost_seq (s : State) (g : Ghost) : (s.setGhost g).seq = s.seq := rfl
@[simp] theorem State.setGhost_trace (s : State) (g : Ghost) : (s.setGhost g).trace = s.trace := rfl
@[simp] theorem State.setGhost_requests (s : State) (g : Ghost) : (s.setGhost g).requests = s.requests := rfl
@[simp] theorem State.setGhost_completions (s : State) (g : Ghost) : (s.setGhost g).completions = s.completions := rfl
@[simp] theorem State.setGhost_env (s : State) (g : Ghost) : (s.setGhost g).env = s.env := rfl
@[simp] theorem State.setGhost_ghost (s : State) (g : Ghost) : (s.setGhost g).ghost = g := rfl

/-! ### dropRequest -/
@[simp] theorem State.dropRequest_straps (s : State) : (s.dropRequest).straps = s.straps := rfl
@[simp] theorem State.dropRequest_mode (s : State) : (s.dropRequest).mode = s.mode := rfl
@[simp] theorem State.dropRequest_fb (s : State) : (s.dropRequest).fb = s.fb := rfl
@[simp] theorem State.dropRequest_dialect (s : State) : (s.dropRequest).dialect = s.dialect := rfl
@[simp] theorem State.dropRequest_lines (s : State) : (s.dropRequest).lines = s.lines := rfl
@[simp] theorem State.dropRequest_seq (s : State) : (s.dropRequest).seq = s.seq := rfl
@[simp] theorem State.dropRequest_trace (s : State) : (s.dropRequest).trace = s.trace := rfl
@[simp] theorem State.dropRequest_requests (s : State) : (s.dropRequest).requests = s.requests.tail := rfl
@[simp] theorem State.dropRequest_completions (s : State) : (s.dropRequest).completions = s.completions := rfl
@[simp] theorem State.dropRequest_env (s : State) : (s.dropRequest).env = s.env := rfl
@[simp] theorem State.dropRequest_ghost (s : State) : (s.dropRequest).ghost = s.ghost := rfl

/-! ### leaveFrame -/
@[simp] theorem State.leaveFrame_straps (s : State) : (s.leaveFrame).straps = s.straps := rfl
@[simp] theorem State.leaveFrame_mode (s : State) : (s.leaveFrame).mode = s.mode := rfl
@[simp] theorem State.leaveFrame_fb (s : State) : (s.leaveFrame).fb = s.fb := rfl
@[simp] theorem State.leaveFrame_dialect (s : State) : (s.leaveFrame).dialect = s.dialect := rfl
@[simp] theorem State.leaveFrame_lines (s : State) : (s.leaveFrame).lines = s.lines := rfl
@[simp] theorem State.leaveFrame_seq (s : State) : (s.leaveFrame).seq = ⟨.idle, s.seq.fbAddr, s.seq.pollCnt⟩ := rfl
@[simp] theorem State.leaveFrame_trace (s : State) : (s.leaveFrame).trace = s.trace := rfl
@[simp] theorem State.leaveFrame_requests (s : State) : (s.leaveFrame).requests = s.requests := rfl
@[simp] theorem State.leaveFrame_completions (s : State) : (s.leaveFrame).completions = s.completions := rfl
@[simp] theorem State.leaveFrame_env (s : State) : (s.leaveFrame).env = s.env := rfl
@[simp] theorem State.leaveFrame_ghost (s : State) : (s.leaveFrame).ghost = s.ghost := rfl

/-! ### standAt -/
@[simp] theorem State.standAt_straps (s : State) (w : FrameWord) : (s.standAt w).straps = s.straps := rfl
@[simp] theorem State.standAt_mode (s : State) (w : FrameWord) : (s.standAt w).mode = s.mode := rfl
@[simp] theorem State.standAt_fb (s : State) (w : FrameWord) : (s.standAt w).fb = s.fb := rfl
@[simp] theorem State.standAt_dialect (s : State) (w : FrameWord) : (s.standAt w).dialect = s.dialect := rfl
@[simp] theorem State.standAt_lines (s : State) (w : FrameWord) : (s.standAt w).lines = s.lines := rfl
@[simp] theorem State.standAt_seq (s : State) (w : FrameWord) : (s.standAt w).seq = ⟨.frame w, s.seq.fbAddr, s.seq.pollCnt⟩ := rfl
@[simp] theorem State.standAt_trace (s : State) (w : FrameWord) : (s.standAt w).trace = s.trace := rfl
@[simp] theorem State.standAt_requests (s : State) (w : FrameWord) : (s.standAt w).requests = s.requests := rfl
@[simp] theorem State.standAt_completions (s : State) (w : FrameWord) : (s.standAt w).completions = s.completions := rfl
@[simp] theorem State.standAt_env (s : State) (w : FrameWord) : (s.standAt w).env = s.env := rfl
@[simp] theorem State.standAt_ghost (s : State) (w : FrameWord) : (s.standAt w).ghost = s.ghost := rfl

/-! ### present -/
@[simp] theorem State.present_straps (s : State) (w : RequestWord) : (s.present w).straps = s.straps := rfl
@[simp] theorem State.present_mode (s : State) (w : RequestWord) : (s.present w).mode = s.mode := rfl
@[simp] theorem State.present_fb (s : State) (w : RequestWord) : (s.present w).fb = s.fb := rfl
@[simp] theorem State.present_dialect (s : State) (w : RequestWord) : (s.present w).dialect = s.dialect := rfl
@[simp] theorem State.present_lines (s : State) (w : RequestWord) : (s.present w).lines = s.lines := rfl
@[simp] theorem State.present_seq (s : State) (w : RequestWord) : (s.present w).seq = ⟨.idle, s.seq.fbAddr, s.seq.pollCnt⟩ := rfl
@[simp] theorem State.present_trace (s : State) (w : RequestWord) : (s.present w).trace = s.trace := rfl
@[simp] theorem State.present_requests (s : State) (w : RequestWord) : (s.present w).requests = w :: s.requests := rfl
@[simp] theorem State.present_completions (s : State) (w : RequestWord) : (s.present w).completions = s.completions := rfl
@[simp] theorem State.present_env (s : State) (w : RequestWord) : (s.present w).env = s.env := rfl
@[simp] theorem State.present_ghost (s : State) (w : RequestWord) : (s.present w).ghost = s.ghost := rfl

/-! ### drawAck -/
@[simp] theorem State.drawAck_straps (s : State) : (s.drawAck).straps = s.straps := rfl
@[simp] theorem State.drawAck_mode (s : State) : (s.drawAck).mode = s.mode := rfl
@[simp] theorem State.drawAck_fb (s : State) : (s.drawAck).fb = s.fb := rfl
@[simp] theorem State.drawAck_dialect (s : State) : (s.drawAck).dialect = s.dialect := rfl
@[simp] theorem State.drawAck_lines (s : State) : (s.drawAck).lines = s.lines := rfl
@[simp] theorem State.drawAck_seq (s : State) : (s.drawAck).seq = s.seq := rfl
@[simp] theorem State.drawAck_trace (s : State) : (s.drawAck).trace = s.trace := rfl
@[simp] theorem State.drawAck_requests (s : State) : (s.drawAck).requests = s.requests := rfl
@[simp] theorem State.drawAck_completions (s : State) : (s.drawAck).completions = s.completions := rfl
@[simp] theorem State.drawAck_env (s : State) : (s.drawAck).env = ⟨s.env.acks.tail, s.env.ackDraws + 1, s.env.reads, s.env.readDraws, s.env.samples, s.env.sampleDraws⟩ := rfl
@[simp] theorem State.drawAck_ghost (s : State) : (s.drawAck).ghost = s.ghost := rfl

/-! ### drawRead -/
@[simp] theorem State.drawRead_straps (s : State) : (s.drawRead).straps = s.straps := rfl
@[simp] theorem State.drawRead_mode (s : State) : (s.drawRead).mode = s.mode := rfl
@[simp] theorem State.drawRead_fb (s : State) : (s.drawRead).fb = s.fb := rfl
@[simp] theorem State.drawRead_dialect (s : State) : (s.drawRead).dialect = s.dialect := rfl
@[simp] theorem State.drawRead_lines (s : State) : (s.drawRead).lines = s.lines := rfl
@[simp] theorem State.drawRead_seq (s : State) : (s.drawRead).seq = s.seq := rfl
@[simp] theorem State.drawRead_trace (s : State) : (s.drawRead).trace = s.trace := rfl
@[simp] theorem State.drawRead_requests (s : State) : (s.drawRead).requests = s.requests := rfl
@[simp] theorem State.drawRead_completions (s : State) : (s.drawRead).completions = s.completions := rfl
@[simp] theorem State.drawRead_env (s : State) : (s.drawRead).env = ⟨s.env.acks, s.env.ackDraws, s.env.reads.tail, s.env.readDraws + 1, s.env.samples, s.env.sampleDraws⟩ := rfl
@[simp] theorem State.drawRead_ghost (s : State) : (s.drawRead).ghost = s.ghost := rfl

/-! ### drawSample -/
@[simp] theorem State.drawSample_straps (s : State) : (s.drawSample).straps = s.straps := rfl
@[simp] theorem State.drawSample_mode (s : State) : (s.drawSample).mode = s.mode := rfl
@[simp] theorem State.drawSample_fb (s : State) : (s.drawSample).fb = s.fb := rfl
@[simp] theorem State.drawSample_dialect (s : State) : (s.drawSample).dialect = s.dialect := rfl
@[simp] theorem State.drawSample_lines (s : State) : (s.drawSample).lines = s.lines := rfl
@[simp] theorem State.drawSample_seq (s : State) : (s.drawSample).seq = s.seq := rfl
@[simp] theorem State.drawSample_trace (s : State) : (s.drawSample).trace = s.trace := rfl
@[simp] theorem State.drawSample_requests (s : State) : (s.drawSample).requests = s.requests := rfl
@[simp] theorem State.drawSample_completions (s : State) : (s.drawSample).completions = s.completions := rfl
@[simp] theorem State.drawSample_env (s : State) : (s.drawSample).env = ⟨s.env.acks, s.env.ackDraws, s.env.reads, s.env.readDraws, s.env.samples.tail, s.env.sampleDraws + 1⟩ := rfl
@[simp] theorem State.drawSample_ghost (s : State) : (s.drawSample).ghost = s.ghost := rfl

end Sys2Proof.Machine
end

