-- ==== Sys2Proof/Laws/Memory.lean ====
section
/-! SUPPORT. The laws of plane memory: a read after a write, the frame of a write, what a fill reads as, and that every
memory operation keeps the canonical form. -/

namespace Sys2Proof.Machine

@[simp] theorem Memory.read_nil (p : Plane) (i : Nat) : Memory.read p [] i = unlisted p := rfl

theorem Memory.read_cons (p : Plane) (a : Nat) (v : Byte) (m : Memory) (i : Nat) :
    Memory.read p ((a, v) :: m) i = if a = i then v else Memory.read p m i := rfl

/-- An index below every listed address reads as unlisted. -/
theorem Memory.read_of_lt {p : Plane} {m : Memory} {i : Nat} (h : ∀ c ∈ m, i < c.1) :
    Memory.read p m i = unlisted p := by
  induction m with
  | nil => rfl
  | cons c m ih =>
    obtain ⟨a, v⟩ := c
    have ha : i < a := h (a, v) (by simp)
    rw [Memory.read_cons, if_neg (by omega), ih fun c hc => h c (by simp [hc])]

/-- Rising addresses: the part of the canonical form that reading needs. -/
abbrev Memory.Rising (m : Memory) : Prop := m.Pairwise fun a b => a.1 < b.1

theorem Memory.read_write {p : Plane} {m : Memory} (hm : Memory.Rising m) (i j : Nat) (v : Byte) :
    Memory.read p (Memory.write p m i v) j = if i = j then v else Memory.read p m j := by
  induction m with
  | nil => by_cases hv : v = unlisted p <;> by_cases hj : i = j <;> simp [Memory.write, hv, hj, Memory.read_cons]
  | cons c m ih =>
    obtain ⟨a, w⟩ := c
    obtain ⟨hc, hrest⟩ := List.pairwise_cons.mp hm
    have ih := ih hrest
    by_cases hai : a = i
    · subst hai
      by_cases hv : v = unlisted p
      · by_cases hj : a = j
        · subst hj
          simp [Memory.write, hv, Memory.read_of_lt hc]
        · simp [Memory.write, hv, Memory.read_cons, hj]
      · by_cases hj : a = j <;> simp [Memory.write, hv, Memory.read_cons, hj]
    · by_cases hia : i < a
      · have hlow : Memory.read p ((a, w) :: m) i = unlisted p := by
          apply Memory.read_of_lt
          intro c hcm
          rcases List.mem_cons.mp hcm with rfl | h
          · exact hia
          · have := hc c h; simp only at this; omega
        by_cases hv : v = unlisted p
        · by_cases hj : i = j
          · subst hj; simp [Memory.write, hai, hia, hv, hlow]
          · simp [Memory.write, hai, hia, hv, hj]
        · by_cases hj : i = j
          · subst hj; simp [Memory.write, hai, hia, hv, Memory.read_cons]
          · simp [Memory.write, hai, hia, hv, hj, Memory.read_cons]
      · by_cases hj : a = j
        · subst hj
          simp [Memory.write, hai, hia, Memory.read_cons, Ne.symm hai]
        · simp [Memory.write, hai, hia, Memory.read_cons, hj, ih]

/-- Every address a write lists was listed, or is the one written. -/
theorem Memory.mem_write {p : Plane} {m : Memory} {i : Nat} {v : Byte} {c : Host.Cell}
    (h : c ∈ Memory.write p m i v) : c ∈ m ∨ (c = (i, v) ∧ v ≠ unlisted p) := by
  induction m with
  | nil =>
    by_cases hv : v = unlisted p <;> simp [Memory.write, hv] at h
    exact .inr ⟨h, hv⟩
  | cons d m ih =>
    obtain ⟨a, w⟩ := d
    unfold Memory.write at h
    split_ifs at h <;> simp only [List.mem_cons] at h ⊢ <;> grind

theorem Memory.write_rising {p : Plane} {m : Memory} (hm : Memory.Rising m) (i : Nat) (v : Byte) :
    Memory.Rising (Memory.write p m i v) := by
  induction m with
  | nil => by_cases hv : v = unlisted p <;> simp [Memory.write, hv, Memory.Rising]
  | cons d m ih =>
    obtain ⟨a, w⟩ := d
    obtain ⟨hc, hrest⟩ := List.pairwise_cons.mp hm
    unfold Memory.write
    split_ifs with h1 hv hlt hv
    · exact hrest
    · subst h1; exact List.pairwise_cons.mpr ⟨hc, hrest⟩
    · exact hm
    · refine List.pairwise_cons.mpr ⟨fun c h => ?_, hm⟩
      rcases List.mem_cons.mp h with rfl | h
      · exact hlt
      · have := hc c h; simp only at this ⊢; omega
    · refine List.pairwise_cons.mpr ⟨fun c h => ?_, ih hrest⟩
      rcases Memory.mem_write h with h | ⟨rfl, -⟩
      · exact hc c h
      · simp only; omega

/-- A write below the plane's size keeps the canonical form. -/
theorem Memory.wf_write {p : Plane} {n : Nat} {m : Memory} (hm : Memory.wf p n m) {i : Nat} (hi : i < n) (v : Byte) :
    Memory.wf p n (Memory.write p m i v) := by
  refine ⟨Memory.write_rising hm.1 i v, fun c hc => ?_⟩
  rcases Memory.mem_write hc with h | ⟨rfl, hv⟩
  · exact hm.2 c h
  · exact ⟨hi, hv⟩

/-- A fill is in canonical form. -/
theorem Memory.wf_fill (p : Plane) (n : Nat) (v : Byte) : Memory.wf p n (Memory.fill p n v) := by
  by_cases hv : v = unlisted p
  · simp [Memory.fill, hv, Memory.wf]
  · refine ⟨?_, ?_⟩ <;> simp only [Memory.fill, if_neg hv]
    · exact List.pairwise_map.mpr List.pairwise_lt_range
    · simp [hv]

theorem Memory.wf_nil (p : Plane) (n : Nat) : Memory.wf p n [] := by simp [Memory.wf]

/-- What a mapped range reads as. -/
theorem Memory.read_map_range (p : Plane) (v : Byte) (k n i : Nat) :
    Memory.read p ((List.range' k n).map fun a => (a, v)) i = if k ≤ i ∧ i < k + n then v else unlisted p := by
  induction n generalizing k with
  | zero => simp
  | succ n ih =>
    simp only [List.range'_succ, List.map_cons, Memory.read_cons, ih]
    split_ifs <;> first | rfl | omega

/-- What a fill reads as. -/
theorem Memory.read_fill (p : Plane) (n : Nat) (v : Byte) (i : Nat) :
    Memory.read p (Memory.fill p n v) i = if i < n then v else unlisted p := by
  by_cases hv : v = unlisted p
  · simp [Memory.fill, hv]
  · have := Memory.read_map_range p v 0 n i
    simpa [Memory.fill, if_neg hv, List.range_eq_range'] using this

/-- Writing the byte that is there already leaves a canonical memory as it is. -/
theorem Memory.write_read_self {p : Plane} {m : Memory} (hm : Memory.Rising m) (hv : ∀ c ∈ m, c.2 ≠ unlisted p)
    (i : Nat) : Memory.write p m i (Memory.read p m i) = m := by
  induction m with
  | nil => simp [Memory.write]
  | cons d m ih =>
    obtain ⟨a, w⟩ := d
    obtain ⟨hc, hrest⟩ := List.pairwise_cons.mp hm
    have hw : w ≠ unlisted p := hv (a, w) (by simp)
    have ih := ih hrest fun c h => hv c (by simp [h])
    by_cases hai : a = i
    · subst hai; simp [Memory.write, Memory.read_cons, hw]
    · by_cases hia : i < a
      · have : Memory.read p m i = unlisted p := Memory.read_of_lt fun c h => by
          have := hc c h; simp only at this; omega
        simp [Memory.write, Memory.read_cons, hai, hia, this]
      · simp [Memory.write, Memory.read_cons, hai, hia, ih]

/-! ### The framebuffer -/

@[simp] theorem Framebuffer.read_fresh (p : Plane) (i : Nat) : Framebuffer.fresh.read p i = unlisted p := by
  cases p <;> rfl

/-- Both planes after FB_CLEAR's fill. -/
theorem Framebuffer.read_cleared (n : Nat) (colour : BitVec 2) (p : Plane) (i : Nat) :
    (Framebuffer.cleared n colour).read p i = if i < n then replicateBit (colourBit colour p) else unlisted p := by
  cases p <;> exact Memory.read_fill _ _ _ _

/-- Both planes after one byte of each is written. -/
theorem Framebuffer.read_writeBoth {fb : Framebuffer} (hb : Memory.Rising fb.black) (hr : Memory.Rising fb.red)
    (i j : Nat) (b r : Byte) (p : Plane) :
    (fb.writeBoth i b r).read p j = if i = j then (match p with | .black => b | .red => r) else fb.read p j := by
  cases p
  · exact Memory.read_write hb i j b
  · exact Memory.read_write hr i j r

end Sys2Proof.Machine
end

