-- ==== Sys2Proof/Laws/Run.lean ====
section
/-! SUPPORT. Everything a piece of an operation can do, said once: the relation `Follows` between the state a piece starts
in and the state it leaves, and the predicate `Run.Performs`: the result is a sequence of the spec (Safety.lean) done, or cut
at its first failing micro-operation. One lemma of that form for each shared operation of Machine/Ops.lean, Driver.lean and
Sequences.lean. -/

namespace Sys2Proof.Machine

/-! ### Events -/

@[simp] theorem Lines.after_nil (ls : Lines) : ls.after [] = ls := rfl

theorem Lines.after_append (ls : Lines) (a b : List Event) : ls.after (a ++ b) = (ls.after a).after b :=
  List.foldl_append

@[simp] theorem Lines.after_cons (ls : Lines) (e : Event) (evs : List Event) :
    ls.after (e :: evs) = (ls.afterEvent e).after evs := rfl

theorem Env.after_nil (e : Env) : e.after [] = e := by simp [Env.after]

theorem Env.after_append (e : Env) (a b : List Event) : e.after (a ++ b) = (e.after a).after b := by
  simp [Env.after, List.drop_drop, Nat.add_assoc]

@[simp] theorem Env.after_ackAt (e : Env) (evs : List Event) (j : Nat) :
    (e.after evs).ackAt j = e.ackAt (evs.countP Event.takesAck + j) := by
  simp [Env.after, Env.ackAt, Nat.add_assoc]

@[simp] theorem Env.after_readAt (e : Env) (evs : List Event) (j : Nat) :
    (e.after evs).readAt j = e.readAt (evs.countP Event.takesRead + j) := by
  simp [Env.after, Env.readAt, Nat.add_assoc]

@[simp] theorem Env.after_sampleAt (e : Env) (evs : List Event) (j : Nat) :
    (e.after evs).sampleAt j = e.sampleAt (evs.countP Event.takesSample + j) := by
  simp [Env.after, Env.sampleAt, Nat.add_assoc]

@[simp] theorem State.history_of_trace {s t : State} {evs : List Event} (h : t.trace = evs.reverse ++ s.trace) :
    t.history = s.history ++ evs := by simp [State.history, h]

/-! ### Events and the environment's answers -/

theorem Answered.append {env : Env} {a b : List Event} :
    Answered env (a ++ b) ↔ Answered env a ∧ Answered (env.after a) b := by
  induction a generalizing env with
  | nil => simp [Answered, Env.after_nil]
  | cons e a ih =>
    have step : Answered (env.after [e]) (a ++ b) ↔ _ := ih
    rw [← Env.after_append] at step
    show (_ ∧ Answered (env.after [e]) (a ++ b)) ↔ (_ ∧ Answered (env.after [e]) a) ∧ _
    rw [step, and_assoc]
    rfl

/-- The answer a failing event got. -/
theorem Answered.fails {env : Env} {init : List Event} {e : Event} {k : MicroKind} (h : Answered env (init ++ [e]))
    (hk : e.failure = some k) :
    (e.takesAck = true ∧ env.ackAt (init.countP Event.takesAck) = .err) ∨
      (e = .sample none ∧ env.sampleAt (init.countP Event.takesSample) = none) := by
  have h := (Answered.append.mp h).2
  simp only [Answered, and_true] at h
  match e, hk with
  | .drive l v .err, _ => exact .inl ⟨rfl, by simpa using h⟩
  | .tx b .err, _ => exact .inl ⟨rfl, by simpa using h⟩
  | .sample none, _ => exact .inr ⟨rfl, by simpa using h⟩

/-! ### What a piece of an operation can do -/

/-- `t` is `s` after a piece of an operation with events `evs`: the trace, the latches and the environment are as the
events leave them, each event carries the environment's answer, and nothing else changes but the transient registers and,
in a probe, the dialect flag. -/
structure Follows (s t : State) (evs : List Event) : Prop where
  trace       : t.trace = evs.reverse ++ s.trace
  lines       : t.lines = s.lines.after evs
  env         : t.env = s.env.after evs
  answers     : Answered s.env evs
  straps      : t.straps = s.straps
  mode        : t.mode = s.mode
  fb          : t.fb = s.fb
  requests    : t.requests = s.requests
  completions : t.completions = s.completions
  ghost       : t.ghost = s.ghost
  sp          : t.seq.sp = s.seq.sp

theorem Follows.refl (s : State) : Follows s s [] := by
  constructor <;> simp [Env.after_nil, Answered]

theorem Follows.trans {s t u : State} {a b : List Event} (h : Follows s t a) (k : Follows t u b) :
    Follows s u (a ++ b) where
  trace := by rw [k.trace, h.trace]; simp
  lines := by rw [k.lines, h.lines, Lines.after_append]
  env := by rw [k.env, h.env, Env.after_append]
  answers := Answered.append.mpr ⟨h.answers, h.env ▸ k.answers⟩
  straps := k.straps.trans h.straps
  mode := k.mode.trans h.mode
  fb := k.fb.trans h.fb
  requests := k.requests.trans h.requests
  completions := k.completions.trans h.completions
  ghost := k.ghost.trans h.ghost
  sp := k.sp.trans h.sp

theorem Follows.history {s t : State} {evs : List Event} (h : Follows s t evs) : t.history = s.history ++ evs :=
  State.history_of_trace h.trace

theorem Follows.setDialect {s t : State} {evs : List Event} (h : Follows s t evs) (d : Dialect) :
    Follows s (t.setDialect d) evs := ⟨h.1, h.2, h.3, h.4, h.5, h.6, h.7, h.8, h.9, h.10, h.11⟩

/-- `Follows` with the dialect flag unchanged. -/
structure Ran (s t : State) (evs : List Event) : Prop extends Follows s t evs where
  same : t.dialect = s.dialect

theorem Ran.refl (s : State) : Ran s s [] := ⟨Follows.refl s, rfl⟩

theorem Ran.trans {s t u : State} {a b : List Event} (h : Ran s t a) (k : Ran t u b) : Ran s u (a ++ b) :=
  ⟨h.toFollows.trans k.toFollows, k.same.trans h.same⟩

theorem Ran.setFbAddr (s : State) (n : Nat) : Ran s (s.setFbAddr n) [] :=
  ⟨⟨rfl, rfl, (Env.after_nil _).symm, trivial, rfl, rfl, rfl, rfl, rfl, rfl, rfl⟩, rfl⟩

theorem Ran.setPollCnt (s : State) (n : Nat) : Ran s (s.setPollCnt n) [] :=
  ⟨⟨rfl, rfl, (Env.after_nil _).symm, trivial, rfl, rfl, rfl, rfl, rfl, rfl, rfl⟩, rfl⟩

theorem Ran.column {s t : State} {evs : List Event} (h : Ran s t evs) : t.column = s.column := by
  unfold State.column; rw [h.straps, h.same]

/-! ### One lemma for each micro-operation -/

/-- A result that emits exactly these events, or stops at the first of them that fails. -/
def Run.Emits (r : Run) (s : State) (evs : List Event) : Prop :=
  match r with
  | .ok t => Ran s t evs
  | .abort k t => ∃ init e rest, evs = init ++ e :: rest ∧ Ran s t (init ++ [e.failed]) ∧ e.failed.failure = some k

theorem Run.Emits.andThen {r : Run} {f : State → Run} {s : State} {a b : List Event} (h : r.Emits s a)
    (k : ∀ t, Ran s t a → (f t).Emits t b) : (r.andThen f).Emits s (a ++ b) := by
  cases r with
  | abort kind t =>
    obtain ⟨init, e, rest, rfl, h⟩ := h
    exact ⟨init, e, rest ++ b, by simp, h⟩
  | ok t =>
    have k := k t h
    show (f t).Emits s (a ++ b)
    cases hf : f t with
    | ok u => rw [hf] at k; exact Ran.trans h k
    | abort kind u =>
      rw [hf] at k
      obtain ⟨init, e, rest, rfl, hr, he⟩ := k
      exact ⟨a ++ init, e, rest, by simp, by simpa using Ran.trans h hr, he⟩

theorem drive_emits {l : Line} {v : Level} {s : State} :
    (drive l v s).Emits s (if l = .cs ∧ s.straps.csMode = .hardCS then [] else [.drive l v .ok]) := by
  unfold drive
  split
  · exact Ran.refl s
  · split
    · rename_i h
      refine ⟨?_, rfl⟩
      constructor <;> simp [Lines.afterEvent, Env.after, Event.takesAck, Event.takesRead, Event.takesSample, Answered, h]
    · rename_i h
      refine ⟨[], _, [], rfl, ⟨?_, rfl⟩, rfl⟩
      constructor <;>
        simp [Event.failed, Lines.afterEvent, Env.after, Event.takesAck, Event.takesRead, Event.takesSample, Answered, h]

theorem transmit_emits {b : Byte} {s : State} : (transmit b s).Emits s [.tx b .ok] := by
  unfold transmit
  split
  · rename_i h
    refine ⟨?_, rfl⟩
    constructor <;> simp [Lines.afterEvent, Env.after, Event.takesAck, Event.takesRead, Event.takesSample, Answered, h]
  · rename_i h
    refine ⟨[], _, [], rfl, ⟨?_, rfl⟩, rfl⟩
    constructor <;>
      simp [Event.failed, Lines.afterEvent, Env.after, Event.takesAck, Event.takesRead, Event.takesSample, Answered, h]

theorem pause_ran (ms : Nat) (s : State) : Ran s (pause ms s) (if ms = 0 then [] else [.delay ms]) := by
  unfold pause
  split
  · exact Ran.refl s
  · refine ⟨?_, rfl⟩
    constructor <;> simp [Lines.afterEvent, Env.after, Event.takesAck, Event.takesRead, Event.takesSample, Answered]

/-- One framed byte (R91, R131). -/
theorem sendByte_emits {dc : Level} {x : Byte} {s : State} : (sendByte dc x s).Emits s (byteEvents s.straps dc x) := by
  have all : (sendByte dc x s).Emits s ([.drive .dc dc .ok] ++
      ((if s.straps.csMode = .hardCS then [] else [.drive .cs .low .ok]) ++ ([.tx x .ok] ++
        ((if s.straps.csMode = .hardCS then [] else [.drive .cs .high .ok]) ++
          (if s.straps.tInterbyte = 0 then [] else [.delay s.straps.tInterbyte]))))) := by
    refine Run.Emits.andThen (by simpa using drive_emits (l := .dc) (v := dc) (s := s)) fun t1 r1 => ?_
    refine Run.Emits.andThen (by simpa [r1.straps] using drive_emits (l := .cs) (v := .low) (s := t1)) fun t2 r2 => ?_
    refine Run.Emits.andThen transmit_emits fun t3 r3 => ?_
    have e3 : t3.straps = s.straps := r3.straps.trans (r2.straps.trans r1.straps)
    refine Run.Emits.andThen (by simpa [e3] using drive_emits (l := .cs) (v := .high) (s := t3)) fun t4 r4 => ?_
    have e4 : t4.straps = s.straps := r4.straps.trans e3
    rw [← e4]
    exact pause_ran _ _
  have e : byteEvents s.straps dc x = [.drive .dc dc .ok] ++
      ((if s.straps.csMode = .hardCS then [] else [.drive .cs .low .ok]) ++ ([.tx x .ok] ++
        ((if s.straps.csMode = .hardCS then [] else [.drive .cs .high .ok]) ++
          (if s.straps.tInterbyte = 0 then [] else [.delay s.straps.tInterbyte])))) := by
    unfold byteEvents
    cases s.straps.csMode <;> simp
  rw [e]
  exact all

/-! ### READ_BUSY -/

@[simp] theorem State.column_busyLevel (s : State) : s.column.busyLevel = busyLevelOf s.dialect := by
  unfold State.column Machine.column
  cases s.dialect <;> rfl

theorem idle_ne_busy (d : Dialect) : idleLevel d ≠ busyLevelOf d := by cases d <;> decide

theorem eq_idleLevel {d : Dialect} {v : Level} (h : v ≠ busyLevelOf d) : v = idleLevel d := by
  cases d <;> cases v <;> simp_all [busyLevelOf, idleLevel]

theorem busyPolls_succ (d : Dialect) (k : Nat) :
    busyPolls d (k + 1) = [.sample (some (busyLevelOf d)), .delay 10] ++ busyPolls d k := by
  simp [busyPolls, List.replicate_succ]

@[simp] theorem busyPolls_takesSample (d : Dialect) (k : Nat) : (busyPolls d k).countP Event.takesSample = k := by
  induction k with
  | zero => rfl
  | succ k ih => rw [busyPolls_succ, List.countP_append, ih]; simp [List.countP_cons, Event.takesSample, Nat.add_comm]

@[simp] theorem busyPolls_length (d : Dialect) (k : Nat) : (busyPolls d k).length = 2 * k := by
  simp [busyPolls, List.length_flatten, Nat.mul_comm]

/-- The poll loop with `n` samples left (R133): some busy polls and an idle sample, all `n` busy and the log, or some busy
polls and a failing sample. -/
theorem pollLoop_cases (n : Nat) (s : State) :
    match pollLoop n s with
    | .ok t => (∃ k, k < n ∧ Ran s t (busyPolls s.dialect k ++ [.sample (some (idleLevel s.dialect))])) ∨
        Ran s t (busyPolls s.dialect n ++ [.log 0x02#8])
    | .abort k t => k = .sample ∧ ∃ j, j < n ∧ Ran s t (busyPolls s.dialect j ++ [.sample none]) := by
  induction n generalizing s with
  | zero =>
    refine .inr ⟨?_, rfl⟩
    constructor <;>
      simp [timeoutCode, busyPolls, Lines.afterEvent, Env.after, Event.takesAck, Event.takesRead, Event.takesSample, Answered]
  | succ n ih =>
    have base (r : Option Level) (h : s.env.sampleAt 0 = r) : Ran s (s.drawSample.emit (.sample r)) [.sample r] := by
      refine ⟨?_, rfl⟩
      constructor <;>
        simp [Lines.afterEvent, Env.after, Event.takesAck, Event.takesRead, Event.takesSample, List.countP_cons, Answered, h]
    unfold pollLoop
    cases hv : s.env.sampleAt 0 with
    | none => exact ⟨rfl, 0, Nat.succ_pos n, base none hv⟩
    | some v =>
      simp only [State.column_busyLevel]
      by_cases hb : v = busyLevelOf s.dialect
      · subst hb
        rw [if_pos rfl]
        have two := ((base _ hv).trans (pause_ran tPoll _)).trans (Ran.setPollCnt _ (s.seq.pollCnt + 1))
        generalize (pause tPoll (s.drawSample.emit (.sample (some (busyLevelOf s.dialect))))).setPollCnt
          (s.seq.pollCnt + 1) = u at two ⊢
        have two : Ran s u [.sample (some (busyLevelOf s.dialect)), .delay 10] := two
        have ih := ih u
        rw [two.same] at ih
        have one : ∀ (j : Nat) (t : State) (evs : List Event), Ran u t (busyPolls s.dialect j ++ evs) →
            Ran s t (busyPolls s.dialect (j + 1) ++ evs) := fun j t evs r => by
          rw [busyPolls_succ]
          exact two.trans r
        split at ih
        · rcases ih with ⟨k, hk, r⟩ | r
          · exact .inl ⟨k + 1, by omega, one _ _ _ r⟩
          · exact .inr (one _ _ _ r)
        · obtain ⟨rfl, j, hj, r⟩ := ih
          exact ⟨rfl, j + 1, by omega, one _ _ _ r⟩
      · rw [if_neg hb]
        refine .inl ⟨0, Nat.succ_pos n, ?_⟩
        rw [← eq_idleLevel hb]
        exact base _ hv

/-! ### Sequences done or cut -/

/-- The result is the sequence done, or cut at its first failing micro-operation. -/
def Run.Performs (r : Run) (s : State) (pieces : List Piece) : Prop :=
  match r with
  | .ok t => ∃ evs, Ran s t evs ∧ Done s.straps s.dialect pieces evs
  | .abort k t => ∃ evs, Ran s t evs ∧ Cut k s.straps s.dialect pieces evs

theorem Done.append {p : Straps} {d : Dialect} {xs ys : List Piece} {a b : List Event} (h : Done p d xs a)
    (k : Done p d ys b) : Done p d (xs ++ ys) (a ++ b) := by
  induction xs generalizing a with
  | nil => cases h; exact k
  | cons x xs ih =>
    obtain ⟨a1, a2, rfl, h1, h2⟩ := h
    exact ⟨a1, a2 ++ b, by simp, h1, ih h2⟩

theorem frameEvents_append (p : Straps) (d : Dialect) (a b : List SeqItem) :
    frameEvents p d (a ++ b) = frameEvents p d a ++ frameEvents p d b := by simp [frameEvents]

@[simp] theorem frameEvents_send (p : Straps) (d : Dialect) (dc : Level) (x : Byte) (rest : List SeqItem) :
    frameEvents p d (.send dc x :: rest) = byteEvents p dc x ++ frameEvents p d rest := rfl

@[simp] theorem frameEvents_busyWait (p : Straps) (d : Dialect) (rest : List SeqItem) :
    frameEvents p d (.busyWait :: rest) = [.sample (some (idleLevel d))] ++ frameEvents p d rest := rfl

@[simp] theorem frameEvents_nil (p : Straps) (d : Dialect) : frameEvents p d [] = [] := rfl

/-- A sequence can be done: with every poll idle. -/
theorem Done.clean (p : Straps) (d : Dialect) (xs : List Piece) : Done p d xs (cleanEvents p d xs) := by
  induction xs with
  | nil => rfl
  | cons x xs ih =>
    refine ⟨x.cleanEvents p d, _, rfl, ?_, ih⟩
    match x with
    | .item (.send _ _) => simp [Piece.cleanEvents, Piece.Done]
    | .item .busyWait => exact .inl ⟨0, by decide, by simp [busyPolls, Piece.cleanEvents]⟩
    | .rst _ => rfl
    | .wait _ => rfl
    | .read _ => rfl

theorem Cut.append_left {k : MicroKind} {p : Straps} {d : Dialect} {xs ys : List Piece} {a : List Event}
    (h : Cut k p d xs a) : Cut k p d (xs ++ ys) a := by
  obtain ⟨init, e, rest, h, he⟩ := h
  exact ⟨init, e, rest ++ cleanEvents p d ys, by simpa using h.append (Done.clean p d ys), he⟩

theorem Cut.append_right {k : MicroKind} {p : Straps} {d : Dialect} {xs ys : List Piece} {a b : List Event}
    (h : Done p d xs a) (c : Cut k p d ys b) : Cut k p d (xs ++ ys) (a ++ b) := by
  obtain ⟨init, e, rest, c, rfl, he⟩ := c
  exact ⟨a ++ init, e, rest, by simpa using h.append c, by simp, he⟩

theorem Cut.cons {k : MicroKind} {p : Straps} {d : Dialect} {x : Piece} {init rest : List Event} {e : Event}
    (h : x.Done p d (init ++ e :: rest)) (he : e.failed.failure = some k) : Cut k p d [x] (init ++ [e.failed]) :=
  ⟨init, e, rest, ⟨_, [], by simp, h, rfl⟩, rfl, he⟩

/-- A sequence without a busy-wait is the same under either dialect. -/
theorem Done.dialect {p : Straps} {d e : Dialect} {xs : List Piece} {evs : List Event} (h : Done p d xs evs)
    (hx : .item .busyWait ∉ xs) : Done p e xs evs := by
  induction xs generalizing evs with
  | nil => exact h
  | cons x xs ih =>
    obtain ⟨a, b, rfl, h1, h2⟩ := h
    refine ⟨a, b, rfl, ?_, ih h2 fun hm => hx (List.mem_cons_of_mem _ hm)⟩
    match x with
    | .item (.send _ _) => exact h1
    | .item .busyWait => exact absurd (List.mem_cons_self ..) hx
    | .rst _ => exact h1
    | .wait _ => exact h1
    | .read _ => exact h1

theorem Cut.dialect {k : MicroKind} {p : Straps} {d e : Dialect} {xs : List Piece} {evs : List Event} (h : Cut k p d xs evs)
    (hx : .item .busyWait ∉ xs) : Cut k p e xs evs := by
  obtain ⟨init, x, rest, h, he⟩ := h
  exact ⟨init, x, rest, h.dialect hx, he⟩

/-- A piece with fixed events. -/
theorem Run.Emits.performs {r : Run} {s : State} {evs : List Event} {x : Piece} (h : r.Emits s evs)
    (hx : x.Done s.straps s.dialect evs) : r.Performs s [x] := by
  cases r with
  | ok t => exact ⟨evs, h, evs, [], by simp, hx, rfl⟩
  | abort k t =>
    obtain ⟨init, e, rest, rfl, hr, he⟩ := h
    exact ⟨_, hr, .cons hx he⟩

/-- A sequence that follows one already done. -/
theorem Run.Performs.prepend {r : Run} {s t : State} {xs ys : List Piece} {evs : List Event} (h : Ran s t evs)
    (hd : Done s.straps s.dialect xs evs) (k : r.Performs t ys) : r.Performs s (xs ++ ys) := by
  cases r with
  | ok u =>
    obtain ⟨evs', r', d'⟩ := k
    rw [h.straps, h.same] at d'
    exact ⟨_, h.trans r', hd.append d'⟩
  | abort kind u =>
    obtain ⟨evs', r', c'⟩ := k
    rw [h.straps, h.same] at c'
    exact ⟨_, h.trans r', c'.append_right hd⟩

/-- Composition: the sequences are joined. -/
theorem Run.Performs.andThen {r : Run} {f : State → Run} {s : State} {xs ys : List Piece} (h : r.Performs s xs)
    (k : ∀ t evs, Ran s t evs → (f t).Performs t ys) : (r.andThen f).Performs s (xs ++ ys) := by
  cases r with
  | abort kind t => obtain ⟨evs, hr, hc⟩ := h; exact ⟨evs, hr, hc.append_left⟩
  | ok t => obtain ⟨evs, hr, hd⟩ := h; exact .prepend hr hd (k t evs hr)

theorem Run.Performs.nil (s : State) : (Run.ok s).Performs s [] := ⟨[], Ran.refl s, rfl⟩

/-- A piece before which only a transient register changes. -/
theorem Run.Performs.after {r : Run} {s t : State} {xs : List Piece} (h : Ran s t []) (k : r.Performs t xs) :
    r.Performs s xs := .prepend (xs := []) h rfl k

/-- A piece before which the core waits. -/
theorem Run.Performs.afterPause {r : Run} {ms : Nat} {s : State} {xs : List Piece} (h : ms ≠ 0)
    (k : r.Performs (pause ms s) xs) : r.Performs s (.wait ms :: xs) := by
  have := pause_ran ms s
  rw [if_neg h] at this
  exact .prepend this (xs := [.wait ms]) ⟨_, [], rfl, rfl, rfl⟩ k

theorem sendByte_performs (dc : Level) (x : Byte) (s : State) : (sendByte dc x s).Performs s [.item (.send dc x)] :=
  sendByte_emits.performs rfl

theorem readBusy_performs (s : State) : (readBusy s).Performs s [.item .busyWait] := by
  refine Run.Performs.after (Ran.setPollCnt s 0) ?_
  have h := pollLoop_cases 500 (s.setPollCnt 0)
  show (pollLoop 500 (s.setPollCnt 0)).Performs _ _
  cases hp : pollLoop 500 (s.setPollCnt 0) with
  | ok t =>
    rw [hp] at h
    rcases h with ⟨k, hk, r⟩ | r
    · exact ⟨_, r, _, [], by simp, .inl ⟨k, hk, rfl⟩, rfl⟩
    · exact ⟨_, r, _, [], by simp, .inr rfl, rfl⟩
  | abort k t =>
    rw [hp] at h
    obtain ⟨rfl, j, hj, r⟩ := h
    exact ⟨_, r, .cons (e := .sample (some (idleLevel s.dialect))) (rest := []) (.inl ⟨j, hj, rfl⟩) rfl⟩

theorem runItems_performs (items : List SeqItem) (s : State) : (runItems items s).Performs s (items.map .item) := by
  induction items generalizing s with
  | nil => exact .nil s
  | cons item rest ih =>
    cases item with
    | send dc x => exact (sendByte_performs dc x s).andThen fun t _ _ => ih t
    | busyWait => exact (readBusy_performs s).andThen fun t _ _ => ih t

/-- The data bytes of a plane from `fb_addr` on (R136). -/
theorem planeLoop_performs {f : State → Nat → Byte} (hf : ∀ s t : State, t.fb = s.fb → f t = f s) (n : Nat) (s : State) :
    (planeLoop f n s).Performs s ((List.range' s.seq.fbAddr n).map fun i => .item (D (f s i))) := by
  induction n generalizing s with
  | zero => exact .nil s
  | succ n ih =>
    rw [List.range'_succ, List.map_cons]
    refine (sendByte_performs .high _ s).andThen fun t evs r => ?_
    refine Run.Performs.after (Ran.setFbAddr t (s.seq.fbAddr + 1)) ?_
    have := ih (t.setFbAddr (s.seq.fbAddr + 1))
    rwa [hf s (t.setFbAddr (s.seq.fbAddr + 1)) r.fb] at this

/-- A plane-write frame (R136). -/
theorem sendPlane_performs (cmd : Byte) {f : State → Nat → Byte} (hf : ∀ s t : State, t.fb = s.fb → f t = f s) (s : State) :
    (sendPlane cmd f s).Performs s ((planeFrame cmd (planeBytes s.straps.geometry) (f s)).map .item) := by
  unfold planeFrame
  rw [List.map_cons, List.map_map, List.range_eq_range']
  refine (sendByte_performs .low cmd s).andThen fun t evs r => ?_
  refine Run.Performs.after (Ran.setFbAddr t 0) ?_
  have := planeLoop_performs hf (planeBytes s.straps.geometry) (t.setFbAddr 0)
  rw [hf s (t.setFbAddr 0) r.fb] at this
  rwa [show t.straps = s.straps from r.straps]

theorem blackDataByte_fb (src : PlaneSource) (s t : State) (h : t.fb = s.fb) :
    blackDataByte src t = blackDataByte src s := by
  funext i; cases src <;> simp [blackDataByte, sourceByte, h]

theorem redDataByte_fb (inv : Bool) (src : PlaneSource) (s t : State) (h : t.fb = s.fb) :
    redDataByte inv src t = redDataByte inv src s := by
  funext i; cases src <;> simp [redDataByte, sourceByte, h]

theorem driveRst_performs (v : Level) (s : State) : (drive .rst v s).Performs s [.rst v] :=
  Run.Emits.performs (by simpa using drive_emits (l := .rst) (v := v) (s := s)) rfl

/-- RESET (R130). -/
theorem resetPulse_performs (s : State) : (resetPulse s).Performs s (resetPieces s.straps) := by
  refine (driveRst_performs .high s).andThen (ys := [.wait 200, _, _, _, _]) fun t1 _ r1 => .afterPause (by decide) ?_
  refine (driveRst_performs .low _).andThen (ys := [.wait _, _, _]) fun t3 _ r3 => ?_
  have e3 : t3.straps = s.straps := r3.straps.trans ((pause_ran tRstHi t1).straps.trans r1.straps)
  rw [← e3]
  refine .afterPause (by have := t3.straps.tRstLo.legal; omega) ?_
  exact (driveRst_performs .high _).andThen (ys := [.wait 200]) fun t5 _ _ => .afterPause (by decide) (.nil _)

theorem turnOn_performs (s : State) : (turnOn s).Performs s ((refreshFrames s.dialect).map .item) := by
  have e : (sends s.column.refreshSeq).map Piece.item ++ [.item .busyWait] = (refreshFrames s.dialect).map .item := by
    unfold State.column Machine.column
    cases s.dialect <;> rfl
  rw [← e]
  exact (runItems_performs _ s).andThen fun t _ _ => readBusy_performs t

theorem rx_ran (s : State) : Ran s (s.drawRead.emit (.rx (s.env.readAt 0))) [.rx (s.env.readAt 0)] := by
  refine ⟨?_, rfl⟩
  constructor <;> simp [Lines.afterEvent, Env.after, Event.takesAck, Event.takesRead, Event.takesSample, Answered]

/-- The read frame (R97): whatever the `Rx` answers, the deselect follows. -/
theorem readFrame_performs (s : State) :
    ((drive .dc .high s).andThen fun s => (drive .cs .low s).andThen readFrame).Performs s [.read (s.env.readAt 0)] := by
  have e : probeReadEvents s.straps (s.env.readAt 0) = [.drive .dc .high .ok] ++
      ((if s.straps.csMode = .hardCS then [] else [.drive .cs .low .ok]) ++ ([.rx (s.env.readAt 0)] ++
        (if s.straps.csMode = .hardCS then [] else [.drive .cs .high .ok]))) := by
    unfold probeReadEvents
    cases s.straps.csMode <;> simp
  refine Run.Emits.performs (evs := probeReadEvents s.straps (s.env.readAt 0)) ?_ rfl
  rw [e]
  refine Run.Emits.andThen (by simpa using drive_emits (l := .dc) (v := .high) (s := s)) fun t1 r1 => ?_
  refine Run.Emits.andThen (by simpa [r1.straps] using drive_emits (l := .cs) (v := .low) (s := t1)) fun t2 r2 => ?_
  have hr : t2.env.readAt 0 = s.env.readAt 0 := by
    rw [r2.env, r1.env]
    split <;> simp [Event.takesRead]
  have e2 : t2.straps = s.straps := r2.straps.trans r1.straps
  refine Run.Emits.andThen (r := .ok _) (hr ▸ rx_ran t2) fun t3 r3 => ?_
  simpa [r3.straps, e2] using drive_emits (l := .cs) (v := .high) (s := t3)

/-- The detection command, the delay and the read frame of PROBE (R141): the answer of its `Rx` is the environment's next. -/
theorem detect_performs (s : State) : (detect s).Performs s (detectPieces s) := by
  have noRead : (byteEvents s.straps .low 0x2F#8).countP Event.takesRead = 0 := by
    unfold byteEvents
    cases s.straps.csMode <;> (simp only; split) <;> simp [Event.takesRead]
  have em := sendByte_emits (dc := .low) (x := 0x2F#8) (s := s)
  unfold detect
  cases hs : sendByte .low 0x2F#8 s with
  | abort k t =>
    have bytes := sendByte_performs .low 0x2F#8 s
    rw [hs] at bytes
    obtain ⟨evs, r, c⟩ := bytes
    exact ⟨evs, r, c.append_left (ys := [_, _])⟩
  | ok t =>
    rw [hs] at em
    have r : Ran s t (byteEvents s.straps .low 0x2F#8) := em
    have hr : (pause tProbe t).env.readAt 0 = s.env.readAt 0 := by
      show t.env.readAt 0 = _
      rw [r.env, Env.after_readAt, noRead]
    have k := readFrame_performs (pause tProbe t)
    rw [hr] at k
    exact .prepend r (xs := [.item (C 0x2F#8)]) ⟨_, [], by simp, rfl, rfl⟩ (.afterPause (by decide) k)

end Sys2Proof.Machine
end

