-- ==== Sys2Proof/Laws/Pieces.lean ====
section
/-! SUPPORT. What follows from a sequence being done or cut (Safety.lean), whatever machine did it: the events it can have,
what they weigh, the bytes on the wire, and what the environment's answers decide. -/

namespace Sys2Proof.Machine

/-! ### A piece done and an event failing -/

@[simp] theorem Event.failed_takesAck (e : Event) : e.failed.takesAck = e.takesAck := by cases e <;> rfl
@[simp] theorem Event.failed_takesSample (e : Event) : e.failed.takesSample = e.takesSample := by cases e <;> rfl

/-- A property of the events of a done sequence comes from its pieces. -/
theorem Done.all {P : Event → Prop} {p : Straps} {d : Dialect} {xs : List Piece} {evs : List Event} (h : Done p d xs evs)
    (hP : ∀ x ∈ xs, ∀ a, x.Done p d a → ∀ e ∈ a, P e) : ∀ e ∈ evs, P e := by
  induction xs generalizing evs with
  | nil => cases h; simp
  | cons x xs ih =>
    obtain ⟨a, b, rfl, h1, h2⟩ := h
    intro e he
    rcases List.mem_append.mp he with he | he
    · exact hP x (List.mem_cons_self ..) a h1 e he
    · exact ih h2 (fun y hy => hP y (List.mem_cons_of_mem _ hy)) e he

/-- A number that pieces add to is bounded by the sum of their bounds. -/
theorem Done.sum_le {f : List Event → Nat} (h0 : f [] = 0) (hf : ∀ a b, f (a ++ b) = f a + f b) {bound : Piece → Nat}
    {p : Straps} {d : Dialect} {xs : List Piece} {evs : List Event} (h : Done p d xs evs)
    (hb : ∀ x ∈ xs, ∀ a, x.Done p d a → f a ≤ bound x) : f evs ≤ (xs.map bound).sum := by
  induction xs generalizing evs with
  | nil => cases h; simp [h0]
  | cons x xs ih =>
    obtain ⟨a, b, rfl, h1, h2⟩ := h
    have ha := hb x (List.mem_cons_self ..) a h1
    have hrest := ih h2 fun y hy => hb y (List.mem_cons_of_mem _ hy)
    rw [hf, List.map_cons, List.sum_cons]
    omega

/-! ### The access matrix -/

/-- The events a row of the access matrix allows; CS is never driven on a hardware-selected bus. -/
def Access.Allows (a : Access) (p : Straps) : Event → Prop
  | .drive .rst _ _ => a.rst = true
  | .drive .dc _ _ => a.dcCs = true
  | .drive .cs _ _ => a.dcCs = true ∧ p.csMode ≠ .hardCS
  | .tx _ _ => a.dcCs = true
  | .rx _ => a.dcCs = true
  | .sample _ => True
  | .delay _ => True
  | .log _ => True

/-- The pieces a row of the access matrix allows. -/
def Piece.AllowedBy (a : Access) : Piece → Prop
  | .item (.send _ _) => a.dcCs = true
  | .item .busyWait => True
  | .rst _ => a.rst = true
  | .wait _ => True
  | .read _ => a.dcCs = true

theorem byteEvents_allowed {a : Access} {p : Straps} {dc : Level} {b : Byte} (h : a.dcCs = true) :
    ∀ e ∈ byteEvents p dc b, e.failure = none ∧ a.Allows p e := by
  unfold byteEvents
  cases hm : p.csMode <;> simp only <;> split <;> simp [Event.failure, Access.Allows, h, hm]

theorem probeReadEvents_allowed {a : Access} {p : Straps} {r : Option Byte} (h : a.dcCs = true) :
    ∀ e ∈ probeReadEvents p r, e.failure = none ∧ a.Allows p e := by
  unfold probeReadEvents
  cases hm : p.csMode <;> simp [Event.failure, Access.Allows, h, hm]

theorem busyPolls_mem {d : Dialect} {k : Nat} {e : Event} (h : e ∈ busyPolls d k) :
    e = .sample (some (busyLevelOf d)) ∨ e = .delay 10 := by
  simp only [busyPolls, List.mem_flatten, List.mem_replicate] at h
  obtain ⟨l, ⟨-, rfl⟩, h⟩ := h
  simpa using h

theorem Polled.allowed {a : Access} {p : Straps} {d : Dialect} {evs : List Event} (h : Polled d evs) :
    ∀ e ∈ evs, e.failure = none ∧ a.Allows p e := by
  intro e he
  have : e = .sample (some (busyLevelOf d)) ∨ e = .delay 10 ∨ e = .sample (some (idleLevel d)) ∨ e = .log 0x02#8 := by
    rcases h with ⟨k, -, rfl⟩ | rfl <;> simp only [List.mem_append, List.mem_singleton] at he <;>
      rcases he with he | he
    · exact (busyPolls_mem he).imp id .inl
    · simp [he]
    · exact (busyPolls_mem he).imp id .inl
    · simp [he]
  rcases this with rfl | rfl | rfl | rfl <;> exact ⟨rfl, trivial⟩

theorem Piece.Done.allowed {a : Access} {p : Straps} {d : Dialect} {x : Piece} {evs : List Event} (h : x.Done p d evs)
    (hx : x.AllowedBy a) : ∀ e ∈ evs, e.failure = none ∧ a.Allows p e := by
  match x with
  | .item (.send _ _) => cases h; exact byteEvents_allowed hx
  | .item .busyWait => exact Polled.allowed h
  | .rst _ => cases h; have : a.rst = true := hx; simp [Event.failure, Access.Allows, this]
  | .wait _ => cases h; simp [Event.failure, Access.Allows]
  | .read _ => cases h; exact probeReadEvents_allowed hx

theorem Event.failed_allowed {a : Access} {p : Straps} {e : Event} : a.Allows p e.failed ↔ a.Allows p e := by
  match e with
  | .drive .rst _ _ => exact .rfl
  | .drive .dc _ _ => exact .rfl
  | .drive .cs _ _ => exact .rfl
  | .tx _ _ => exact .rfl
  | .rx _ => exact .rfl
  | .sample _ => exact .rfl
  | .delay _ => exact .rfl
  | .log _ => exact .rfl

/-- A done sequence has no failing event, and only events its row allows. -/
theorem Done.allowed {a : Access} {p : Straps} {d : Dialect} {xs : List Piece} {evs : List Event} (h : Done p d xs evs)
    (hx : ∀ x ∈ xs, x.AllowedBy a) : ∀ e ∈ evs, e.failure = none ∧ a.Allows p e :=
  h.all fun x hm _ hd => hd.allowed (hx x hm)

/-- A cut sequence has one failing event, its last. -/
theorem Cut.allowed {k : MicroKind} {a : Access} {p : Straps} {d : Dialect} {xs : List Piece} {evs : List Event}
    (h : Cut k p d xs evs) (hx : ∀ x ∈ xs, x.AllowedBy a) :
    ∃ init last, evs = init ++ [last] ∧ (∀ e ∈ init, e.failure = none ∧ a.Allows p e) ∧ last.failure = some k ∧
      a.Allows p last := by
  obtain ⟨init, e, rest, h, rfl, he⟩ := h
  have all := h.allowed hx
  exact ⟨init, e.failed, rfl, fun x hm => all x (by simp [hm]), he, Event.failed_allowed.mpr (all e (by simp)).2⟩

/-! ### Weights -/

/-- What events weigh: a micro-operation that calls the environment, a delay, a log. -/
structure Weight where
  call  : Nat
  delay : Nat → Nat
  log   : Nat

/-- The weight of an event. A log weighs if it carries Timeout's code, the only one the core logs. -/
def Weight.of (w : Weight) : Event → Nat
  | .drive _ _ _ => w.call
  | .tx _ _ => w.call
  | .rx _ => w.call
  | .sample _ => w.call
  | .delay ms => w.delay ms
  | .log c => if c = timeoutCode then w.log else 0

/-- The weight of a list of events. -/
def Weight.sum (w : Weight) (evs : List Event) : Nat := (evs.map w.of).sum

@[simp] theorem Weight.sum_nil (w : Weight) : w.sum [] = 0 := rfl
@[simp] theorem Weight.sum_cons (w : Weight) (e : Event) (evs : List Event) :
    w.sum (e :: evs) = w.of e + w.sum evs := by simp [Weight.sum]
@[simp] theorem Weight.sum_append (w : Weight) (a b : List Event) : w.sum (a ++ b) = w.sum a + w.sum b := by
  simp [Weight.sum]

/-- The weight of a delay that is skipped when it is 0. -/
def Weight.pause (w : Weight) (ms : Nat) : Nat := if ms = 0 then 0 else w.delay ms

/-- The most a piece weighs. -/
def Weight.piece (w : Weight) (p : Straps) : Piece → Nat
  | .item (.send _ _) => 4 * w.call + w.pause p.tInterbyte
  | .item .busyWait => 500 * (w.call + w.delay 10) + w.log
  | .rst _ => w.call
  | .wait ms => w.delay ms
  | .read _ => 4 * w.call

/-- The most a sequence weighs. -/
def Weight.pieces (w : Weight) (p : Straps) (xs : List Piece) : Nat := (xs.map (w.piece p)).sum

@[simp] theorem Weight.pieces_nil (w : Weight) (p : Straps) : w.pieces p [] = 0 := rfl
@[simp] theorem Weight.pieces_cons (w : Weight) (p : Straps) (x : Piece) (xs : List Piece) :
    w.pieces p (x :: xs) = w.piece p x + w.pieces p xs := by simp [Weight.pieces]
@[simp] theorem Weight.pieces_append (w : Weight) (p : Straps) (xs ys : List Piece) :
    w.pieces p (xs ++ ys) = w.pieces p xs + w.pieces p ys := by simp [Weight.pieces]

/-- The weight that counts events. -/
def Weight.length : Weight := ⟨1, fun _ => 1, 1⟩
/-- The weight that adds up delays. -/
def Weight.waiting : Weight := ⟨0, id, 0⟩
/-- The weight that counts logged time-outs. -/
def Weight.timeouts : Weight := ⟨0, fun _ => 0, 1⟩

theorem Weight.sum_busyPolls (w : Weight) (d : Dialect) (k : Nat) : w.sum (busyPolls d k) = k * (w.call + w.delay 10) := by
  induction k with
  | zero => simp [busyPolls]
  | succ k ih => rw [busyPolls_succ, Weight.sum_append, ih]; simp [Weight.of]; ring

theorem Piece.Done.weight {p : Straps} {d : Dialect} {x : Piece} {evs : List Event} (w : Weight) (h : x.Done p d evs) :
    w.sum evs ≤ w.piece p x := by
  match x with
  | .item (.send _ _) =>
    cases h
    unfold byteEvents Weight.piece Weight.pause
    cases p.csMode <;> simp only <;> split <;> simp [Weight.of] <;> omega
  | .item .busyWait =>
    rcases h with ⟨k, hk, rfl⟩ | rfl
    · have : (k + 1) * (w.call + w.delay 10) ≤ 500 * (w.call + w.delay 10) := Nat.mul_le_mul_right _ hk
      rw [Weight.sum_append, Weight.sum_busyPolls]
      rw [Nat.succ_mul] at this
      simp only [Weight.sum_cons, Weight.of, Weight.sum_nil, Weight.piece]
      omega
    · rw [Weight.sum_append, Weight.sum_busyPolls]
      simp [Weight.of, Weight.piece, timeoutCode]
  | .rst _ => cases h; simp [Weight.of, Weight.piece]
  | .wait _ => cases h; simp [Weight.of, Weight.piece]
  | .read _ =>
    cases h
    unfold probeReadEvents Weight.piece
    cases p.csMode <;> simp [Weight.of] <;> omega

/-- A done sequence weighs at most its pieces. -/
theorem Done.weight {p : Straps} {d : Dialect} {xs : List Piece} {evs : List Event} (w : Weight) (h : Done p d xs evs) :
    w.sum evs ≤ w.pieces p xs :=
  h.sum_le (f := w.sum) rfl (Weight.sum_append w) fun _ _ _ hd => hd.weight w

theorem Weight.of_failed (w : Weight) (e : Event) : w.of e.failed = w.of e := by cases e <;> rfl

/-- A cut sequence too. -/
theorem Cut.weight {k : MicroKind} {p : Straps} {d : Dialect} {xs : List Piece} {evs : List Event} (w : Weight)
    (h : Cut k p d xs evs) : w.sum evs ≤ w.pieces p xs := by
  obtain ⟨init, e, rest, h, rfl, -⟩ := h
  have := h.weight w
  simp [Weight.of_failed] at this ⊢
  omega

theorem Weight.sum_waiting (evs : List Event) : Weight.waiting.sum evs = waited evs := by
  induction evs with
  | nil => rfl
  | cons e evs ih =>
    have : waited (e :: evs) = e.waits + waited evs := by simp [waited]
    cases e <;> simp [Weight.of, Weight.waiting, this, Event.waits, ← ih]

theorem Weight.sum_timeouts (evs : List Event) : Weight.timeouts.sum evs = Machine.timeouts evs := by
  induction evs with
  | nil => rfl
  | cons e evs ih =>
    rw [Weight.sum_cons, ih]
    cases e <;> simp [Weight.of, Weight.timeouts, Machine.timeouts, List.count_cons, Nat.add_comm]

/-- The number of events is the weight `length` where no foreign code is logged. -/
theorem Weight.sum_length {evs : List Event} (h : ∀ e ∈ evs, ∀ c, e = .log c → c = timeoutCode) :
    Weight.length.sum evs = evs.length := by
  induction evs with
  | nil => rfl
  | cons e evs ih =>
    rw [Weight.sum_cons, ih fun x hx => h x (List.mem_cons_of_mem _ hx)]
    have one : Weight.length.of e = 1 := by
      match e, h e (List.mem_cons_self ..) with
      | .log c, h => simp [Weight.of, Weight.length, h c rfl]
      | .drive _ _ _, _ => rfl
      | .tx _ _, _ => rfl
      | .rx _, _ => rfl
      | .sample _, _ => rfl
      | .delay _, _ => rfl
    rw [one, List.length_cons, Nat.add_comm]

theorem Piece.Done.codes {p : Straps} {d : Dialect} {x : Piece} {evs : List Event} (h : x.Done p d evs) :
    ∀ e ∈ evs, ∀ c, e = .log c → c = timeoutCode := by
  intro e he c hc
  subst hc
  match x with
  | .item (.send _ _) =>
    cases h
    revert he
    unfold byteEvents
    cases p.csMode <;> simp only <;> split <;> simp
  | .item .busyWait =>
    rcases h with ⟨k, -, rfl⟩ | rfl <;> rcases List.mem_append.mp he with he | he
    · rcases busyPolls_mem he with h | h <;> cases h
    · simp at he
    · rcases busyPolls_mem he with h | h <;> cases h
    · simpa [timeoutCode] using he
  | .rst _ => cases h; simp at he
  | .wait _ => cases h; simp at he
  | .read _ =>
    cases h
    revert he
    unfold probeReadEvents
    cases p.csMode <;> simp

/-- A done sequence has at most as many events as its pieces allow. -/
theorem Done.length_le {p : Straps} {d : Dialect} {xs : List Piece} {evs : List Event} (h : Done p d xs evs) :
    evs.length ≤ Weight.length.pieces p xs :=
  Weight.sum_length (h.all fun _ _ _ hd => hd.codes) ▸ h.weight Weight.length

theorem Cut.length_le {k : MicroKind} {p : Straps} {d : Dialect} {xs : List Piece} {evs : List Event} (h : Cut k p d xs evs) :
    evs.length ≤ Weight.length.pieces p xs := by
  obtain ⟨init, e, rest, h, rfl, -⟩ := h
  have := h.length_le
  simp at this ⊢
  omega

/-! ### The wire -/

theorem wireFrom_append (dc : Latch) (a b : List Event) :
    ∃ dc', wireFrom dc (a ++ b) = wireFrom dc a ++ wireFrom dc' b := by
  induction a generalizing dc with
  | nil => exact ⟨dc, rfl⟩
  | cons e a ih =>
    match e with
    | .tx x .ok => obtain ⟨dc', h⟩ := ih dc; exact ⟨dc', by simp [wireFrom, h]⟩
    | .tx _ .err => exact ih dc
    | .drive .dc v .ok => exact ih (latchOf v)
    | .drive .dc _ .err => exact ih .unknown
    | .drive .rst _ _ => exact ih dc
    | .drive .cs _ _ => exact ih dc
    | .rx _ => exact ih dc
    | .sample _ => exact ih dc
    | .delay _ => exact ih dc
    | .log _ => exact ih dc

theorem busyPolls_wire (dc : Latch) (d : Dialect) (k : Nat) : wireFrom dc (busyPolls d k) = [] := by
  induction k with
  | zero => rfl
  | succ k ih => rw [busyPolls_succ]; exact ih

theorem Piece.Done.wire {p : Straps} {d : Dialect} {x : Piece} {evs : List Event} (h : x.Done p d evs) (dc : Latch) :
    wireFrom dc evs = bytesOf [x] := by
  match x with
  | .item (.send _ _) =>
    cases h
    unfold byteEvents
    cases p.csMode <;> simp only <;> split <;> simp [wireFrom, bytesOf]
  | .item .busyWait =>
    rcases h with ⟨k, -, rfl⟩ | rfl
    · obtain ⟨dc', h⟩ := wireFrom_append dc (busyPolls d k) [.sample (some (idleLevel d))]
      rw [h, busyPolls_wire]; rfl
    · obtain ⟨dc', h⟩ := wireFrom_append dc (busyPolls d 500) [.log 0x02#8]
      rw [h, busyPolls_wire]; rfl
  | .rst _ => cases h; rfl
  | .wait _ => cases h; rfl
  | .read _ =>
    cases h
    unfold probeReadEvents
    cases p.csMode <;> rfl

/-- A done sequence puts its bytes on the wire. -/
theorem Done.wire {p : Straps} {d : Dialect} {xs : List Piece} {evs : List Event} (h : Done p d xs evs) (dc : Latch) :
    wireFrom dc evs = bytesOf xs := by
  induction xs generalizing evs dc with
  | nil => cases h; rfl
  | cons x xs ih =>
    obtain ⟨a, b, rfl, h1, h2⟩ := h
    obtain ⟨dc', h⟩ := wireFrom_append dc a b
    have e : bytesOf (x :: xs) = bytesOf [x] ++ bytesOf xs := by
      simp only [bytesOf]
      rw [← List.filterMap_append]
      rfl
    rw [h, h1.wire, ih h2, e]

/-- A cut sequence puts the first of its bytes on the wire. -/
theorem Cut.wire {k : MicroKind} {p : Straps} {d : Dialect} {xs : List Piece} {evs : List Event} (h : Cut k p d xs evs)
    (dc : Latch) : ∃ n, wireFrom dc evs = (bytesOf xs).take n := by
  obtain ⟨init, e, rest, h, rfl, he⟩ := h
  obtain ⟨dc1, h1⟩ := wireFrom_append dc init [e.failed]
  obtain ⟨dc2, h2⟩ := wireFrom_append dc init (e :: rest)
  have last : wireFrom dc1 [e.failed] = [] := by
    match e with
    | .drive .dc _ _ => rfl
    | .drive .rst _ _ => rfl
    | .drive .cs _ _ => rfl
    | .tx _ _ => rfl
    | .rx _ => rfl
    | .sample _ => rfl
    | .delay _ => rfl
    | .log _ => rfl
  refine ⟨(wireFrom dc init).length, ?_⟩
  rw [← h.wire dc, h1, h2, last]
  simp

/-! ### What the environment's answers decide -/

/-- `State.CleanFor` of the environment alone. -/
def Env.CleanFor (env : Env) (d : Dialect) (evs : List Event) : Prop :=
  (∀ j, j < evs.countP Event.takesAck → env.ackAt j = .ok) ∧
    ∀ j, j < evs.countP Event.takesSample → env.sampleAt j = some (idleLevel d)

theorem Env.CleanFor.left {env : Env} {d : Dialect} {a b : List Event} (h : env.CleanFor d (a ++ b)) : env.CleanFor d a :=
  ⟨fun j hj => h.1 j (by simp; omega), fun j hj => h.2 j (by simp; omega)⟩

theorem Env.CleanFor.right {env : Env} {d : Dialect} {a b : List Event} (h : env.CleanFor d (a ++ b)) :
    (env.after a).CleanFor d b := by
  refine ⟨fun j hj => ?_, fun j hj => ?_⟩
  · rw [Env.after_ackAt]; exact h.1 _ (by simp; omega)
  · rw [Env.after_sampleAt]; exact h.2 _ (by simp; omega)

/-- Busy polls are answered where BUSY is busy at as many samples. -/
theorem answered_busyPolls {env : Env} {d : Dialect} {k : Nat} :
    Answered env (busyPolls d k) ↔ ∀ j, j < k → env.sampleAt j = some (busyLevelOf d) := by
  induction k generalizing env with
  | zero => simp [busyPolls, Answered]
  | succ k ih =>
    have two : (env.after [Event.sample (some (busyLevelOf d)), .delay 10]).sampleAt = fun j => env.sampleAt (1 + j) := by
      funext j
      rw [Env.after_sampleAt]
      rfl
    rw [busyPolls_succ, Answered.append, ih, two]
    simp only [Answered, and_true]
    refine ⟨fun ⟨h0, h⟩ j hj => ?_, fun h => ⟨h 0 (by omega), fun j hj => h _ (by omega)⟩⟩
    rcases j with _ | j
    · exact h0
    · rw [Nat.add_comm]; exact h j (by omega)

/-- Busy polls are not what an idle line answers. -/
theorem busyPolls_not_idle {env : Env} {d : Dialect} {k : Nat} {rest : List Event}
    (h : env.sampleAt 0 = some (idleLevel d)) (ha : Answered env (busyPolls d (k + 1) ++ rest)) : False := by
  have := answered_busyPolls.mp (Answered.append.mp ha).1 0 (Nat.succ_pos k)
  rw [h] at this
  exact idle_ne_busy d (Option.some.inj this)

theorem Piece.cleanEvents_takesAck {p : Straps} {d : Dialect} {x : Piece} {evs : List Event} (h : x.Done p d evs) :
    evs.countP Event.takesAck = (x.cleanEvents p d).countP Event.takesAck := by
  match x with
  | .item (.send _ _) => cases h; simp [Piece.cleanEvents]
  | .item .busyWait =>
    have busy : ∀ k, (busyPolls d k).countP Event.takesAck = 0 := fun k => by
      rw [List.countP_eq_zero]
      intro e he
      rcases busyPolls_mem he with rfl | rfl <;> simp [Event.takesAck]
    rcases h with ⟨k, -, rfl⟩ | rfl <;> simp [busy, Piece.cleanEvents, Event.takesAck]
  | .rst _ => cases h; rfl
  | .wait _ => cases h; rfl
  | .read _ => cases h; rfl

/-- A done piece that the environment answered cleanly has the clean events. -/
theorem Piece.Done.eq_clean {p : Straps} {d : Dialect} {x : Piece} {evs : List Event} {env : Env} (h : x.Done p d evs)
    (ha : Answered env evs) (hc : env.CleanFor d (x.cleanEvents p d)) : evs = x.cleanEvents p d := by
  match x with
  | .item (.send _ _) => cases h; simp [Piece.cleanEvents]
  | .item .busyWait =>
    have idle : env.sampleAt 0 = some (idleLevel d) := hc.2 0 (by simp [Piece.cleanEvents, Event.takesSample])
    rcases h with ⟨_ | k, -, rfl⟩ | rfl
    · simp [busyPolls, Piece.cleanEvents]
    · exact (busyPolls_not_idle idle ha).elim
    · exact (busyPolls_not_idle idle ha).elim
  | .rst _ => cases h; rfl
  | .wait _ => cases h; rfl
  | .read _ => cases h; rfl

/-- A done sequence that the environment answered cleanly has the clean events. -/
theorem Done.eq_clean {p : Straps} {d : Dialect} {xs : List Piece} {evs : List Event} {env : Env} (h : Done p d xs evs)
    (ha : Answered env evs) (hc : env.CleanFor d (cleanEvents p d xs)) : evs = cleanEvents p d xs := by
  induction xs generalizing evs env with
  | nil => exact h
  | cons x xs ih =>
    obtain ⟨a, b, rfl, h1, h2⟩ := h
    have ha := Answered.append.mp ha
    have e := h1.eq_clean ha.1 hc.left
    subst e
    exact congrArg _ (ih h2 ha.2 hc.right)

/-- How many answers to a `Drive` or `Tx`, and how many samples, a done sequence takes. -/
theorem Done.takesAck {p : Straps} {d : Dialect} {xs : List Piece} {evs : List Event} (h : Done p d xs evs) :
    evs.countP Event.takesAck = (cleanEvents p d xs).countP Event.takesAck := by
  induction xs generalizing evs with
  | nil => cases h; rfl
  | cons x xs ih =>
    obtain ⟨a, b, rfl, h1, h2⟩ := h
    rw [List.countP_append, Piece.cleanEvents_takesAck h1, ih h2, ← List.countP_append]
    rfl

theorem Piece.Done.takesSample {p : Straps} {d : Dialect} {x : Piece} {evs : List Event} (h : x.Done p d evs) :
    evs.countP Event.takesSample ≤ 500 * pollsOf [x] := by
  match x with
  | .item (.send _ _) =>
    cases h
    unfold byteEvents
    cases p.csMode <;> simp only <;> split <;> simp [Event.takesSample]
  | .item .busyWait =>
    rcases h with ⟨k, hk, rfl⟩ | rfl <;> rw [List.countP_append, busyPolls_takesSample] <;>
      simp [Event.takesSample, pollsOf, Bw]
    omega
  | .rst _ => cases h; simp [Event.takesSample]
  | .wait _ => cases h; simp [Event.takesSample]
  | .read _ =>
    cases h
    unfold probeReadEvents
    cases p.csMode <;> simp [Event.takesSample]

theorem Done.takesSample {p : Straps} {d : Dialect} {xs : List Piece} {evs : List Event} (h : Done p d xs evs) :
    evs.countP Event.takesSample ≤ 500 * pollsOf xs := by
  have := h.sum_le (f := List.countP Event.takesSample) rfl (fun _ _ => List.countP_append)
    fun _ _ _ hd => hd.takesSample
  refine this.trans (le_of_eq ?_)
  clear this h
  induction xs with
  | nil => rfl
  | cons x xs ih =>
    rw [List.map_cons, List.sum_cons, ih]
    simp only [pollsOf, List.count_cons, List.count_nil]
    omega

/-- Where no answer is a failure, no sequence is cut, whatever levels BUSY shows. -/
theorem Cut.impossible {k : MicroKind} {p : Straps} {d : Dialect} {xs : List Piece} {evs : List Event} {env : Env}
    (h : Cut k p d xs evs) (ha : Answered env evs)
    (acks : ∀ j, j < (cleanEvents p d xs).countP Event.takesAck → env.ackAt j = .ok)
    (samples : ∀ j, j < 500 * pollsOf xs → env.sampleAt j ≠ none) : False := by
  obtain ⟨init, e, rest, h, rfl, he⟩ := h
  rcases ha.fails he with ⟨ht, hf⟩ | ⟨rfl', hf⟩
  · rw [Event.failed_takesAck] at ht
    have := h.takesAck
    rw [acks _ (by rw [← this]; simp [ht])] at hf
    cases hf
  · have ht : e.takesSample = true := by rw [← Event.failed_takesSample, rfl']; rfl
    have := h.takesSample
    exact samples _ (by simp [ht] at this; omega) hf

/-- Nor where the environment answers cleanly. -/
theorem Cut.not_clean {k : MicroKind} {p : Straps} {d : Dialect} {xs : List Piece} {evs : List Event} {env : Env}
    (h : Cut k p d xs evs) (ha : Answered env evs) (hc : env.CleanFor d (cleanEvents p d xs)) : False := by
  obtain ⟨init, e, rest, h, rfl, he⟩ := h
  induction xs generalizing init env with
  | nil => simp [Done] at h
  | cons x xs ih =>
    obtain ⟨a, b, hab, h1, h2⟩ := h
    rcases List.append_eq_append_iff.mp hab with ⟨c, rfl, hc'⟩ | ⟨c, rfl, rfl⟩
    · -- the failing event is in the first piece
      cases c with
      | nil =>
        rw [List.append_nil] at h1
        have ha := Answered.append.mp ha
        have e1 := h1.eq_clean ha.1 hc.left
        exact ih (init := []) (hc := hc.right) (h := by rw [List.nil_append] at hc'; exact hc' ▸ h2) (ha := by simpa [e1] using ha.2)
      | cons e' c =>
        cases hc'
        rcases ha.fails he with ⟨ht, hf⟩ | ⟨hs, hf⟩
        · rw [Event.failed_takesAck] at ht
          have := Piece.cleanEvents_takesAck h1
          rw [hc.left.1 _ (by rw [← this]; simp [ht])] at hf
          cases hf
        · have ht : e.takesSample = true := by rw [← Event.failed_takesSample, hs]; rfl
          match x with
          | .item .busyWait =>
            have idle : env.sampleAt 0 = some (idleLevel d) :=
              hc.left.2 0 (by simp [Piece.cleanEvents, Event.takesSample])
            cases init with
            | nil => rw [show List.countP Event.takesSample [] = 0 from rfl, idle] at hf; cases hf
            | cons e0 init =>
              have e0busy : e0 = .sample (some (busyLevelOf d)) := by
                rcases h1 with ⟨_ | k, -, h⟩ | h
                · simp [busyPolls] at h
                · rw [busyPolls_succ] at h; exact (List.cons.inj h).1
                · rw [busyPolls_succ] at h; exact (List.cons.inj h).1
              subst e0busy
              have := ha.1
              rw [idle] at this
              exact idle_ne_busy d (Option.some.inj this)
          | .item (.send _ _) =>
            have := h1.takesSample
            simp [ht, pollsOf, Bw] at this
          | .rst _ => have := h1.takesSample; simp [ht, pollsOf, Bw] at this
          | .wait _ => have := h1.takesSample; simp [ht, pollsOf, Bw] at this
          | .read _ => have := h1.takesSample; simp [ht, pollsOf, Bw] at this
    · -- the first piece is done
      rw [List.append_assoc] at ha
      have ha := Answered.append.mp ha
      have e1 := h1.eq_clean ha.1 hc.left
      exact ih (init := c) (hc := hc.right) (h := h2) (ha := e1 ▸ ha.2)

/-- A sequence without a busy-wait can be done in one way. -/
theorem Done.eq_of_noPoll {p : Straps} {d : Dialect} {xs : List Piece} {evs : List Event} (h : Done p d xs evs)
    (hx : .item .busyWait ∉ xs) : evs = cleanEvents p d xs := by
  induction xs generalizing evs with
  | nil => exact h
  | cons x xs ih =>
    obtain ⟨a, b, rfl, h1, h2⟩ := h
    rw [ih h2 fun hm => hx (List.mem_cons_of_mem _ hm)]
    refine congrArg (· ++ _) ?_
    match x with
    | .item (.send _ _) => cases h1; simp [Piece.cleanEvents]
    | .item .busyWait => exact absurd (List.mem_cons_self ..) hx
    | .rst _ => cases h1; rfl
    | .wait _ => cases h1; rfl
    | .read _ => cases h1; rfl

theorem pollsOf_noPoll {xs : List Piece} (hx : .item .busyWait ∉ xs) : pollsOf xs = 0 := List.count_eq_zero.mpr hx

/-- What is answered at a `Drive` or a `Tx` that did not fail. -/
theorem Answered.ok {env : Env} {init rest : List Event} {e : Event} (h : Answered env (init ++ e :: rest))
    (ht : e.takesAck = true) (hf : e.failure = none) : env.ackAt (init.countP Event.takesAck) = .ok := by
  have h := (Answered.append.mp h).2.1
  match e with
  | .drive l v .ok => simpa using h
  | .tx b .ok => simpa using h
  | .drive l v .err => cases hf
  | .tx b .err => cases hf

/-! ### Sequences without a probe or a reset, in the spec's frames -/

theorem cleanEvents_append (p : Straps) (d : Dialect) (xs ys : List Piece) :
    cleanEvents p d (xs ++ ys) = cleanEvents p d xs ++ cleanEvents p d ys := by simp [cleanEvents]

theorem cleanEvents_items (p : Straps) (d : Dialect) (items : List SeqItem) :
    cleanEvents p d (items.map .item) = frameEvents p d items := by
  induction items with
  | nil => rfl
  | cons x xs ih =>
    have : cleanEvents p d ((x :: xs).map .item) = frameEvents p d [x] ++ cleanEvents p d (xs.map .item) := rfl
    rw [this, ih, ← frameEvents_append]
    rfl

end Sys2Proof.Machine
end

