-- ==== Sys2Proof/Laws/Exec.lean ====
section
/-! SUPPORT. How an operation begins and ends: the mode check, the OK completion with its ghost row, the abort. -/

namespace Sys2Proof.Machine

theorem operate_operational {s : State} (h : s.mode = .operational) (row : GhostRow) (body : State → Run) :
    s.operate row body = .next (s.settle row (body s)) := by simp [State.operate, State.guarded, h]

theorem operate_configFault {s : State} (h : s.mode = .configFault) (row : GhostRow) (body : State → Run) :
    s.operate row body = .next (s.raise .misconfiguration) := by simp [State.operate, State.guarded, h]

theorem answer_operational {s : State} (h : s.mode = .operational) (f : State → State) :
    s.answer f = .next (f s) := by simp [State.answer, State.guarded, h]

theorem answer_configFault {s : State} (h : s.mode = .configFault) (f : State → State) :
    s.answer f = .next (s.raise .misconfiguration) := by simp [State.answer, State.guarded, h]

/-- Updates of the ghost that keep the fault mark. -/
@[simp] theorem Ghost.panel_faultMark (g : Ghost) (p : Phase) (i : PanelImage) :
    (g.panel p i).faultMark = g.faultMark := rfl

@[simp] theorem Ghost.panel_phase (g : Ghost) (p : Phase) (i : PanelImage) : (g.panel p i).phase = p := rfl

@[simp] theorem Ghost.panel_image (g : Ghost) (p : Phase) (i : PanelImage) : (g.panel p i).image = i := rfl

@[simp] theorem Ghost.panel_oldSeqOk (g : Ghost) (p : Phase) (i : PanelImage) :
    (g.panel p i).oldSeqOk = g.oldSeqOk := rfl

@[simp] theorem Ghost.afterClean_faultMark (g : Ghost) (row : GhostRow) (trusted : Bool) (fb : Framebuffer) :
    (g.afterClean row trusted fb).faultMark = g.faultMark := by
  cases row <;> simp only [Ghost.afterClean] <;> (try split) <;> rfl

@[simp] theorem Ghost.atEnd_faultMark (g : Ghost) (row : GhostRow) (timedOut trusted : Bool) (fb : Framebuffer) :
    (g.atEnd row timedOut trusted fb).faultMark = g.faultMark := by
  unfold Ghost.atEnd; split <;> simp

@[simp] theorem Ghost.atAbort_faultMark (g : Ghost) : g.atAbort.faultMark = true := rfl

/-- The end of an operation that ran to its end. -/
theorem settle_ok (s t : State) (row : GhostRow) :
    s.settle row (.ok t) =
      ((t.setGhost (t.ghost.atEnd row (decide (timeouts s.trace < timeouts t.trace)) t.trusted t.fb)).retire).respond
        statusOk 0x00#8 := rfl

/-- The abort of an operation (R210, R211). -/
theorem settle_abort (s t : State) (row : GhostRow) (k : MicroKind) :
    s.settle row (.abort k t) = ((t.setGhost t.ghost.atAbort).retire).respond 0x01#8 k.code := rfl

/-- What an operation that ran to its end leaves. -/
theorem settle_completed {s t : State} {evs : List Event} (row : GhostRow) (h : Follows s t evs) :
    Completed s (s.settle row (.ok t)) t.dialect evs where
  history := h.history
  completions := by rw [settle_ok]; simp [h.completions, completionWord, statusOk]
  lines := by rw [settle_ok]; exact h.lines
  env := by rw [settle_ok]; exact h.env
  dialect := rfl
  sp := rfl
  straps := by rw [settle_ok]; exact h.straps
  mode := by rw [settle_ok]; exact h.mode
  fb := by rw [settle_ok]; exact h.fb
  requests := by rw [settle_ok]; exact h.requests
  faultMark := by rw [settle_ok]; simp [h.ghost]

end Sys2Proof.Machine
end

