-- ==== Sys2Proof/Laws/Sequences.lean ====
section
/-! SUPPORT. The parts of INIT, DISPLAY and PANEL_CLEAR as sequences of the spec (spec/43_driver_sequences.md): the two
columns in the spec's own words, and what each part performs. -/

namespace Sys2Proof.Machine

/-! ### The columns in the spec's words -/

theorem column_black (p : Straps) (d : Dialect) : (column p d).blackWrite = blackCommand d := by cases d <;> rfl

theorem column_red (p : Straps) (d : Dialect) : (column p d).redWrite = redCommand d := by cases d <;> rfl

theorem column_rehome (p : Straps) (d : Dialect) : sends (column p d).tail.rehomeSeq = rehomeSequence p d := by
  cases d <;> rfl

theorem column_sleep (p : Straps) (d : Dialect) : sends (column p d).tail.sleepSeq = sleepSequence p d := by cases d <;> rfl

theorem column_shutdown (p : Straps) (d : Dialect) : (column p d).tail.shutdownSeq = shutdownSequence p d := by
  cases d <;> rfl

/-- The configuration block of the New column is the spec's (R142). -/
theorem configBlock_new (g : Geometry) : configBlock (newTail g) = configFrames g := rfl

/-- The bytes of the Old column are those of the New one under `OldAsNew`. -/
theorem sequences_oldAsNew {p : Straps} (h : OldAsNew p) :
    oldConfigFrames p = configFrames p.geometry ∧ rehomeSequence p .old = rehomeFrames ∧
      (∀ b, redOnWire p .old b = ~~~b) ∧ sleepSequence p .old = [C 0x10#8, D 0x03#8] ∧
      shutdownSequence p .old = [C 0x02#8, Bw, C 0x10#8, D 0x01#8, Bw] := by
  unfold oldConfigFrames rehomeSequence redOnWire sleepSequence shutdownSequence
  rw [show p.oldTail = newTail p.geometry from h]
  exact ⟨rfl, rfl, fun _ => rfl, rfl, rfl⟩

/-! ### The parts -/

theorem State.column_eq (s : State) : s.column = Machine.column s.straps s.dialect := rfl

/-- REHOME (R135). -/
theorem rehome_performs (s : State) : (rehome s).Performs s ((rehomeSequence s.straps s.dialect).map .item) := by
  rw [← column_rehome]
  exact runItems_performs _ s

/-- What a plane write streams (R94, R143). -/
theorem redDataByte_eq (src : PlaneSource) (s : State) (d : Dialect) :
    redDataByte (Machine.column s.straps d).tail.redInvert src s = fun i => redOnWire s.straps d (streamed s .red src i) := by
  funext i
  cases d <;> cases src <;> rfl

theorem blackDataByte_eq (src : PlaneSource) (s : State) : blackDataByte src s = streamed s .black src := by
  funext i
  cases src <;> rfl

/-- The image transfer and the refresh (R143, R144). -/
theorem transfer_performs (src : PlaneSource) (s : State) :
    (transfer src s).Performs s
      ((imageSequence s.straps s.dialect (streamed s .black src) (streamed s .red src)).map .item) := by
  unfold imageSequence
  simp only [List.map_append, List.append_assoc]
  refine (rehome_performs s).andThen fun t1 _ r1 => ?_
  have c1 := r1.column
  rw [← r1.straps, ← r1.same, ← column_black, ← column_red]
  have plane1 := sendPlane_performs t1.column.blackWrite (f := blackDataByte src) (blackDataByte_fb src) t1
  rw [blackDataByte_fb src s t1 r1.fb, blackDataByte_eq] at plane1
  refine plane1.andThen fun t2 _ r2 => ?_
  have f2 : t2.fb = s.fb := r2.fb.trans r1.fb
  rw [← r2.straps, ← r2.same]
  have plane2 := sendPlane_performs t2.column.redWrite (f := redDataByte t2.column.tail.redInvert src)
    (redDataByte_fb _ src) t2
  rw [redDataByte_fb _ src s t2 f2, show t2.column = Machine.column s.straps s.dialect from r2.column.trans r1.column,
    redDataByte_eq] at plane2
  rw [show t2.straps = s.straps from r2.straps.trans r1.straps, show t2.dialect = s.dialect from r2.same.trans r1.same]
  rw [show t2.straps = s.straps from r2.straps.trans r1.straps] at plane2
  refine Run.Performs.andThen (r := sendPlane t2.column.redWrite _ t2) ?_ fun t3 _ r3 => ?_
  · rw [show t2.column = Machine.column s.straps s.dialect from r2.column.trans r1.column]
    exact plane2
  · rw [show s.dialect = t3.dialect from (r3.same.trans (r2.same.trans r1.same)).symm]
    exact turnOn_performs t3

/-- The power-on step and the configuration block of INIT (R140, R142). -/
theorem configure_performs (s : State) :
    ((powerOn s).andThen config).Performs s ((initSequence s.straps s.dialect).map .item) := by
  have block : ∀ t : State, (config t).Performs t ((configBlock t.column.tail).map .item) := fun t =>
    runItems_performs _ t
  unfold powerOn
  rw [State.column_eq]
  cases hd : s.dialect with
  | new =>
    have := block s
    rw [State.column_eq, hd] at this
    exact this
  | old =>
    refine Run.Performs.andThen (xs := [.item (C 0x04#8), .item Bw]) ?_ fun t _ r => ?_
    · exact (sendByte_performs .low 0x04#8 s).andThen fun t _ _ => readBusy_performs t
    · have := block t
      rw [r.column, State.column_eq, hd] at this
      exact this

end Sys2Proof.Machine
end

