-- ==== Sys2Proof/Laws/Driver.lean ====
section
/-! SUPPORT. Every instruction that emits events, in one form (`exec_plays`): a driver operation that does its sequence of
Safety.lean, or is cut at its first failing micro-operation. -/

namespace Sys2Proof.Machine

/-- The row of R246 of each instruction. -/
def ghostRow : Instr → GhostRow
  | .readBusy => .unchanged
  | .init => .init
  | .display => .display
  | .panelClear => .panelClear
  | .sleep => .sleep
  | .powerOffAndDeepSleep => .shutdown
  | _ => .raw

/-- The micro-operations of each instruction; a framebuffer request has none. -/
def bodyOf (i : Instr) (s : State) : Run :=
  match i with
  | .fbClear _ => .ok s
  | .fbSetPixel _ _ _ => .ok s
  | .fbRead _ _ => .ok s
  | .reset => resetPulse s
  | .sendCommand b => sendByte .low b s
  | .sendData b => sendByte .high b s
  | .readBusy => readBusy s
  | .turnOnDisplay => turnOn s
  | .init => initBody s
  | .display => transfer .framebuffer s
  | .panelClear => (transfer .white s).andThen readBusy
  | .sleep => (runItems (sends s.column.tail.sleepSeq) s).andThen fun s => .ok (pause tSleepSettle s)
  | .powerOffAndDeepSleep => runItems s.column.tail.shutdownSeq s
  | .wSwReset => runItems (sends frameSwReset ++ [.busyWait]) s
  | .wBorderWaveform => runItems (sends frameBorderWaveform) s
  | .wTempSensor => runItems (sends frameTempSensor) s
  | .wDataEntryMode => runItems (sends frameDataEntryMode) s
  | .wRamXWindow => runItems (sends (frameRamXWindow s.straps.geometry)) s
  | .wRamYWindow => runItems (sends (frameRamYWindow s.straps.geometry)) s
  | .wRamXCounter => runItems (sends frameRamXCounter) s
  | .wRamYCounter => runItems (sends frameRamYCounter) s
  | .wWriteBlack src => sendPlane 0x24#8 (blackDataByte src) s
  | .wWriteRed src => sendPlane 0x26#8 (redDataByte true src) s
  | .wActivation => runItems (sends frameActivation) s
  | .wMasterActivate => runItems (sends frameMasterActivate ++ [.busyWait]) s
  | .wDeepSleep mode => (runItems (sends (frameDeepSleep mode)) s).andThen (afterDeepSleep mode)
  | .wPowerOff => runItems (sends framePowerOff ++ [.busyWait]) s
  | .wDetect => detect s
  | .wOldWriteBlack src => sendPlane 0x10#8 (blackDataByte src) s
  | .wOldWriteRed src => sendPlane 0x13#8 (redDataByte s.straps.oldTail.redInvert src) s
  | .wOldPowerOn => runItems (sends frameOldPowerOn ++ [.busyWait]) s
  | .wOldRefresh => runItems (sends frameOldRefresh ++ [.busyWait]) s

/-- Every instruction that emits events is a driver operation. -/
theorem exec_driver (i : Instr) (s : State) (h : (access i).events = true) :
    exec i s = s.operate (ghostRow i) (bodyOf i) := by
  cases i <;> first | rfl | cases h

/-- The sequence of every instruction but INIT, whose probe may change the dialect. -/
theorem bodyOf_performs (i : Instr) (s : State) (h : (access i).events = true) (hi : i ≠ .init) :
    (bodyOf i s).Performs s (sequenceOf i s s.dialect) := by
  have plane : ∀ (cmd : Byte) {f g : Nat → Byte} {F : State → Nat → Byte}, F s = f → g = f →
      (∀ s t : State, t.fb = s.fb → F t = F s) →
      (sendPlane cmd F s).Performs s ((planeFrame cmd (planeBytes s.straps.geometry) g).map .item) := by
    rintro cmd f g F rfl rfl hF
    exact sendPlane_performs cmd hF s
  cases i with
  | fbClear _ => cases h
  | fbSetPixel _ _ _ => cases h
  | fbRead _ _ => cases h
  | reset => exact resetPulse_performs s
  | sendCommand b => exact sendByte_performs .low b s
  | sendData b => exact sendByte_performs .high b s
  | readBusy => exact readBusy_performs s
  | turnOnDisplay => exact turnOn_performs s
  | init => exact absurd rfl hi
  | display => exact transfer_performs .framebuffer s
  | panelClear =>
    have e : sequenceOf .panelClear s s.dialect =
        (imageSequence s.straps s.dialect (streamed s .black .white) (streamed s .red .white)).map .item ++ [.item Bw] :=
      List.map_append
    rw [e]
    exact (transfer_performs .white s).andThen fun t _ _ => readBusy_performs t
  | sleep =>
    refine Run.Performs.andThen ?_ fun t _ _ => .afterPause (by decide) (.nil _)
    rw [State.column_eq, column_sleep]
    exact runItems_performs _ s
  | powerOffAndDeepSleep =>
    show (runItems s.column.tail.shutdownSeq s).Performs s _
    rw [State.column_eq, column_shutdown]
    exact runItems_performs _ s
  | wDeepSleep mode =>
    cases mode with
    | ordinary =>
      exact (runItems_performs (sends (frameDeepSleep .ordinary)) s).andThen (ys := [.wait 2000])
        fun t _ _ => .afterPause (by decide) (.nil _)
    | persistent =>
      exact (runItems_performs (sends (frameDeepSleep .persistent)) s).andThen (ys := [.item Bw])
        fun t _ _ => readBusy_performs t
  | wDetect => exact detect_performs s
  | wWriteBlack src => exact plane 0x24#8 (blackDataByte_eq src s) rfl (blackDataByte_fb src)
  | wWriteRed src => exact plane 0x26#8 (redDataByte_eq src s .new) rfl (redDataByte_fb true src)
  | wOldWriteBlack src => exact plane 0x10#8 (blackDataByte_eq src s) rfl (blackDataByte_fb src)
  | wOldWriteRed src => exact plane 0x13#8 (redDataByte_eq src s .old) rfl (redDataByte_fb _ src)
  | _ => exact runItems_performs _ s

/-- The result is the sequence done under dialect `d`, which the flag then has; or the sequence cut, under `d` and under
the dialect the flag then has. -/
def Run.Plays (r : Run) (s : State) (d : Dialect) (pieces : Dialect → List Piece) : Prop :=
  match r with
  | .ok t => ∃ evs, Follows s t evs ∧ t.dialect = d ∧ Done s.straps d (pieces d) evs
  | .abort k t => ∃ evs, Follows s t evs ∧ (t.dialect = s.dialect ∨ t.dialect = d) ∧
      ∀ e, e = d ∨ e = t.dialect → Cut k s.straps e (pieces e) evs

theorem Run.Performs.plays {r : Run} {s : State} {xs : Dialect → List Piece} (h : r.Performs s (xs s.dialect)) :
    r.Plays s s.dialect xs := by
  cases r with
  | ok t => obtain ⟨evs, r, d⟩ := h; exact ⟨evs, r.toFollows, r.same, d⟩
  | abort k t =>
    obtain ⟨evs, r, c⟩ := h
    refine ⟨evs, r.toFollows, .inl r.same, fun e he => ?_⟩
    rw [show e = s.dialect from he.elim id (·.trans r.same)]
    exact c

/-- The pulse and the detection poll nothing, so their events are the same under either dialect. -/
theorem resetPieces_noPoll (p : Straps) : Piece.item .busyWait ∉ resetPieces p := by simp [resetPieces]

theorem detectPieces_noPoll (s : State) : Piece.item .busyWait ∉ detectPieces s := by simp [detectPieces, C]

/-- A part that does not poll and leaves the flag, then one that plays under dialect `d`. -/
theorem Run.Performs.andPlays {r : Run} {f : State → Run} {s : State} {d : Dialect} {xs : List Piece}
    {ys : Dialect → List Piece} (h : r.Performs s xs) (hx : .item .busyWait ∉ xs)
    (k : ∀ t evs, Ran s t evs → Done s.straps s.dialect xs evs → (f t).Plays t d ys) :
    (r.andThen f).Plays s d fun e => xs ++ ys e := by
  cases r with
  | abort kind t =>
    obtain ⟨evs, hr, c⟩ := h
    exact ⟨evs, hr.toFollows, .inl hr.same, fun e _ => (c.dialect hx).append_left⟩
  | ok t =>
    obtain ⟨evs, hr, hd⟩ := h
    have k := k t evs hr hd
    show (f t).Plays s d _
    cases hf : f t with
    | ok u =>
      rw [hf] at k
      obtain ⟨evs', hf', hu, d'⟩ := k
      rw [hr.straps] at d'
      exact ⟨_, hr.toFollows.trans hf', hu, (hd.dialect hx).append d'⟩
    | abort kind u =>
      rw [hf] at k
      obtain ⟨evs', hf', hu, c'⟩ := k
      rw [hr.straps] at c'
      exact ⟨_, hr.toFollows.trans hf', hr.same ▸ hu, fun e he => (c' e he).append_right (hd.dialect hx)⟩

/-- The verdict in the words of R141. -/
theorem probeVerdict_eq (s : State) : probeVerdict s.straps (s.env.readAt 0) = s.verdict := rfl

theorem Done.noRead {p : Straps} {d : Dialect} {evs : List Event} (h : Done p d (resetPieces p) evs) :
    evs.countP Event.takesRead = 0 := by
  have := h.sum_le (f := List.countP Event.takesRead) (bound := fun _ => 0) rfl (fun _ _ => List.countP_append) (by
    intro x hx a ha
    simp only [resetPieces, List.mem_cons, List.not_mem_nil, or_false] at hx
    rcases hx with rfl | rfl | rfl | rfl | rfl | rfl <;> cases ha <;> exact Nat.le_refl 0)
  simpa [resetPieces] using this

/-- INIT (R140): the dialect of its sequence is the verdict's under the Probe strap. -/
theorem initBody_plays (s : State) : (initBody s).Plays s (s.dialectAfter .init) (sequenceOf .init s) := by
  have after : s.dialectAfter .init = if s.straps.dialectCfg = .probe then s.verdict else s.dialect := by
    simp [State.dialectAfter]
  have pieces : sequenceOf .init s = fun d => resetPieces s.straps ++
      ((if s.straps.dialectCfg = .probe then detectPieces s else []) ++ (initSequence s.straps d).map .item) := by
    funext d
    exact List.append_assoc ..
  rw [pieces]
  refine (resetPulse_performs s).andPlays (resetPieces_noPoll _) fun t evs r hd => ?_
  have env : t.env.readAt 0 = s.env.readAt 0 := by rw [r.env, Env.after_readAt, hd.noRead]
  unfold probeStep
  rw [r.straps, after]
  by_cases hp : s.straps.dialectCfg = .probe
  · have pieces : detectPieces s = detectPieces t := by unfold detectPieces; rw [env]
    have verdict : s.verdict = t.verdict := by unfold State.verdict; rw [env, r.straps]
    simp only [hp, if_true]
    rw [pieces, verdict]
    have assoc : (probe t).andThen (fun s => (powerOn s).andThen config) =
        (detect t).andThen fun u => (powerOn (u.setDialect t.verdict)).andThen config := by
      unfold probe
      cases detect t <;> rfl
    rw [assoc]
    refine (detect_performs t).andPlays (detectPieces_noPoll _) fun u evs' r' _ => ?_
    have k := (configure_performs (u.setDialect t.verdict)).plays
      (xs := fun d => (initSequence (u.setDialect t.verdict).straps d).map .item)
    rw [show (u.setDialect t.verdict).straps = s.straps from r'.straps.trans r.straps] at k
    have flag : Follows u (u.setDialect t.verdict) [] := (Follows.refl u).setDialect _
    generalize (powerOn (u.setDialect t.verdict)).andThen config = body at k
    cases body with
    | ok v => obtain ⟨evs, hf, hv, d⟩ := k; exact ⟨evs, flag.trans hf, hv, d⟩
    | abort kind v => obtain ⟨evs, hf, hv, c⟩ := k; exact ⟨evs, flag.trans hf, .inr (hv.elim id id), c⟩
  · simp only [hp, if_false, List.nil_append]
    have k := (configure_performs t).plays (xs := fun d => (initSequence t.straps d).map .item)
    rw [r.straps, r.same] at k
    exact k

/-- Every instruction plays its sequence. -/
theorem bodyOf_plays (i : Instr) (s : State) (h : (access i).events = true) :
    (bodyOf i s).Plays s (s.dialectAfter i) (sequenceOf i s) := by
  by_cases hi : i = .init
  · subst hi; exact initBody_plays s
  · have : s.dialectAfter i = s.dialect := by simp [State.dialectAfter, hi]
    rw [this]
    exact (bodyOf_performs i s h hi).plays

/-- EVERYTHING AN INSTRUCTION THAT EMITS EVENTS CAN DO in an operational core: its sequence done, with its ghost row and OK;
or cut, and aborted. -/
theorem exec_plays {i : Instr} {s t : State} (h : (access i).events = true) (hm : s.mode = .operational)
    (he : exec i s = .next t) :
    ∃ u evs, Follows s u evs ∧
      ((Done s.straps (s.dialectAfter i) (sequenceOf i s (s.dialectAfter i)) evs ∧ u.dialect = s.dialectAfter i ∧
          t = s.settle (ghostRow i) (.ok u)) ∨
        ∃ k, (∀ e, e = s.dialectAfter i ∨ e = u.dialect → Cut k s.straps e (sequenceOf i s e) evs) ∧
          (u.dialect = s.dialect ∨ u.dialect = s.dialectAfter i) ∧ t = s.settle (ghostRow i) (.abort k u)) := by
  have hs := bodyOf_plays i s h
  rw [exec_driver i s h, operate_operational hm] at he
  cases he
  cases hb : bodyOf i s with
  | ok u => rw [hb] at hs; obtain ⟨evs, h1, h2, h3⟩ := hs; exact ⟨u, evs, h1, .inl ⟨h3, h2, rfl⟩⟩
  | abort k u => rw [hb] at hs; obtain ⟨evs, h1, h2, h3⟩ := hs; exact ⟨u, evs, h1, .inr ⟨k, h3, h2, rfl⟩⟩

/-- The pieces of each instruction are those its row of the access matrix allows. -/
theorem sequenceOf_allowed (i : Instr) (s : State) (d : Dialect) : ∀ x ∈ sequenceOf i s d, x.AllowedBy (access i) := by
  have items : ∀ (a : Access) (items : List SeqItem), a.dcCs = true → ∀ x ∈ items.map Piece.item, x.AllowedBy a := by
    intro a items ha x hx
    obtain ⟨y, -, rfl⟩ := List.mem_map.mp hx
    cases y
    · exact ha
    · exact trivial
  have reset : ∀ (a : Access) (p : Straps), a.rst = true → ∀ x ∈ resetPieces p, x.AllowedBy a := by
    intro a p ha x hx
    simp only [resetPieces, List.mem_cons, List.not_mem_nil, or_false] at hx
    rcases hx with rfl | rfl | rfl | rfl | rfl | rfl <;> first | exact ha | exact trivial
  have detect : ∀ (a : Access), a.dcCs = true → ∀ x ∈ detectPieces s, x.AllowedBy a := by
    intro a ha x hx
    simp only [detectPieces, List.mem_cons, List.not_mem_nil, or_false] at hx
    rcases hx with rfl | rfl | rfl <;> first | exact ha | exact trivial
  cases i with
  | fbClear _ => intro x hx; cases hx
  | fbSetPixel _ _ _ => intro x hx; cases hx
  | fbRead _ _ => intro x hx; cases hx
  | reset => exact reset _ _ rfl
  | readBusy => intro x hx; cases List.mem_singleton.mp hx; trivial
  | sendCommand _ => intro x hx; cases List.mem_singleton.mp hx; rfl
  | sendData _ => intro x hx; cases List.mem_singleton.mp hx; rfl
  | init =>
    intro x hx
    rcases List.mem_append.mp hx with hx | hx
    · rcases List.mem_append.mp hx with hx | hx
      · exact reset accessInit _ rfl x hx
      · split at hx
        · exact detect accessInit rfl x hx
        · cases hx
    · exact items accessInit _ rfl x hx
  | sleep =>
    intro x hx
    rcases List.mem_append.mp hx with hx | hx
    · exact items accessSend _ rfl x hx
    · cases List.mem_singleton.mp hx; trivial
  | wDeepSleep mode =>
    cases mode
    · intro x hx
      simp only [sequenceOf, List.mem_cons, List.not_mem_nil, or_false] at hx
      rcases hx with rfl | rfl | rfl <;> first | rfl | trivial
    · exact items accessSend _ rfl
  | wDetect => exact detect _ rfl
  | _ => exact items accessSend _ rfl

/-- The two ways an instruction that emits events ends, in the terms of the access matrix. -/
theorem exec_driver_ends {i : Instr} {s t : State} (h : (access i).events = true)
    (hm : s.mode = .operational) (he : exec i s = .next t) :
    (∃ u evs, Follows s u evs ∧ u.dialect = s.dialectAfter i ∧
      (∀ e ∈ evs, e.failure = none ∧ (access i).Allows s.straps e) ∧ t = s.settle (ghostRow i) (.ok u)) ∨
    (∃ u k evs e, Follows s u (evs ++ [e]) ∧ (u.dialect = s.dialect ∨ u.dialect = s.dialectAfter i) ∧
      (∀ e ∈ evs, e.failure = none ∧ (access i).Allows s.straps e) ∧
      e.failure = some k ∧ (access i).Allows s.straps e ∧ t = s.settle (ghostRow i) (.abort k u)) := by
  obtain ⟨u, evs, hf, ⟨hd, hu, ht⟩ | ⟨k, hc, hu, ht⟩⟩ := exec_plays h hm he
  · exact .inl ⟨u, evs, hf, hu, hd.allowed (sequenceOf_allowed i s _), ht⟩
  · obtain ⟨init, last, rfl, h1, h2, h3⟩ := (hc _ (.inl rfl)).allowed (sequenceOf_allowed i s _)
    exact .inr ⟨u, k, init, last, hf, hu, h1, h2, h3, ht⟩

/-- What a step of an instruction appends to the trace, under the dialect the flag then has. -/
theorem exec_appends {i : Instr} {s t : State} (hev : (access i).events = true) (he : exec i s = .next t) :
    ∃ evs, t.history = s.history ++ evs ∧ (evs = [] ∨ Done s.straps t.dialect (sequenceOf i s t.dialect) evs ∨
      ∃ k, Cut k s.straps t.dialect (sequenceOf i s t.dialect) evs) := by
  cases hm : s.mode with
  | operational =>
    obtain ⟨u, evs, hf, ⟨hd, hu, rfl⟩ | ⟨k, hc, -, rfl⟩⟩ := exec_plays hev hm he
    · rw [← hu] at hd
      exact ⟨evs, hf.history, .inr (.inl hd)⟩
    · exact ⟨evs, hf.history, .inr (.inr ⟨k, hc _ (.inr rfl)⟩)⟩
  | configFault =>
    rw [exec_driver i s hev, operate_configFault hm] at he
    cases he
    exact ⟨[], by simp [State.history, State.raise], .inl rfl⟩

/-- What an instruction's pieces weigh bounds what its step appends to the trace. -/
theorem exec_weight {i : Instr} {s t : State} (w : Weight) (hev : (access i).events = true) (he : exec i s = .next t) :
    ∃ evs, t.history = s.history ++ evs ∧ w.sum evs ≤ w.pieces s.straps (sequenceOf i s t.dialect) := by
  obtain ⟨evs, h, rfl | h' | ⟨k, h'⟩⟩ := exec_appends hev he
  · exact ⟨_, h, Nat.zero_le _⟩
  · exact ⟨_, h, h'.weight w⟩
  · exact ⟨_, h, h'.weight w⟩

theorem exec_length {i : Instr} {s t : State} (hev : (access i).events = true) (he : exec i s = .next t) :
    t.trace.length ≤ s.trace.length + Weight.length.pieces s.straps (sequenceOf i s t.dialect) := by
  obtain ⟨evs, h, hb⟩ := exec_appends hev he
  have hl : t.trace.length = s.trace.length + evs.length := by
    have := congrArg List.length h
    simpa [State.history] using this
  rw [hl]
  rcases hb with rfl | hb | ⟨k, hb⟩
  · exact Nat.add_le_add_left (Nat.zero_le _) _
  · exact Nat.add_le_add_left hb.length_le _
  · exact Nat.add_le_add_left hb.length_le _

/-- FB_CLEAR in an operational core (R111). -/
theorem exec_fbClear {s : State} (hm : s.mode = .operational) (c : BitVec 2) :
    exec (.fbClear c) s = .next (if c = 0b01#2 then s.raise .illegalRequest
      else s.answerOk (Framebuffer.cleared (planeBytes s.straps.geometry) c)) := answer_operational hm _

/-- FB_SET_PIXEL in an operational core (R112). -/
theorem exec_fbSetPixel {s : State} (hm : s.mode = .operational) (x y : BitVec 16) (c : BitVec 2) :
    exec (.fbSetPixel x y c) s = .next (if c = 0b01#2 then s.raise .illegalRequest
      else if pixelInRange s.straps.geometry x y then s.answerOk (s.fb.setPixel s.straps.geometry x y c)
      else s.answerOk s.fb) := answer_operational hm _

/-- FB_READ in an operational core (R113). -/
theorem exec_fbRead {s : State} (hm : s.mode = .operational) (p : Plane) (index : BitVec 32) :
    exec (.fbRead p index) s = .next (if index.toNat < planeBytes s.straps.geometry
      then s.respond statusOk (s.fb.read p index.toNat) else s.raise .illegalRequest) := answer_operational hm _

/-- Any instruction in a misconfigured core (R205). -/
theorem exec_configFault {s : State} (h : s.mode = .configFault) (i : Instr) :
    exec i s = .next (s.raise .misconfiguration) := by
  cases i <;> first | exact operate_configFault h _ _ | exact answer_configFault h _

/-- An instruction that emits nothing (a framebuffer request, or anything in a misconfigured core) changes the planes and
the completions at most. -/
theorem exec_quiet {i : Instr} {s t : State} (h : exec i s = .next t)
    (hn : s.mode = .operational → (access i).events = false) :
    ∃ fb w, t = { s with fb := fb, completions := w :: s.completions } := by
  have both : s.mode = .configFault ∨ s.mode = .operational := by cases s.mode <;> simp
  rcases both with hm | hm
  · rw [exec_configFault hm] at h; cases h; exact ⟨s.fb, _, rfl⟩
  · have hev := hn hm
    cases i with
    | fbClear c =>
      rw [exec_fbClear hm] at h
      cases h
      split
      · exact ⟨s.fb, _, rfl⟩
      · exact ⟨_, _, rfl⟩
    | fbSetPixel x y c =>
      rw [exec_fbSetPixel hm] at h
      cases h
      split
      · exact ⟨s.fb, _, rfl⟩
      · split
        · exact ⟨_, _, rfl⟩
        · exact ⟨s.fb, _, rfl⟩
    | fbRead p index =>
      rw [exec_fbRead hm] at h
      cases h
      split
      · exact ⟨s.fb, _, rfl⟩
      · exact ⟨s.fb, _, rfl⟩
    | _ => cases hev

/-- Every instruction answers a next state. -/
theorem exec_next (i : Instr) (s : State) : ∃ t, exec i s = .next t := by cases i <;> exact ⟨_, rfl⟩

end Sys2Proof.Machine
end

