-- ==== Sys2Proof/Laws/Alike.lean ====
section
/-! SUPPORT. What the operations do not read: two states that differ only in the ghost, in the dead transient registers and
as far as a relation `R` lets them in the framebuffer (`Alike R`) are taken by each shared operation to results that differ
only there. -/

namespace Sys2Proof.Machine

/-- `t` is `s` but for the ghost, the transient registers and, within `R`, the framebuffer. -/
structure Alike (R : Framebuffer → Framebuffer → Prop) (s t : State) : Prop where
  straps      : t.straps = s.straps
  mode        : t.mode = s.mode
  fb          : R s.fb t.fb
  dialect     : t.dialect = s.dialect
  lines       : t.lines = s.lines
  sp          : t.seq.sp = s.seq.sp
  trace       : t.trace = s.trace
  requests    : t.requests = s.requests
  completions : t.completions = s.completions
  env         : t.env = s.env

theorem Alike.refl {R : Framebuffer → Framebuffer → Prop} (hR : ∀ fb, R fb fb) (s : State) : Alike R s s :=
  ⟨rfl, rfl, hR _, rfl, rfl, rfl, rfl, rfl, rfl, rfl⟩

variable {R : Framebuffer → Framebuffer → Prop}

/-- Results that differ only as `Alike` states may. -/
inductive Run.Alike (R : Framebuffer → Framebuffer → Prop) : Run → Run → Prop
  | ok {s t : State} (h : Machine.Alike R s t) : Run.Alike R (.ok s) (.ok t)
  | abort {k : MicroKind} {s t : State} (h : Machine.Alike R s t) : Run.Alike R (.abort k s) (.abort k t)

theorem Alike.emit {s t : State} (h : Alike R s t) (e : Event) : Alike R (s.emit e) (t.emit e) :=
  ⟨h.1, h.2, h.3, h.4, h.5, h.6, by simp [h.trace], h.8, h.9, h.10⟩

theorem Alike.setLatch {s t : State} (h : Alike R s t) (l : Line) (v : Latch) : Alike R (s.setLatch l v) (t.setLatch l v) :=
  ⟨h.1, h.2, h.3, h.4, by simp [h.lines], h.6, h.7, h.8, h.9, h.10⟩

theorem Alike.drawAck {s t : State} (h : Alike R s t) : Alike R s.drawAck t.drawAck :=
  ⟨h.1, h.2, h.3, h.4, h.5, h.6, h.7, h.8, h.9, by simp [State.drawAck, h.env]⟩

theorem Alike.drawRead {s t : State} (h : Alike R s t) : Alike R s.drawRead t.drawRead :=
  ⟨h.1, h.2, h.3, h.4, h.5, h.6, h.7, h.8, h.9, by simp [State.drawRead, h.env]⟩

theorem Alike.drawSample {s t : State} (h : Alike R s t) : Alike R s.drawSample t.drawSample :=
  ⟨h.1, h.2, h.3, h.4, h.5, h.6, h.7, h.8, h.9, by simp [State.drawSample, h.env]⟩

theorem Alike.setFbAddr {s t : State} (h : Alike R s t) (n m : Nat) : Alike R (s.setFbAddr n) (t.setFbAddr m) :=
  ⟨h.1, h.2, h.3, h.4, h.5, h.6, h.7, h.8, h.9, h.10⟩

theorem Alike.setPollCnt {s t : State} (h : Alike R s t) (n m : Nat) : Alike R (s.setPollCnt n) (t.setPollCnt m) :=
  ⟨h.1, h.2, h.3, h.4, h.5, h.6, h.7, h.8, h.9, h.10⟩

theorem Alike.setDialect {s t : State} (h : Alike R s t) (d : Dialect) : Alike R (s.setDialect d) (t.setDialect d) :=
  ⟨h.1, h.2, h.3, rfl, h.5, h.6, h.7, h.8, h.9, h.10⟩

theorem Alike.column {s t : State} (h : Alike R s t) : t.column = s.column := by
  unfold State.column; rw [h.straps, h.dialect]

theorem Alike.pause {s t : State} (h : Alike R s t) (ms : Nat) : Alike R (pause ms s) (pause ms t) := by
  unfold Machine.pause; split
  · exact h
  · exact h.emit _

theorem Run.Alike.andThen {r r' : Run} {f g : State → Run} (h : Run.Alike R r r')
    (k : ∀ s t, Machine.Alike R s t → Run.Alike R (f s) (g t)) : Run.Alike R (r.andThen f) (r'.andThen g) := by
  cases h with
  | ok h => exact k _ _ h
  | abort h => exact .abort h

theorem drive_alike {s t : State} (h : Alike R s t) (l : Line) (v : Level) : Run.Alike R (drive l v s) (drive l v t) := by
  unfold drive
  rw [h.straps, h.env]
  split
  · exact .ok h
  · split
    · exact .ok ((h.drawAck.setLatch _ _).emit _)
    · exact .abort ((h.drawAck.setLatch _ _).emit _)

theorem transmit_alike {s t : State} (h : Alike R s t) (b : Byte) : Run.Alike R (transmit b s) (transmit b t) := by
  unfold transmit
  rw [h.env]
  split
  · exact .ok (h.drawAck.emit _)
  · exact .abort (h.drawAck.emit _)

theorem sendByte_alike {s t : State} (h : Alike R s t) (dc : Level) (b : Byte) :
    Run.Alike R (sendByte dc b s) (sendByte dc b t) :=
  (drive_alike h _ _).andThen fun _ _ h => (drive_alike h _ _).andThen fun _ _ h =>
    (transmit_alike h _).andThen fun _ _ h => (drive_alike h _ _).andThen fun _ _ h =>
      .ok (h.straps ▸ h.pause _)

theorem pollLoop_alike {n : Nat} {s t : State} (h : Alike R s t) : Run.Alike R (pollLoop n s) (pollLoop n t) := by
  induction n generalizing s t with
  | zero => exact .ok (h.emit _)
  | succ n ih =>
    unfold pollLoop
    rw [h.env, h.column]
    split
    · exact .abort (h.drawSample.emit _)
    · split
      · exact ih (((h.drawSample.emit _).pause _).setPollCnt _ _)
      · exact .ok (h.drawSample.emit _)

theorem readBusy_alike {s t : State} (h : Alike R s t) : Run.Alike R (readBusy s) (readBusy t) :=
  pollLoop_alike (h.setPollCnt 0 0)

theorem runItems_alike {items : List SeqItem} {s t : State} (h : Alike R s t) :
    Run.Alike R (runItems items s) (runItems items t) := by
  induction items generalizing s t with
  | nil => exact .ok h
  | cons item rest ih =>
    cases item with
    | send dc b => exact (sendByte_alike h dc b).andThen fun _ _ h => ih h
    | busyWait => exact (readBusy_alike h).andThen fun _ _ h => ih h

theorem planeLoop_alike {f : State → Nat → Byte} (hf : ∀ s t : State, R s.fb t.fb → f t = f s) {n : Nat} {s t : State}
    (h : Alike R s t) (ha : t.seq.fbAddr = s.seq.fbAddr) : Run.Alike R (planeLoop f n s) (planeLoop f n t) := by
  induction n generalizing s t with
  | zero => exact .ok h
  | succ n ih =>
    unfold planeLoop
    rw [ha, hf s t h.fb]
    exact (sendByte_alike h _ _).andThen fun _ _ h => ih (h.setFbAddr _ _) rfl

theorem sendPlane_alike {cmd : Byte} {f : State → Nat → Byte} (hf : ∀ s t : State, R s.fb t.fb → f t = f s) {s t : State}
    (h : Alike R s t) : Run.Alike R (sendPlane cmd f s) (sendPlane cmd f t) :=
  (sendByte_alike h _ _).andThen fun _ _ h => by
    rw [h.straps]
    exact planeLoop_alike hf (h.setFbAddr 0 0) rfl

theorem blackDataByte_alike {src : PlaneSource} (hR : src = .white ∨ ∀ a b, R a b → b = a) (s t : State)
    (h : R s.fb t.fb) : blackDataByte src t = blackDataByte src s := by
  rcases hR with rfl | hR
  · rfl
  · exact blackDataByte_fb src s t (hR _ _ h)

theorem redDataByte_alike {src : PlaneSource} (hR : src = .white ∨ ∀ a b, R a b → b = a) (inv : Bool) (s t : State)
    (h : R s.fb t.fb) : redDataByte inv src t = redDataByte inv src s := by
  rcases hR with rfl | hR
  · rfl
  · exact redDataByte_fb inv src s t (hR _ _ h)

theorem resetPulse_alike {s t : State} (h : Alike R s t) : Run.Alike R (resetPulse s) (resetPulse t) :=
  (drive_alike h _ _).andThen fun _ _ h => (drive_alike (h.pause _) _ _).andThen fun u v h => by
    rw [h.straps]
    exact (drive_alike (h.pause _) _ _).andThen fun _ _ h => .ok (h.pause _)

theorem turnOn_alike {s t : State} (h : Alike R s t) : Run.Alike R (turnOn s) (turnOn t) := by
  unfold turnOn
  rw [h.column]
  exact (runItems_alike h).andThen fun _ _ h => readBusy_alike h

theorem detect_alike {s t : State} (h : Alike R s t) : Run.Alike R (detect s) (detect t) :=
  (sendByte_alike h _ _).andThen fun _ _ h => (drive_alike (h.pause _) _ _).andThen fun _ _ h =>
    (drive_alike h _ _).andThen fun s t h => by
      unfold readFrame
      rw [h.env]
      exact drive_alike (h.drawRead.emit _) _ _

theorem probe_alike {s t : State} (h : Alike R s t) : Run.Alike R (probe s) (probe t) := by
  unfold probe
  rw [h.straps, h.env]
  exact (detect_alike h).andThen fun _ _ h => .ok (h.setDialect _)

theorem powerOn_alike {s t : State} (h : Alike R s t) : Run.Alike R (powerOn s) (powerOn t) := by
  unfold powerOn
  rw [h.column]
  split
  · exact (sendByte_alike h _ _).andThen fun _ _ h => readBusy_alike h
  · exact .ok h

theorem initBody_alike {s t : State} (h : Alike R s t) : Run.Alike R (initBody s) (initBody t) :=
  (resetPulse_alike h).andThen fun u v h => by
    refine Run.Alike.andThen ?_ fun _ _ h => (powerOn_alike h).andThen fun x y h => ?_
    · unfold probeStep
      rw [h.straps]
      split
      · exact probe_alike h
      · exact .ok h
    · unfold config
      rw [h.column]
      exact runItems_alike h

theorem transfer_alike {src : PlaneSource} (hR : src = .white ∨ ∀ a b, R a b → b = a) {s t : State} (h : Alike R s t) :
    Run.Alike R (transfer src s) (transfer src t) := by
  unfold transfer rehome
  rw [h.column]
  exact (runItems_alike h).andThen fun u v h => by
    rw [h.column]
    exact (sendPlane_alike (blackDataByte_alike hR) h).andThen fun x y h => by
      rw [h.column]
      exact (sendPlane_alike (redDataByte_alike hR _) h).andThen fun _ _ h => turnOn_alike h

/-- The instructions that stream the core's own planes: DISPLAY and the plane-write frames DISPLAY sends (R35). -/
def readsPlanes : Instr → Bool
  | .display => true
  | .wWriteBlack src => src == .framebuffer
  | .wWriteRed src => src == .framebuffer
  | .wOldWriteBlack src => src == .framebuffer
  | .wOldWriteRed src => src == .framebuffer
  | _ => false

/-- Every instruction's micro-operations read neither the ghost nor the transient registers, and only those that stream
the planes read the framebuffer. -/
theorem bodyOf_alike {s t : State} (i : Instr) (hR : readsPlanes i = false ∨ ∀ a b, R a b → b = a) (h : Alike R s t) : Run.Alike R (bodyOf i s) (bodyOf i t) := by
  have src_white : ∀ {src : PlaneSource}, ((src == PlaneSource.framebuffer) = false ∨ ∀ a b, R a b → b = a) →
      src = .white ∨ ∀ a b, R a b → b = a := fun {src} h => h.imp (by cases src <;> simp) id
  cases i with
  | fbClear _ => exact .ok h
  | fbSetPixel _ _ _ => exact .ok h
  | fbRead _ _ => exact .ok h
  | reset => exact resetPulse_alike h
  | sendCommand b => exact sendByte_alike h _ _
  | sendData b => exact sendByte_alike h _ _
  | readBusy => exact readBusy_alike h
  | turnOnDisplay => exact turnOn_alike h
  | init => exact initBody_alike h
  | display => exact transfer_alike (hR.imp (by simp [readsPlanes]) id) h
  | panelClear => exact (transfer_alike (.inl rfl) h).andThen fun _ _ h => readBusy_alike h
  | sleep =>
    unfold bodyOf
    rw [h.column]
    exact (runItems_alike h).andThen fun _ _ h => .ok (h.pause _)
  | powerOffAndDeepSleep =>
    unfold bodyOf
    rw [h.column]
    exact runItems_alike h
  | wRamXWindow => unfold bodyOf; rw [h.straps]; exact runItems_alike h
  | wRamYWindow => unfold bodyOf; rw [h.straps]; exact runItems_alike h
  | wDeepSleep mode =>
    refine (runItems_alike h).andThen fun _ _ h => ?_
    cases mode
    · exact .ok (h.pause _)
    · exact readBusy_alike h
  | wDetect => exact detect_alike h
  | wWriteBlack src => exact sendPlane_alike (blackDataByte_alike (src_white hR)) h
  | wWriteRed src => exact sendPlane_alike (redDataByte_alike (src_white hR) _) h
  | wOldWriteBlack src => exact sendPlane_alike (blackDataByte_alike (src_white hR)) h
  | wOldWriteRed src => unfold bodyOf; rw [h.straps]; exact sendPlane_alike (redDataByte_alike (src_white hR) _) h
  | _ => exact runItems_alike h

/-- The ends of two alike runs are alike. -/
theorem settle_alike {s t : State} {r r' : Run} {row : GhostRow} (hr : Run.Alike R r r') :
    Alike R (s.settle row r) (t.settle row r') := by
  cases hr with
  | ok h =>
    exact ⟨h.1, h.2, h.3, h.4, h.5, rfl, h.7, h.8, by rw [settle_ok, settle_ok]; simp [h.completions], h.10⟩
  | abort h =>
    exact ⟨h.1, h.2, h.3, h.4, h.5, rfl, h.7, h.8, by rw [settle_abort, settle_abort]; simp [h.completions], h.10⟩

/-- Alike states that have the same registers differ in the ghost alone. -/
theorem Alike.eq_setGhost {s t : State} (h : Alike (· = ·) s t) (hs : t.seq = s.seq) : t = s.setGhost t.ghost := by
  cases s; cases t; cases h; simp_all [State.setGhost]

/-- Alike states that have the same ghost differ in the transient registers alone. -/
theorem Alike.eq_setTransient {s t : State} (h : Alike (· = ·) s t) (hg : t.ghost = s.ghost) :
    t = (s.setFbAddr t.seq.fbAddr).setPollCnt t.seq.pollCnt := by
  obtain ⟨_, _, _, _, _, ⟨_, _, _⟩, _, _, _, _, _⟩ := s
  obtain ⟨_, _, _, _, _, ⟨_, _, _⟩, _, _, _, _, _⟩ := t
  cases h
  simp_all [State.setPollCnt, State.setFbAddr]

end Sys2Proof.Machine
end

