-- ==== Sys2Proof/Laws/Clean.lean ====
section
/-! SUPPORT. How the environment's answers decide what an instruction does: it runs to its end with exactly the clean events
where nothing fails and BUSY is idle at every first sample, with its whole sequence where nothing fails, whatever levels BUSY
shows, and it aborts at the micro-operation that fails. -/

namespace Sys2Proof.Machine

/-- Where nothing asked fails and BUSY is idle at every first sample, an instruction completes with its clean events. -/
theorem exec_clean {i : Instr} {s : State} {d : Dialect} (h : (access i).events = true) (hm : s.mode = .operational)
    (hd : s.dialectAfter i = d) (hc : s.CleanFor d (cleanEvents s.straps d (sequenceOf i s d))) :
    ∃ t, exec i s = .next t ∧ Completed s t d (cleanEvents s.straps d (sequenceOf i s d)) := by
  subst hd
  obtain ⟨t, he⟩ := exec_next i s
  obtain ⟨u, evs, hf, ⟨hd, hu, rfl⟩ | ⟨k, hcut, -⟩⟩ := exec_plays h hm he
  · have e := hd.eq_clean hf.answers hc
    subst e
    have c := settle_completed (ghostRow i) hf
    rw [hu] at c
    exact ⟨_, he, c⟩
  · exact ((hcut _ (.inl rfl)).not_clean hf.answers hc).elim

/-- Where nothing asked fails, whatever levels BUSY shows, an instruction completes with its whole sequence. -/
theorem exec_goes_on {i : Instr} {s : State} {d : Dialect} (h : (access i).events = true) (hm : s.mode = .operational)
    (hd : s.dialectAfter i = d)
    (ha : s.AcksOk ((cleanEvents s.straps d (sequenceOf i s d)).countP Event.takesAck))
    (hs : s.SamplesOk (500 * pollsOf (sequenceOf i s d))) :
    ∃ t evs, exec i s = .next t ∧ Completed s t d evs ∧ Done s.straps d (sequenceOf i s d) evs ∧ Answered s.env evs := by
  subst hd
  obtain ⟨t, he⟩ := exec_next i s
  obtain ⟨u, evs, hf, ⟨hd, hu, rfl⟩ | ⟨k, hcut, -⟩⟩ := exec_plays h hm he
  · exact ⟨_, evs, he, hu ▸ settle_completed _ hf, hd, hf.answers⟩
  · exact ((hcut _ (.inl rfl)).impossible hf.answers ha hs).elim

/-- The same, the sequence given as a list of frames. -/
theorem exec_clean_items {i : Instr} {s : State} {d : Dialect} {items : List SeqItem} (h : (access i).events = true)
    (hm : s.mode = .operational) (hd : s.dialectAfter i = d) (hi : sequenceOf i s d = items.map .item)
    (hc : s.CleanFor d (frameEvents s.straps d items)) :
    ∃ t, exec i s = .next t ∧ Completed s t d (frameEvents s.straps d items) := by
  have := exec_clean h hm hd (i := i)
  rw [hi, cleanEvents_items] at this
  exact this hc

/-- Where one `Drive` or `Tx` of a sequence without a busy-wait fails, and none before it, the instruction aborts there. -/
theorem exec_aborts {i : Instr} {s : State} {k : MicroKind} {init rest : List Event} {e : Event}
    (h : (access i).events = true) (hm : s.mode = .operational) (hd : s.dialectAfter i = s.dialect)
    (hx : .item .busyWait ∉ sequenceOf i s s.dialect)
    (hc : cleanEvents s.straps s.dialect (sequenceOf i s s.dialect) = init ++ e :: rest)
    (ht : e.takesAck = true) (hk : e.failed.failure = some k)
    (ha : s.AcksOk (init.countP Event.takesAck)) (he : s.env.ackAt (init.countP Event.takesAck) = .err) :
    ∃ u, Follows s u (init ++ [e.failed]) ∧ u.dialect = s.dialect ∧
      exec i s = .next (s.settle (ghostRow i) (.abort k u)) := by
  obtain ⟨t, hn⟩ := exec_next i s
  have whole : ∀ evs, Done s.straps s.dialect (sequenceOf i s s.dialect) evs → evs = init ++ e :: rest := fun evs hd =>
    (hd.eq_of_noPoll hx).trans hc
  have fine : ∀ x ∈ init ++ e :: rest, x.failure = none := fun x hm =>
    ((hc ▸ Done.clean s.straps s.dialect _).allowed (sequenceOf_allowed i s _) x hm).1
  obtain ⟨u, evs, hf, ⟨hdone, -, -⟩ | ⟨k', hcut, hu, rfl⟩⟩ := exec_plays h hm hn
  · rw [hd] at hdone
    have hf := hf.answers
    rw [whole evs hdone] at hf
    rw [hf.ok ht (fine e (by simp))] at he
    cases he
  · rw [hd] at hcut hu
    obtain ⟨init', e', rest', hdone, rfl, hk'⟩ := hcut _ (.inl rfl)
    have split := whole _ hdone
    have noSample : e'.takesSample = false := by
      have := hdone.takesSample
      rw [pollsOf_noPoll hx] at this
      cases hs : e'.takesSample with
      | false => rfl
      | true => simp [hs] at this
    have fails : e'.takesAck = true ∧ s.env.ackAt (init'.countP Event.takesAck) = .err := by
      rcases hf.answers.fails hk' with ⟨h1, h2⟩ | ⟨h1, -⟩
      · exact ⟨by simpa using h1, h2⟩
      · rw [← Event.failed_takesSample, h1] at noSample; cases noSample
    rcases List.append_eq_append_iff.mp split with ⟨c, hc1, hc2⟩ | ⟨c, hc1, hc2⟩
    · rcases c with _ | ⟨x, c⟩
      · obtain ⟨rfl, rfl⟩ := List.cons.inj hc2
        rw [List.append_nil] at hc1
        subst hc1
        cases hk.symm.trans hk'
        exact ⟨u, hf, hu.elim id id, hn⟩
      · obtain ⟨rfl, -⟩ := List.cons.inj hc2
        rw [ha _ (by rw [hc1]; simp [fails.1])] at fails
        cases fails.2
    · rcases c with _ | ⟨x, c⟩
      · obtain ⟨rfl, rfl⟩ := List.cons.inj hc2
        rw [List.append_nil] at hc1
        subst hc1
        cases hk.symm.trans hk'
        exact ⟨u, hf, hu.elim id id, hn⟩
      · obtain ⟨rfl, -⟩ := List.cons.inj hc2
        have hf := hf.answers
        rw [hc1, List.append_assoc, List.cons_append] at hf
        rw [hf.ok ht (fine e (by simp))] at he
        cases he

theorem cleanEvents_reset (p : Straps) (d : Dialect) : cleanEvents p d (resetPieces p) = resetEvents p := rfl

theorem cleanEvents_detect (s : State) (d : Dialect) : cleanEvents s.straps d (detectPieces s) =
    frameEvents s.straps d [C 0x2F#8] ++ ([.delay 50] ++ probeReadEvents s.straps (s.env.readAt 0)) := by
  simp [cleanEvents, detectPieces, Piece.cleanEvents]

end Sys2Proof.Machine
end

