-- ==== Sys2Proof/Laws/Decode.lean ====
section
/-! SUPPORT. The fields of a packed request word, and what the decoders answer, said once. -/

open Sys2Proof.Machine

namespace Sys2Proof

@[simp] theorem reqOp_pack (op c : Byte) (a b : BitVec 16) : reqOp (packRequest op c a b) = op := by
  apply BitVec.eq_of_getLsbD_eq
  intro i hi
  have e : 40 + i - 16 - 16 - 8 = i := by omega
  simp only [reqOp, packRequest, BitVec.getLsbD_extractLsb', BitVec.getLsbD_append, hi, decide_true, Bool.true_and]
  rw [if_neg (by omega), if_neg (by omega), if_neg (by omega), e]

@[simp] theorem reqC_pack (op c : Byte) (a b : BitVec 16) : reqC (packRequest op c a b) = c := by
  apply BitVec.eq_of_getLsbD_eq
  intro i hi
  have e : 32 + i - 16 - 16 = i := by omega
  simp only [reqC, packRequest, BitVec.getLsbD_extractLsb', BitVec.getLsbD_append, hi, decide_true, Bool.true_and]
  rw [if_neg (by omega), if_neg (by omega), if_pos (by omega), e]

@[simp] theorem reqA_pack (op c : Byte) (a b : BitVec 16) : reqA (packRequest op c a b) = a := by
  apply BitVec.eq_of_getLsbD_eq
  intro i hi
  have e : 16 + i - 16 = i := by omega
  simp only [reqA, packRequest, BitVec.getLsbD_extractLsb', BitVec.getLsbD_append, hi, decide_true, Bool.true_and]
  rw [if_neg (by omega), if_pos (by omega), e]

@[simp] theorem reqB_pack (op c : Byte) (a b : BitVec 16) : reqB (packRequest op c a b) = b := by
  apply BitVec.eq_of_getLsbD_eq
  intro i hi
  simp only [reqB, packRequest, BitVec.getLsbD_extractLsb', BitVec.getLsbD_append, hi, decide_true, Bool.true_and]
  rw [if_pos (by omega), Nat.zero_add]

/-- `colour = C[1:0]`, `plane = C[0]`, `index = A ‖ B` as parts of the fields (R81). -/
theorem reqColour_eq (w : RequestWord) : reqColour w = (reqC w).extractLsb' 0 2 := by
  apply BitVec.eq_of_getLsbD_eq
  intro i hi
  simp only [reqColour, reqC, BitVec.getLsbD_extractLsb', hi, decide_true, Bool.true_and, Nat.zero_add]
  simp [show i < 8 by omega]

theorem reqPlane_eq (w : RequestWord) : reqPlane w = if (reqC w).getLsbD 0 then .red else .black := by
  simp [reqPlane, reqC]

theorem reqIndex_eq (w : RequestWord) : reqIndex w = reqA w ++ reqB w := by
  apply BitVec.eq_of_getLsbD_eq
  intro i hi
  simp only [reqIndex, reqA, reqB, BitVec.getLsbD_extractLsb', BitVec.getLsbD_append, hi, decide_true, Bool.true_and,
    Nat.zero_add]
  by_cases h : i < 16
  · simp [h]
  · simp [h, show i - 16 < 16 by omega, show 16 + (i - 16) = i by omega]

theorem ite_cases {α : Type} {c : Prop} [Decidable c] {a b r : α} (h : (if c then a else b) = r) :
    (c ∧ a = r) ∨ (¬c ∧ b = r) := by
  by_cases hc : c
  · exact .inl ⟨hc, by rwa [if_pos hc] at h⟩
  · exact .inr ⟨hc, by rwa [if_neg hc] at h⟩

/-- Everything the request decoder can answer: one of 13 instructions by the operation code, or the error (R83, R85). -/
theorem decodeRequest_cases {w : RequestWord} {r : Except DecodeError Instr} (h : decodeRequest w = r) :
    (reqOp w = 0xA1#8 ∧ .ok (.fbClear (reqColour w)) = r) ∨
    (reqOp w = 0xA2#8 ∧ .ok (.fbSetPixel (reqA w) (reqB w) (reqColour w)) = r) ∨
    (reqOp w = 0xA3#8 ∧ .ok (.fbRead (reqPlane w) (reqIndex w)) = r) ∨
    (reqOp w = 0xD0#8 ∧ .ok (.reset) = r) ∨
    (reqOp w = 0xD1#8 ∧ .ok (.sendCommand (reqC w)) = r) ∨
    (reqOp w = 0xD2#8 ∧ .ok (.sendData (reqC w)) = r) ∨
    (reqOp w = 0xD3#8 ∧ .ok (.readBusy) = r) ∨
    (reqOp w = 0xD4#8 ∧ .ok (.turnOnDisplay) = r) ∨
    (reqOp w = 0xD5#8 ∧ .ok (.init) = r) ∨
    (reqOp w = 0xD6#8 ∧ .ok (.display) = r) ∨
    (reqOp w = 0xD7#8 ∧ .ok (.panelClear) = r) ∨
    (reqOp w = 0xD8#8 ∧ .ok (.sleep) = r) ∨
    (reqOp w = 0xD9#8 ∧ .ok (.powerOffAndDeepSleep) = r) ∨
    (reqOp w ∉ requestOps ∧ .error (.unknownOp (reqOp w)) = r) := by
  unfold decodeRequest at h
  refine (ite_cases h).imp_right fun ⟨n1, h⟩ => ?_
  refine (ite_cases h).imp_right fun ⟨n2, h⟩ => ?_
  refine (ite_cases h).imp_right fun ⟨n3, h⟩ => ?_
  refine (ite_cases h).imp_right fun ⟨n4, h⟩ => ?_
  refine (ite_cases h).imp_right fun ⟨n5, h⟩ => ?_
  refine (ite_cases h).imp_right fun ⟨n6, h⟩ => ?_
  refine (ite_cases h).imp_right fun ⟨n7, h⟩ => ?_
  refine (ite_cases h).imp_right fun ⟨n8, h⟩ => ?_
  refine (ite_cases h).imp_right fun ⟨n9, h⟩ => ?_
  refine (ite_cases h).imp_right fun ⟨n10, h⟩ => ?_
  refine (ite_cases h).imp_right fun ⟨n11, h⟩ => ?_
  refine (ite_cases h).imp_right fun ⟨n12, h⟩ => ?_
  refine (ite_cases h).imp_right fun ⟨n13, h⟩ => ?_
  refine ⟨?_, h⟩
  simp only [requestOps, List.mem_cons, List.not_mem_nil, or_false, not_or]
  exact ⟨n1, n2, n3, n4, n5, n6, n7, n8, n9, n10, n11, n12, n13⟩

theorem decodeRequest_error {w : RequestWord} {e : DecodeError} (h : decodeRequest w = .error e) :
    reqOp w ∉ requestOps ∧ e = .unknownOp (reqOp w) := by
  rcases decodeRequest_cases h with ⟨-, h⟩ | ⟨-, h⟩ | ⟨-, h⟩ | ⟨-, h⟩ | ⟨-, h⟩ | ⟨-, h⟩ | ⟨-, h⟩ | ⟨-, h⟩ | ⟨-, h⟩ | ⟨-, h⟩ | ⟨-, h⟩ | ⟨-, h⟩ | ⟨-, h⟩ | ⟨hn, h⟩
  all_goals first | exact ⟨hn, (Except.error.inj h).symm⟩ | cases h

theorem decodeFrame_error {d : Dialect} {w : FrameWord} {e : DecodeError} (h : decodeFrame d w = .error e) :
    e = .unknownFrame w := by
  unfold decodeFrame at h
  split at h
  · cases h
  · exact (Except.error.inj h).symm

/-- What a frame word decodes to stands in a row of the tables that has the word's command byte. -/
theorem decodeFrame_row {d : Dialect} {w : FrameWord} {i : Instr} (h : decodeFrame d w = .ok i) :
    ∃ r ∈ frameRows d, r.instr = i ∧ r.cmd = frameCmd w := by
  unfold decodeFrame at h
  split at h
  · rename_i r hr
    refine ⟨r, List.mem_of_find?_eq_some hr, Except.ok.inj h, ?_⟩
    have := List.find?_some hr
    simp only [FrameRow.holds, Bool.and_eq_true, decide_eq_true_eq] at this
    exact this.1
  · cases h

end Sys2Proof
end

