-- ==== Sys2Proof/Laws/PerInstr.lean ====
section
/-! SUPPORT. Facts about each instruction as syntax. Family `Opcode`: the words of an instruction carry the opcode its row of
spec/opcode_table.json gives it, in the bits the row's mask selects. -/

open Sys2Proof

/-- The operation code or command byte of an instruction's row (R83, R92, R93). -/
def Sys2Proof.Laws.Opcode.code : Instr → Byte
  | .fbClear _ => 0xA1#8
  | .fbSetPixel _ _ _ => 0xA2#8
  | .fbRead _ _ => 0xA3#8
  | .reset => 0xD0#8
  | .sendCommand _ => 0xD1#8
  | .sendData _ => 0xD2#8
  | .readBusy => 0xD3#8
  | .turnOnDisplay => 0xD4#8
  | .init => 0xD5#8
  | .display => 0xD6#8
  | .panelClear => 0xD7#8
  | .sleep => 0xD8#8
  | .powerOffAndDeepSleep => 0xD9#8
  | .wSwReset => 0x12#8
  | .wBorderWaveform => 0x3C#8
  | .wTempSensor => 0x18#8
  | .wDataEntryMode => 0x11#8
  | .wRamXWindow => 0x44#8
  | .wRamYWindow => 0x45#8
  | .wRamXCounter => 0x4E#8
  | .wRamYCounter => 0x4F#8
  | .wWriteBlack _ => 0x24#8
  | .wWriteRed _ => 0x26#8
  | .wActivation => 0x22#8
  | .wMasterActivate => 0x20#8
  | .wDeepSleep _ => 0x10#8
  | .wPowerOff => 0x02#8
  | .wDetect => 0x2F#8
  | .wOldWriteBlack _ => 0x10#8
  | .wOldWriteRed _ => 0x13#8
  | .wOldPowerOn => 0x04#8
  | .wOldRefresh => 0x12#8

/-- The words of an instruction have its row's code in `OP`, or as the command byte. -/
def Sys2Proof.Laws.Opcode.Statement (i : Instr) : Prop :=
  match encode i with
  | .request w => reqOp w = Sys2Proof.Laws.Opcode.code i
  | .frame w => frameCmd w = Sys2Proof.Laws.Opcode.code i

/-- The command byte of a packed frame word. -/
theorem Sys2Proof.Laws.frameCmd_pack (cmd sender : Byte) : frameCmd (packFrame cmd sender) = cmd := by
  apply BitVec.eq_of_getLsbD_eq
  intro i hi
  simp only [frameCmd, packFrame, BitVec.getLsbD_extractLsb', BitVec.getLsbD_append, hi, decide_true, Bool.true_and]
  rw [if_pos (by omega), Nat.zero_add]

theorem Sys2Proof.Laws.Opcode.fbClear (colour : BitVec 2) : Sys2Proof.Laws.Opcode.Statement (.fbClear colour) := reqOp_pack _ _ _ _

theorem Sys2Proof.Laws.Opcode.fbSetPixel (x y : BitVec 16) (colour : BitVec 2) : Sys2Proof.Laws.Opcode.Statement (.fbSetPixel x y colour) := reqOp_pack _ _ _ _

theorem Sys2Proof.Laws.Opcode.fbRead (plane : Plane) (index : BitVec 32) : Sys2Proof.Laws.Opcode.Statement (.fbRead plane index) := reqOp_pack _ _ _ _

theorem Sys2Proof.Laws.Opcode.reset : Sys2Proof.Laws.Opcode.Statement .reset := reqOp_pack _ _ _ _

theorem Sys2Proof.Laws.Opcode.sendCommand (byte : Byte) : Sys2Proof.Laws.Opcode.Statement (.sendCommand byte) := reqOp_pack _ _ _ _

theorem Sys2Proof.Laws.Opcode.sendData (byte : Byte) : Sys2Proof.Laws.Opcode.Statement (.sendData byte) := reqOp_pack _ _ _ _

theorem Sys2Proof.Laws.Opcode.readBusy : Sys2Proof.Laws.Opcode.Statement .readBusy := reqOp_pack _ _ _ _

theorem Sys2Proof.Laws.Opcode.turnOnDisplay : Sys2Proof.Laws.Opcode.Statement .turnOnDisplay := reqOp_pack _ _ _ _

theorem Sys2Proof.Laws.Opcode.init : Sys2Proof.Laws.Opcode.Statement .init := reqOp_pack _ _ _ _

theorem Sys2Proof.Laws.Opcode.display : Sys2Proof.Laws.Opcode.Statement .display := reqOp_pack _ _ _ _

theorem Sys2Proof.Laws.Opcode.panelClear : Sys2Proof.Laws.Opcode.Statement .panelClear := reqOp_pack _ _ _ _

theorem Sys2Proof.Laws.Opcode.sleep : Sys2Proof.Laws.Opcode.Statement .sleep := reqOp_pack _ _ _ _

theorem Sys2Proof.Laws.Opcode.powerOffAndDeepSleep : Sys2Proof.Laws.Opcode.Statement .powerOffAndDeepSleep := reqOp_pack _ _ _ _

theorem Sys2Proof.Laws.Opcode.wSwReset : Sys2Proof.Laws.Opcode.Statement .wSwReset := frameCmd_pack _ _

theorem Sys2Proof.Laws.Opcode.wBorderWaveform : Sys2Proof.Laws.Opcode.Statement .wBorderWaveform := frameCmd_pack _ _

theorem Sys2Proof.Laws.Opcode.wTempSensor : Sys2Proof.Laws.Opcode.Statement .wTempSensor := frameCmd_pack _ _

theorem Sys2Proof.Laws.Opcode.wDataEntryMode : Sys2Proof.Laws.Opcode.Statement .wDataEntryMode := frameCmd_pack _ _

theorem Sys2Proof.Laws.Opcode.wRamXWindow : Sys2Proof.Laws.Opcode.Statement .wRamXWindow := frameCmd_pack _ _

theorem Sys2Proof.Laws.Opcode.wRamYWindow : Sys2Proof.Laws.Opcode.Statement .wRamYWindow := frameCmd_pack _ _

theorem Sys2Proof.Laws.Opcode.wRamXCounter : Sys2Proof.Laws.Opcode.Statement .wRamXCounter := frameCmd_pack _ _

theorem Sys2Proof.Laws.Opcode.wRamYCounter : Sys2Proof.Laws.Opcode.Statement .wRamYCounter := frameCmd_pack _ _

theorem Sys2Proof.Laws.Opcode.wWriteBlack (source : PlaneSource) : Sys2Proof.Laws.Opcode.Statement (.wWriteBlack source) := by
  cases source <;> exact frameCmd_pack _ _

theorem Sys2Proof.Laws.Opcode.wWriteRed (source : PlaneSource) : Sys2Proof.Laws.Opcode.Statement (.wWriteRed source) := by
  cases source <;> exact frameCmd_pack _ _

theorem Sys2Proof.Laws.Opcode.wActivation : Sys2Proof.Laws.Opcode.Statement .wActivation := frameCmd_pack _ _

theorem Sys2Proof.Laws.Opcode.wMasterActivate : Sys2Proof.Laws.Opcode.Statement .wMasterActivate := frameCmd_pack _ _

theorem Sys2Proof.Laws.Opcode.wDeepSleep (mode : SleepMode) : Sys2Proof.Laws.Opcode.Statement (.wDeepSleep mode) := by
  cases mode <;> exact frameCmd_pack _ _

theorem Sys2Proof.Laws.Opcode.wPowerOff : Sys2Proof.Laws.Opcode.Statement .wPowerOff := frameCmd_pack _ _

theorem Sys2Proof.Laws.Opcode.wDetect : Sys2Proof.Laws.Opcode.Statement .wDetect := frameCmd_pack _ _

theorem Sys2Proof.Laws.Opcode.wOldWriteBlack (source : PlaneSource) : Sys2Proof.Laws.Opcode.Statement (.wOldWriteBlack source) := by
  cases source <;> exact frameCmd_pack _ _

theorem Sys2Proof.Laws.Opcode.wOldWriteRed (source : PlaneSource) : Sys2Proof.Laws.Opcode.Statement (.wOldWriteRed source) := by
  cases source <;> exact frameCmd_pack _ _

theorem Sys2Proof.Laws.Opcode.wOldPowerOn : Sys2Proof.Laws.Opcode.Statement .wOldPowerOn := frameCmd_pack _ _

theorem Sys2Proof.Laws.Opcode.wOldRefresh : Sys2Proof.Laws.Opcode.Statement .wOldRefresh := frameCmd_pack _ _
end

