-- ==== Sys2Proof/Laws/Pixels.lean ====
section
/-! SUPPORT. The laws of the pixel map and of painting: where a pixel lies, which bit it is, what FB_SET_PIXEL's change of
the planes reads as, and that a legal colour makes no fourth combination (spec/20_memory.md R51, R52). -/

namespace Sys2Proof.Machine

theorem bytesPerRow_eq (g : Geometry) : bytesPerRow g = g.width / 8 := by
  have := g.width_legal
  unfold bytesPerRow
  omega

theorem pixelInRange_iff {g : Geometry} {x y : BitVec 16} :
    pixelInRange g x y = true ↔ x.toNat < g.width ∧ y.toNat < g.height := by simp [pixelInRange]

/-- A column inside the panel lies in one of the row's bytes. -/
theorem column_lt {g : Geometry} {x : BitVec 16} (hx : x.toNat < g.width) : x.toNat / 8 < g.width / 8 := by
  have := g.width_legal
  omega

/-- The byte of a pixel inside the panel is a byte of the plane. -/
theorem byteIndex_lt {g : Geometry} {x y : BitVec 16} (hx : x.toNat < g.width) (hy : y.toNat < g.height) :
    byteIndex g x y < planeBytes g := by
  have h1 := column_lt hx
  unfold byteIndex planeBytes
  rw [bytesPerRow_eq]
  calc _ < y.toNat * (g.width / 8) + g.width / 8 := by omega
    _ = (y.toNat + 1) * (g.width / 8) := by ring
    _ ≤ _ := by rw [Nat.mul_comm]; exact Nat.mul_le_mul_left _ hy

/-- The bits of a pixel's mask: bit `7 - x mod 8` alone. -/
theorem bitMask_getLsbD (x : BitVec 16) {j : Nat} (hj : j < 8) :
    (bitMask x).getLsbD j = decide (j = 7 - x.toNat % 8) := by
  unfold bitMask
  have h : x.toNat % 8 < 8 := Nat.mod_lt _ (by decide)
  revert j h
  generalize x.toNat % 8 = k
  intro j hj hk
  have : ∀ k, k < 8 → ∀ j, j < 8 → (0x80#8 >>> k).getLsbD j = decide (j = 7 - k) := by decide
  exact this k hk j hj

theorem withMask_getLsbD (bit : Bool) (m b : Byte) {j : Nat} (hj : j < 8) :
    (withMask bit m b).getLsbD j = if m.getLsbD j then bit else b.getLsbD j := by
  unfold withMask
  cases bit <;> simp [hj] <;> cases m[j] <;> simp

/-- A legal colour with its red bit set has its black bit set (R52). -/
theorem colour_closed {c : BitVec 2} (h : c ≠ 0b01#2) : colourRedBit c = true → colourBlackBit c = true := by
  revert h
  revert c
  decide

/-- A byte pair without the fourth combination keeps none when a legal colour is painted on both (R34). -/
theorem withMask_closed {c : BitVec 2} (hc : c ≠ 0b01#2) (m : Byte) {b r : Byte} (h : r &&& ~~~b = 0#8) :
    withMask (colourRedBit c) m r &&& ~~~(withMask (colourBlackBit c) m b) = 0#8 := by
  apply BitVec.eq_of_getLsbD_eq
  intro j hj
  have h := congrArg (fun v => v.getLsbD j) h
  have cl := colour_closed hc
  simp only [BitVec.getLsbD_and, BitVec.getLsbD_not, hj, decide_true, Bool.true_and, BitVec.getLsbD_zero,
    withMask_getLsbD _ _ _ hj] at h ⊢
  cases m.getLsbD j
  · simpa using h
  · cases hr : colourRedBit c
    · rfl
    · simp [cl hr]

/-- What FB_SET_PIXEL's change reads as: the pixel's byte masked, every other byte as it was (R112). -/
theorem Framebuffer.read_setPixel {fb : Framebuffer} (hb : Memory.Rising fb.black) (hr : Memory.Rising fb.red)
    (g : Geometry) (x y : BitVec 16) (c : BitVec 2) (p : Plane) (j : Nat) :
    (fb.setPixel g x y c).read p j =
      if byteIndex g x y = j then withMask (colourBit c p) (bitMask x) (fb.read p j) else fb.read p j := by
  unfold Framebuffer.setPixel
  rw [Framebuffer.read_writeBoth hb hr]
  by_cases h : byteIndex g x y = j
  · subst h; cases p <;> simp [colourBit]
  · simp [h]

theorem withMask_idem (bit : Bool) (m b : Byte) : withMask bit m (withMask bit m b) = withMask bit m b := by
  apply BitVec.eq_of_getLsbD_eq
  intro j hj
  rw [withMask_getLsbD _ _ _ hj, withMask_getLsbD _ _ _ hj]
  split <;> rfl

/-- Painting a pixel whose bytes have its colour already changes nothing, as data. -/
theorem Framebuffer.setPixel_of_painted {fb : Framebuffer} {g : Geometry} {x y : BitVec 16} {c : BitVec 2}
    (hb : Memory.Rising fb.black ∧ ∀ e ∈ fb.black, e.2 ≠ unlisted .black)
    (hr : Memory.Rising fb.red ∧ ∀ e ∈ fb.red, e.2 ≠ unlisted .red)
    (h : ∀ p, withMask (colourBit c p) (bitMask x) (fb.read p (byteIndex g x y)) = fb.read p (byteIndex g x y)) :
    fb.setPixel g x y c = fb := by
  have h1 := h .black
  have h2 := h .red
  simp only [colourBit] at h1 h2
  unfold Framebuffer.setPixel Framebuffer.writeBoth
  rw [h1, h2]
  have e1 := Memory.write_read_self hb.1 hb.2 (byteIndex g x y)
  have e2 := Memory.write_read_self hr.1 hr.2 (byteIndex g x y)
  simp only [Framebuffer.read, Framebuffer.plane, e1, e2]

/-- A fill with a legal colour makes no fourth combination. -/
theorem cleared_closed {c : BitVec 2} (hc : c ≠ 0b01#2) (n i : Nat) :
    (Framebuffer.cleared n c).read .red i &&& ~~~((Framebuffer.cleared n c).read .black i) = 0#8 := by
  have : ∀ c : BitVec 2, c ≠ 0b01#2 →
      replicateBit (colourBit c .red) &&& ~~~(replicateBit (colourBit c .black)) = 0#8 := by decide
  rw [Framebuffer.read_cleared, Framebuffer.read_cleared]
  split
  · exact this c hc
  · decide

end Sys2Proof.Machine
end

