-- ==== Sys2Proof/Laws/Step.lean ====
section
/-! SUPPORT. Everything a step can do: nothing, one instruction on the state with the fetched code taken, or the answer to
a request that is no instruction. -/

namespace Sys2Proof.Machine

/-! ### What taking the fetched code leaves unchanged -/

@[simp] theorem State.taken_straps (s : State) : s.taken.straps = s.straps := by unfold State.taken; split <;> rfl
@[simp] theorem State.taken_mode (s : State) : s.taken.mode = s.mode := by unfold State.taken; split <;> rfl
@[simp] theorem State.taken_fb (s : State) : s.taken.fb = s.fb := by unfold State.taken; split <;> rfl
@[simp] theorem State.taken_dialect (s : State) : s.taken.dialect = s.dialect := by unfold State.taken; split <;> rfl
@[simp] theorem State.taken_lines (s : State) : s.taken.lines = s.lines := by unfold State.taken; split <;> rfl
@[simp] theorem State.taken_trace (s : State) : s.taken.trace = s.trace := by unfold State.taken; split <;> rfl
@[simp] theorem State.taken_completions (s : State) : s.taken.completions = s.completions := by
  unfold State.taken; split <;> rfl
@[simp] theorem State.taken_env (s : State) : s.taken.env = s.env := by unfold State.taken; split <;> rfl
@[simp] theorem State.taken_ghost (s : State) : s.taken.ghost = s.ghost := by unfold State.taken; split <;> rfl
@[simp] theorem State.taken_sp (s : State) : s.taken.seq.sp = .idle := by
  unfold State.taken
  split
  · rfl
  · assumption

/-- What is fetched while the sequencer is idle is a request. -/
theorem fetch_request {s : State} {w : RequestWord} (h : s.fetch = some (.request w)) : s.seq.sp = .idle := by
  unfold State.fetch at h
  split at h
  · cases h
  · assumption

theorem fetch_frame {s : State} {w : FrameWord} (h : s.fetch = some (.frame w)) : s.seq.sp = .frame w := by
  unfold State.fetch at h
  split at h
  · simp_all
  · cases hr : s.requests <;> simp [hr] at h

theorem fetch_none {s : State} (h : s.fetch = none) : s.seq.sp = .idle ∧ s.requests = [] := by
  unfold State.fetch at h
  split at h
  · cases h
  · exact ⟨by assumption, by simpa using h⟩

/-- The cases of a step that answers a next state. -/
theorem step_cases {s t : State} (h : step s = .next t) :
    (t = s ∧ s.seq.sp = .idle ∧ s.requests = []) ∨
    (∃ c i, s.fetch = some c ∧ decode s.dialect c = .ok i ∧ exec i s.taken = .next t) ∨
    (∃ w, s.fetch = some (.request w) ∧ reqOp w ∉ requestOps ∧
      t = s.taken.guarded fun s => s.raise .illegalRequest) := by
  unfold step at h
  cases hf : s.fetch with
  | none => rw [hf] at h; cases h; exact .inl ⟨rfl, fetch_none hf⟩
  | some c =>
    rw [hf] at h
    simp only at h
    cases hd : decode s.dialect c with
    | ok i => rw [hd] at h; exact .inr (.inl ⟨c, i, rfl, hd, h⟩)
    | error e =>
      rw [hd] at h
      cases c with
      | request w =>
        obtain ⟨hn, rfl⟩ := decodeRequest_error hd
        cases h
        exact .inr (.inr ⟨w, rfl, hn, rfl⟩)
      | frame w => rw [decodeFrame_error hd] at h; cases h

end Sys2Proof.Machine
end

