-- ==== Sys2Proof/Tests/Slice0.lean ====
section
/-! SUPPORT. The model's own tests. Expected results come from the spec: the tables of spec/95_test_vectors.md, the encodings
of spec/30_encoding.md, and hand calculation from the rules named. Then one witness for each obligation with hypotheses:
concrete states and operands that meet them together. -/

open Sys2Proof Sys2Proof.Machine

namespace Sys2Proof.Tests

/-! ### A small core and its environment -/

/-- The 16 x 2 panel of spec/95_test_vectors.md programs P1 to P6. -/
def small : Geometry := ⟨16, 2, by decide, by decide⟩

/-- A 16 x 2 core after construction whose environment answers `n` times Ok, then `more`, to `Drive` and `Tx`. -/
def bench (cfg : DialectCfg) (cs : CsMode) (n : Nat) (more : List Ack) (reads : List (Option Byte))
    (samples : List (Option Level)) : State :=
  { State.construct (strapsFor small cfg cs) with env := ⟨List.replicate n .ok ++ more, 0, reads, 0, samples, 0⟩ }

/-- The core of P1 with BUSY idle for New. -/
def calm : State := bench .new .softCS 120 [] [] (List.replicate 4 (some .low))

/-- The core of P2 with BUSY idle for Old. -/
def calmOld : State := bench .old .hardCS 120 [] [] (List.replicate 4 (some .high))

/-- A core in Probe mode whose `probe_decode` recognises `0x00` (P6). -/
def probing (r : Option Byte) (level : Level) : State :=
  { bench .probe .softCS 120 [] [r] (List.replicate 4 (some level)) with
    straps := { strapsFor small .probe .softCS with probeOld := [0x00#8] } }

/-- An Old column whose configured sequences are not New's. -/
def quirkyTail : DialectTail :=
  ⟨false, [.item (C 0x01#8), .item Bw, .rehome], [(.low, 0x4E#8)], [(.low, 0x10#8)], [C 0x02#8, Bw]⟩

/-- An Old core with that column. -/
def quirky : State := { calmOld with straps := { strapsFor small .old .hardCS with oldTail := quirkyTail } }

/-- The core the spec names, 400 x 300, after construction. -/
def large : State := State.reset

/-- The state an instruction leaves. -/
def after (i : Instr) (s : State) : State :=
  match exec i s with
  | .next t => t
  | .fault _ => s
  | .refused _ => s

/-- The events an instruction appends, oldest first. -/
def eventsOf (i : Instr) (s : State) : List Event := (after i s).history.drop s.history.length

/-- The completion an instruction returns. -/
def completionOf (i : Instr) (s : State) : Option CompletionWord := (after i s).completions.head?

/-- The bytes on the wire, command bytes paired with false. -/
def wireBytes (s : State) : List (Bool × Byte) := s.wire.map fun p => (p.1 == .high, p.2)

/-! ### Well-formedness: each check refuses an ill-formed term -/

theorem test_wf_clear_colour : Instr.wellFormed (.fbClear 0b01#2) = false := by decide
theorem test_wf_pixel_colour : Instr.wellFormed (.fbSetPixel 0#16 0#16 0b01#2) = false := by decide
theorem test_wf_colours : Instr.wellFormed (.fbClear 0b10#2) = true ∧ Instr.wellFormed (.fbClear 0b00#2) = true ∧
    Instr.wellFormed (.fbSetPixel 0#16 0#16 0b11#2) = true := by decide
theorem test_wf_width_not_bytes : Geometry.ofSize 12 4 = none := by decide
theorem test_wf_width_too_wide : Geometry.ofSize 2056 1 = none := by decide
theorem test_wf_width_zero : Geometry.ofSize 0 1 = none := by decide
theorem test_wf_height_zero : Geometry.ofSize 8 0 = none := by decide
theorem test_wf_height_too_high : Geometry.ofSize 8 65537 = none := by decide
theorem test_wf_geometry_bounds : (Geometry.ofSize 8 1).isSome ∧ (Geometry.ofSize 2048 65536).isSome := by decide
theorem test_wf_reset_low : ResetLow.ofMs 1 = none ∧ ResetLow.ofMs 6 = none ∧ (ResetLow.ofMs 2).isSome ∧
    (ResetLow.ofMs 5).isSome := by decide

/-! ### Decoding: a word written out for each constructor (spec/30_encoding.md R80 to R83, R92, R93; 95, section 2.1) -/

theorem test_decode_fbClear : decodeRequest 0xA1FE00000000#48 = .ok (.fbClear 0b10#2) := by decide
theorem test_decode_fbSetPixel : decodeRequest 0xA200018F012B#48 = .ok (.fbSetPixel 399#16 299#16 0b00#2) := by decide
theorem test_decode_fbRead : decodeRequest 0xA30000003A98#48 = .ok (.fbRead .black 15000#32) := by decide
theorem test_decode_fbRead_high : decodeRequest 0xA30100010002#48 = .ok (.fbRead .red 65538#32) := by decide
theorem test_decode_reset : decodeRequest 0xD00000000000#48 = .ok .reset := by decide
theorem test_decode_sendCommand : decodeRequest 0xD12200000000#48 = .ok (.sendCommand 0x22#8) := by decide
theorem test_decode_sendData : decodeRequest 0xD2F700000000#48 = .ok (.sendData 0xF7#8) := by decide
theorem test_decode_readBusy : decodeRequest 0xD30000000000#48 = .ok .readBusy := by decide
theorem test_decode_turnOnDisplay : decodeRequest 0xD40000000000#48 = .ok .turnOnDisplay := by decide
theorem test_decode_init : decodeRequest 0xD5FFFFFFFFFF#48 = .ok .init := by decide
theorem test_decode_display : decodeRequest 0xD60000000000#48 = .ok .display := by decide
theorem test_decode_panelClear : decodeRequest 0xD70000000000#48 = .ok .panelClear := by decide
theorem test_decode_sleep : decodeRequest 0xD80000000000#48 = .ok .sleep := by decide
theorem test_decode_powerOff : decodeRequest 0xD90000000000#48 = .ok .powerOffAndDeepSleep := by decide
theorem test_decode_illegal : decodeRequest 0x000000000000#48 = .error (.unknownOp 0x00#8) ∧
    decodeRequest 0x240000000000#48 = .error (.unknownOp 0x24#8) ∧
    decodeRequest 0xDA0000000000#48 = .error (.unknownOp 0xDA#8) := by decide

theorem test_decode_wSwReset : decodeTableWord 8 0x12 = some .wSwReset := by decide
theorem test_decode_wBorderWaveform : decodeTableWord 8 0x3C = some .wBorderWaveform := by decide
theorem test_decode_wTempSensor : decodeTableWord 8 0x18 = some .wTempSensor := by decide
theorem test_decode_wDataEntryMode : decodeTableWord 8 0x11 = some .wDataEntryMode := by decide
theorem test_decode_wRamXWindow : decodeTableWord 8 0x44 = some .wRamXWindow := by decide
theorem test_decode_wRamYWindow : decodeTableWord 8 0x45 = some .wRamYWindow := by decide
theorem test_decode_wRamXCounter : decodeTableWord 8 0x4E = some .wRamXCounter := by decide
theorem test_decode_wRamYCounter : decodeTableWord 8 0x4F = some .wRamYCounter := by decide
theorem test_decode_wWriteBlack : decodeTableWord 8 0x24 = some (.wWriteBlack .framebuffer) := by decide
theorem test_decode_wWriteRed : decodeTableWord 8 0x26 = some (.wWriteRed .framebuffer) := by decide
theorem test_decode_wActivation : decodeTableWord 8 0x22 = some .wActivation := by decide
theorem test_decode_wMasterActivate : decodeTableWord 8 0x20 = some .wMasterActivate := by decide
theorem test_decode_wDeepSleep : decodeTableWord 8 0x10 = some (.wDeepSleep .ordinary) ∧
    decodeFrame .new 0xD910#16 = .ok (.wDeepSleep .persistent) := by decide
theorem test_decode_wPowerOff : decodeTableWord 8 0x02 = some .wPowerOff := by decide
theorem test_decode_wDetect : decodeTableWord 8 0x2F = some .wDetect := by decide
theorem test_decode_wOldWriteBlack : decodeFrame .old 0x0010#16 = .ok (.wOldWriteBlack .framebuffer) ∧
    decodeFrame .new 0xD710#16 = .ok (.wOldWriteBlack .white) := by decide
theorem test_decode_wOldWriteRed : decodeTableWord 8 0x13 = some (.wOldWriteRed .framebuffer) := by decide
theorem test_decode_wOldPowerOn : decodeTableWord 8 0x04 = some .wOldPowerOn := by decide
theorem test_decode_wOldRefresh : decodeFrame .old 0x0012#16 = .ok .wOldRefresh ∧
    decodeFrame .new 0xD412#16 = .ok .wOldRefresh := by decide
theorem test_decode_wire_reserved : decodeTableWord 8 0x71 = none ∧ decodeFrame .old 0x00FF#16 = .error (.unknownFrame 0xFF#16) := by
  decide

/-- No two rows of the frame tables have the same byte and the same sender. -/
theorem test_frame_rows_distinct :
    (frameRows .new).Pairwise fun a b => ¬(a.cmd = b.cmd ∧ a.sender = b.sender) := by decide

/-- The senders of the table are operation codes of R83. -/
theorem test_frame_senders : ∀ r ∈ frameRows .old, r.sender ∈ requestOps := by decide

/-! ### The state after reset (R33) and the canonical form -/

theorem test_reset_memory_wf : Memory.wf .black 15000 State.reset.fb.black ∧ Memory.wf .red 15000 State.reset.fb.red := by
  decide
theorem test_reset_reads : State.reset.fb.read .black 14999 = 0xFF#8 ∧ State.reset.fb.read .red 0 = 0x00#8 := by decide
theorem test_reset_fields : State.reset.seq.sp = .idle ∧ State.reset.mode = .operational ∧ State.reset.dialect = .new := by
  decide
/-- With no request presented the core stays as it is. -/
theorem test_reset_idle : step State.reset = .next State.reset := rfl
/-- Writing what an unlisted address reads as removes the entry. -/
theorem test_memory_canonical : Memory.write .black [(3, 0x7F#8)] 3 0xFF#8 = [] := by decide

/-! ### Geometry (95, section 2.2) -/

theorem test_geometry_128_296 : (Geometry.ofSize 128 296).map
    (fun g => (planeBytes g, xEndByte g, yEndLo g, yEndHi g)) = some (4736, 0x0F#8, 0x27#8, 0x01#8) := by decide
theorem test_geometry_largest : (Geometry.ofSize 2048 65536).map
    (fun g => (planeBytes g, xEndByte g, yEndLo g, yEndHi g)) = some (16777216, 0xFF#8, 0xFF#8, 0xFF#8) := by decide

/-! ### Framebuffer requests (95, section 2.3) -/

theorem test_fbClear_red : (after (.fbClear 0b11#2) calm).fb.read .black 3 = 0xFF#8 ∧
    (after (.fbClear 0b11#2) calm).fb.read .red 3 = 0xFF#8 := by decide
theorem test_fbClear_illegal : completionOf (.fbClear 0b01#2) calm = some 0x0400#16 := by decide
/-- "FB_SET_PIXEL 13, 2, Red" on fresh, then Black: `black[101] = FB`, `red[101] = 00` (last write wins). -/
theorem test_fbSetPixel_13_2 :
    (after (.fbSetPixel 13#16 2#16 0b11#2) large).fb = ⟨[], [(101, 0x04#8)]⟩ ∧
    (after (.fbSetPixel 13#16 2#16 0b00#2) (after (.fbSetPixel 13#16 2#16 0b11#2) large)).fb = ⟨[(101, 0xFB#8)], []⟩ := by
  decide
/-- x = W is out; an illegal colour is refused before the coordinates are looked at. -/
theorem test_fbSetPixel_corners : (after (.fbSetPixel 400#16 0#16 0b00#2) large).fb = large.fb ∧
    completionOf (.fbSetPixel 400#16 0#16 0b00#2) large = some 0x0000#16 ∧
    completionOf (.fbSetPixel 400#16 0#16 0b01#2) large = some 0x0400#16 := by decide
theorem test_fbRead_red_51 :
    completionOf (.fbRead .red 51#32) (after (.fbSetPixel 8#16 1#16 0b11#2) large) = some 0x0080#16 ∧
    completionOf (.fbRead .black 51#32) (after (.fbSetPixel 8#16 1#16 0b11#2) large) = some 0x00FF#16 := by decide
theorem test_fbRead_past_end : completionOf (.fbRead .black 15000#32) large = some 0x0400#16 := by decide

/-! ### Driver primitives (95, sections 2.4 to 2.7) -/

theorem test_reset_events : eventsOf .reset calm =
    [.drive .rst .high .ok, .delay 200, .drive .rst .low .ok, .delay 2, .drive .rst .high .ok, .delay 200] := by decide
theorem test_reset_abort : eventsOf .reset (bench .new .softCS 1 [.err] [] []) =
      [.drive .rst .high .ok, .delay 200, .drive .rst .low .err] ∧
    completionOf .reset (bench .new .softCS 1 [.err] [] []) = some 0x0101#16 := by decide
theorem test_sendCommand_hardCS : eventsOf (.sendCommand 0x12#8) (bench .new .hardCS 2 [] [] []) =
    [.drive .dc .low .ok, .tx 0x12#8 .ok] := by decide
theorem test_sendCommand_pacing :
    eventsOf (.sendCommand 0x20#8) { calm with straps := { calm.straps with tInterbyte := 1 } } =
      [.drive .dc .low .ok, .drive .cs .low .ok, .tx 0x20#8 .ok, .drive .cs .high .ok, .delay 1] := by decide
/-- A failing `Tx` leaves the device selected. -/
theorem test_sendData_tx_fails : completionOf (.sendData 0x00#8) (bench .new .softCS 2 [.err] [] []) = some 0x0104#16 ∧
    (after (.sendData 0x00#8) (bench .new .softCS 2 [.err] [] [])).lines = ⟨.unknown, .high, .low⟩ := by decide
theorem test_readBusy_new : eventsOf .readBusy (bench .new .softCS 0 [] [] [some .high, some .high, some .low]) =
    [.sample (some .high), .delay 10, .sample (some .high), .delay 10, .sample (some .low)] := by decide
theorem test_readBusy_old : eventsOf .readBusy (bench .old .softCS 0 [] [] [some .high, some .high, some .low]) =
    [.sample (some .high)] := by decide
theorem test_turnOn_new : eventsOf .turnOnDisplay (bench .new .hardCS 6 [] [] [some .low]) =
    [.drive .dc .low .ok, .tx 0x22#8 .ok, .drive .dc .high .ok, .tx 0xF7#8 .ok, .drive .dc .low .ok, .tx 0x20#8 .ok,
     .sample (some .low)] := by decide
/-- Two busy polls, then idle: 12 events for the three bytes and 5 for the poll (95, section 2.7). -/
theorem test_turnOn_polls :
    (eventsOf .turnOnDisplay (bench .new .softCS 12 [] [] [some .high, some .high, some .low])).length = 17 := by decide
/-- 500 busy samples: 1001 events, the last the log with code `0x02`, and OK (95, section 2.6). -/
theorem test_readBusy_timeout :
    (eventsOf .readBusy (bench .new .softCS 0 [] [] (List.replicate 500 (some .high)))).getLast? = some (.log 0x02#8) ∧
    (eventsOf .readBusy (bench .new .softCS 0 [] [] (List.replicate 500 (some .high)))).length = 1001 ∧
    completionOf .readBusy (bench .new .softCS 0 [] [] (List.replicate 500 (some .high))) = some 0x0000#16 := by
  decide +kernel
/-- The shutdown goes on with its deep-sleep frame after a time-out of its first busy-wait (R202). -/
theorem test_powerOff_goes_on :
    (wireBytes (after .powerOffAndDeepSleep (bench .new .hardCS 6 [] [] (List.replicate 501 (some .high) ++ [some .low])))) =
      [(false, 0x02#8), (false, 0x10#8), (true, 0x01#8)] ∧
    timeouts (after .powerOffAndDeepSleep
      (bench .new .hardCS 6 [] [] (List.replicate 501 (some .high) ++ [some .low]))).trace = 1 := by decide +kernel
theorem test_turnOn_old : eventsOf .turnOnDisplay (bench .old .softCS 4 [] [] [some .high]) =
    [.drive .dc .low .ok, .drive .cs .low .ok, .tx 0x12#8 .ok, .drive .cs .high .ok, .sample (some .high)] := by decide

/-! ### Sequences (95, sections 2.8 to 2.10, programs P1, P2 and P6) -/

theorem test_init_wire : wireBytes (after .init calm) =
    [(false, 0x12#8), (false, 0x3C#8), (true, 0x05#8), (false, 0x18#8), (true, 0x80#8), (false, 0x11#8), (true, 0x03#8),
     (false, 0x44#8), (true, 0x00#8), (true, 0x01#8)] ++
    [(false, 0x45#8), (true, 0x00#8), (true, 0x00#8), (true, 0x01#8), (true, 0x00#8), (false, 0x4E#8), (true, 0x00#8),
     (false, 0x4F#8), (true, 0x00#8), (true, 0x00#8)] ∧
    (eventsOf .init calm).length = 88 := by decide +kernel
/-- Probe mode, `probe_decode` recognising `0x00`: the byte makes the core Old within INIT. -/
theorem test_init_probe : (after .init (probing (some 0x00#8) .high)).dialect = .old ∧
    (eventsOf .init (probing (some 0x00#8) .high)).length = 102 ∧
    (after .init (probing none .low)).dialect = .new ∧
    completionOf .init (probing none .low) = some 0x0000#16 ∧
    (eventsOf .init (probing none .low)).length = 97 := by decide +kernel
/-- INIT's "call REHOME" is the Old column's own `REHOME_SEQ` (R142, R160). -/
theorem test_init_rehome_old : wireBytes (after .init quirky) = [(false, 0x04#8), (false, 0x01#8), (false, 0x4E#8)] := by
  decide
/-- The framebuffer of P1 before its DISPLAY. -/
def painted : State := { calm with fb := ⟨[(1, 0x7F#8)], [(2, 0x80#8)]⟩ }
theorem test_display_wire : wireBytes (after .display painted) =
    [(false, 0x4E#8), (true, 0x00#8), (false, 0x4F#8), (true, 0x00#8), (true, 0x00#8), (false, 0x24#8), (true, 0xFF#8),
     (true, 0x7F#8), (true, 0xFF#8), (true, 0xFF#8)] ++
    [(false, 0x26#8), (true, 0xFF#8), (true, 0xFF#8), (true, 0x7F#8), (true, 0xFF#8), (false, 0x22#8), (true, 0xF7#8),
     (false, 0x20#8)] ∧
    (eventsOf .display painted).length = 73 := by decide +kernel
/-- P3: the 8th `Tx` fails, 31 events, the device stays selected. -/
theorem test_display_abort :
    (eventsOf .display { painted with env := ⟨List.replicate 30 .ok ++ [.err], 0, [], 0, [], 0⟩ }).length = 31 ∧
    completionOf .display { painted with env := ⟨List.replicate 30 .ok ++ [.err], 0, [], 0, [], 0⟩ } = some 0x0104#16 ∧
    (after .display { painted with env := ⟨List.replicate 30 .ok ++ [.err], 0, [], 0, [], 0⟩ }).lines.cs = .low := by
  decide +kernel
theorem test_panelClear_old : (eventsOf .panelClear calmOld).length = 34 ∧
    (wireBytes (after .panelClear calmOld)).drop 5 =
      [(false, 0x10#8), (true, 0xFF#8), (true, 0xFF#8), (true, 0xFF#8), (true, 0xFF#8), (false, 0x13#8), (true, 0xFF#8),
       (true, 0xFF#8), (true, 0xFF#8), (true, 0xFF#8), (false, 0x12#8)] := by decide +kernel
theorem test_sleep : eventsOf .sleep (bench .new .hardCS 4 [] [] []) =
    [.drive .dc .low .ok, .tx 0x10#8 .ok, .drive .dc .high .ok, .tx 0x03#8 .ok, .delay 2000] := by decide
theorem test_powerOff : eventsOf .powerOffAndDeepSleep (bench .new .hardCS 6 [] [] [some .low, some .low]) =
    [.drive .dc .low .ok, .tx 0x02#8 .ok, .sample (some .low), .drive .dc .low .ok, .tx 0x10#8 .ok, .drive .dc .high .ok,
     .tx 0x01#8 .ok, .sample (some .low)] := by decide

/-! ### Exceptions and the ghost (95, section 2.11, programs P1 and P5) -/

theorem test_misconfigured : completionOf .init (bench .reserved .softCS 9 [] [] []) = some 0x0300#16 ∧
    eventsOf .init (bench .reserved .softCS 9 [] [] []) = [] := by decide
/-- DISPLAY before any INIT: completion OK, ghost `Undefined`. -/
theorem test_display_uninitialized : (after .display calm).ghost.phase = .undefined ∧
    completionOf .display calm = some 0x0000#16 := by decide +kernel
theorem test_init_ready : (after .init calm).ghost.phase = .ready ∧ (after .init calmOld).ghost.phase = .undefined := by
  decide +kernel

/-- The image the persistence shutdown retained is erased by INIT and by PANEL_CLEAR (R246). -/
def retained : State := { calm with ghost := ⟨.asleepPersistent, .shows Framebuffer.fresh, false, false⟩ }
theorem test_retained_image_erased : (after .init retained).ghost = ⟨.ready, .erased, false, false⟩ ∧
    (after .panelClear retained).ghost = ⟨.undefined, .erased, false, false⟩ := by decide +kernel

/-! ### Wire commands (95, section 2.8; R171 to R189) -/

/-- A core with a hardware-selected bus and BUSY idle for New. -/
def plain : State := bench .new .hardCS 20 [] [some 0x01#8] (List.replicate 2 (some .low))

theorem test_wSwReset : wireBytes (after .wSwReset plain) = [(false, 0x12#8)] ∧
    (eventsOf .wSwReset plain).getLast? = some (.sample (some .low)) := by decide
theorem test_wBorderWaveform : wireBytes (after .wBorderWaveform plain) = [(false, 0x3C#8), (true, 0x05#8)] := by decide
theorem test_wTempSensor : wireBytes (after .wTempSensor plain) = [(false, 0x18#8), (true, 0x80#8)] := by decide
theorem test_wDataEntryMode : wireBytes (after .wDataEntryMode plain) = [(false, 0x11#8), (true, 0x03#8)] := by decide
theorem test_wRamXWindow : wireBytes (after .wRamXWindow { plain with straps := strapsFor hardwareGeometry .new .hardCS }) =
    [(false, 0x44#8), (true, 0x00#8), (true, 0x31#8)] := by decide
theorem test_wRamYWindow : wireBytes (after .wRamYWindow { plain with straps := strapsFor hardwareGeometry .new .hardCS }) =
    [(false, 0x45#8), (true, 0x00#8), (true, 0x00#8), (true, 0x2B#8), (true, 0x01#8)] := by decide
theorem test_wRamXCounter : wireBytes (after .wRamXCounter plain) = [(false, 0x4E#8), (true, 0x00#8)] := by decide
theorem test_wRamYCounter : wireBytes (after .wRamYCounter plain) = [(false, 0x4F#8), (true, 0x00#8), (true, 0x00#8)] := by
  decide
theorem test_wWriteBlack : wireBytes (after (.wWriteBlack .framebuffer) { plain with fb := painted.fb }) =
    [(false, 0x24#8), (true, 0xFF#8), (true, 0x7F#8), (true, 0xFF#8), (true, 0xFF#8)] := by decide
/-- "in-memory `0b10110000` transmits as `0b01001111`". -/
theorem test_wWriteRed : wireBytes (after (.wWriteRed .framebuffer) { plain with fb := ⟨[], [(0, 0xB0#8)]⟩ }) =
    [(false, 0x26#8), (true, 0x4F#8), (true, 0xFF#8), (true, 0xFF#8), (true, 0xFF#8)] := by decide
theorem test_wActivation : wireBytes (after .wActivation plain) = [(false, 0x22#8), (true, 0xF7#8)] := by decide
theorem test_wMasterActivate : eventsOf .wMasterActivate plain =
    [.drive .dc .low .ok, .tx 0x20#8 .ok, .sample (some .low)] := by decide
theorem test_wDeepSleep : (eventsOf (.wDeepSleep .ordinary) plain).getLast? = some (.delay 2000) ∧
    wireBytes (after (.wDeepSleep .persistent) plain) = [(false, 0x10#8), (true, 0x01#8)] := by decide
theorem test_wPowerOff : eventsOf .wPowerOff plain = [.drive .dc .low .ok, .tx 0x02#8 .ok, .sample (some .low)] := by decide
theorem test_wDetect : eventsOf .wDetect plain =
    [.drive .dc .low .ok, .tx 0x2F#8 .ok, .delay 50, .drive .dc .high .ok, .rx (some 0x01#8)] := by decide
/-- Outside an INIT the detection frame writes no flag, whatever it reads (R163, R164). -/
theorem test_wDetect_keeps_flag : (after .wDetect (probing (some 0x00#8) .high)).dialect = .new ∧
    (after .wDetect (probing (some 0x00#8) .high)).env.readDraws = 1 := by decide
theorem test_wOldWriteBlack : wireBytes (after (.wOldWriteBlack .framebuffer) { plain with fb := painted.fb }) =
    [(false, 0x10#8), (true, 0xFF#8), (true, 0x7F#8), (true, 0xFF#8), (true, 0xFF#8)] := by decide
theorem test_wOldWriteRed : wireBytes (after (.wOldWriteRed .framebuffer) { plain with fb := ⟨[], [(0, 0xB0#8)]⟩ }) =
    [(false, 0x13#8), (true, 0x4F#8), (true, 0xFF#8), (true, 0xFF#8), (true, 0xFF#8)] := by decide
theorem test_wOldPowerOn : eventsOf .wOldPowerOn (bench .old .hardCS 2 [] [] [some .high]) =
    [.drive .dc .low .ok, .tx 0x04#8 .ok, .sample (some .high)] := by decide
theorem test_wOldRefresh : eventsOf .wOldRefresh (bench .old .hardCS 2 [] [] [some .high]) =
    [.drive .dc .low .ok, .tx 0x12#8 .ok, .sample (some .high)] := by decide

/-! ### Witnesses: for each obligation with hypotheses, states and operands that meet them together -/

/-- Every instruction runs, so a premise `exec i s = .next t` is met. -/
theorem runs (i : Instr) (s : State) : exec i s = .next (after i s) := by
  obtain ⟨t, h⟩ := exec_next i s
  unfold after
  rw [h]

/-- An environment that answers `n` times Ok and shows BUSY idle `m` times is clean for events that ask no more. -/
theorem clean_of {s : State} {d : Dialect} {n m : Nat} {evs : List Event}
    (e : s.env.acks = List.replicate n .ok ∧ s.env.samples = List.replicate m (some (idleLevel d)))
    (h : evs.countP Event.takesAck ≤ n ∧ evs.countP Event.takesSample ≤ m) : s.CleanFor d evs := by
  refine ⟨fun j hj => ?_, fun j hj => ?_⟩
  · have : j < n := by omega
    simp [Env.ackAt, e.1, this]
  · have : j < m := by omega
    simp [Env.sampleAt, e.2, this]

/-- `calm` with other planes: clean for up to 120 bus answers and 4 samples. -/
theorem calm_clean {fb : Framebuffer} {evs : List Event}
    (h : evs.countP Event.takesAck ≤ 120 ∧ evs.countP Event.takesSample ≤ 4) :
    { calm with fb := fb }.CleanFor .new evs := clean_of ⟨rfl, rfl⟩ h

theorem calmOld_clean {evs : List Event} (h : evs.countP Event.takesAck ≤ 120 ∧ evs.countP Event.takesSample ≤ 4) :
    calmOld.CleanFor .old evs := clean_of ⟨rfl, rfl⟩ h

/-- `calm` with a request on the port. -/
def asked (w : RequestWord) : State := { calm with requests := [w] }

/-- `calm` with the sequencer at a frame. -/
def standing (w : FrameWord) : State := calm.standAt w

theorem step_asked {w : RequestWord} {i : Instr} (h : decodeRequest w = .ok i) : step (asked w) = .next (after i calm) := by
  rw [← runs i calm]
  show (match decodeRequest w with | .ok i => exec i _ | .error e => _) = _
  rw [h]
  rfl

/-- No pixel of a fresh framebuffer is the fourth combination. -/
theorem fresh_closed (i : Nat) : Framebuffer.fresh.read .red i &&& ~~~(Framebuffer.fresh.read .black i) = 0#8 :=
  show 0x00#8 &&& ~~~0xFF#8 = 0#8 by decide

/-- The `j`-th sample of a script of `n` equal ones, and the one after them. -/
theorem sample_before {cfg : DialectCfg} {m n j : Nat} {l : Option Level} {more : List (Option Level)} (h : j < n) :
    (bench cfg .softCS m [] [] (List.replicate n l ++ more)).env.sampleAt j = l := by
  simp [bench, Env.sampleAt, List.getElem?_append, h]

theorem ack_before {cfg : DialectCfg} {m j : Nat} {samples : List (Option Level)} (h : j < m) :
    (bench cfg .softCS m [] [] samples).env.ackAt j = .ok := by
  simp [bench, Env.ackAt, h]

theorem sample_at {cfg : DialectCfg} {n : Nat} {l r : Option Level} :
    (bench cfg .softCS 0 [] [] (List.replicate n l ++ [r])).env.sampleAt n = r := by
  simp [bench, Env.sampleAt]

theorem witness_StepRunsFetchedInstruction :
    ((asked 0xD00000000000#48).seq.sp = .idle ∧ (asked 0xD00000000000#48).requests = 0xD00000000000#48 :: [] ∧
      decodeRequest 0xD00000000000#48 = .ok .reset) ∧
    ((standing 0x003C#16).seq.sp = .frame 0x003C#16 ∧
      decodeFrame (standing 0x003C#16).dialect 0x003C#16 = .ok .wBorderWaveform) ∧
    (State.reset.seq.sp = .idle ∧ State.reset.requests = []) := by decide

theorem witness_PlacedWordRuns : State.reset.seq.sp = .idle ∧ decodeTableWord 48 0xD00000000000 = some .reset ∧
    State.reset.dialect = .new ∧ decodeTableWord 8 0x3C = some .wBorderWaveform := by decide

/-- Both outcomes of a step occur. -/
theorem witness_StepAnswersOrFaultsOnUnknownFrame : (∃ t, step State.reset = .next t) ∧
    (standing 0x0071#16).seq.sp = .frame 0x0071#16 ∧
    decodeFrame (standing 0x0071#16).dialect 0x0071#16 = .error (.unknownFrame 0x71#16) ∧
    step (standing 0x0071#16) = .fault .unknownFrame := ⟨⟨_, rfl⟩, rfl, by decide, rfl⟩

theorem witness_RequestUsesOnlyItsBits : decodeRequest 0xD5FFFFFFFFFF#48 = .ok .init ∧
    decodeRequest 0xA2FDFFFFFFFF#48 = .ok (.fbSetPixel 0xFFFF#16 0xFFFF#16 0b01#2) := by decide

theorem witness_RequestDecoderFollowsTable : reqOp 0xA10000000000#48 ∈ requestOps ∧ reqOp 0xD90000000000#48 ∈ requestOps ∧
    reqOp 0xA00000000000#48 ∉ requestOps ∧ reqOp 0xDA0000000000#48 ∉ requestOps := by decide

theorem witness_ConstructionValues : (strapsFor small .new .softCS).dialectCfg = .new ∧
    (strapsFor small .probe .softCS).dialectCfg = .probe ∧ (strapsFor small .old .softCS).dialectCfg = .old := by decide

theorem witness_StepKeepsFramebufferInv : FramebufferInv (asked 0xA203000D0001#48) ∧
    step (asked 0xA203000D0001#48) = .next (after (.fbSetPixel 13#16 1#16 0b11#2) calm) ∧
    (after (.fbSetPixel 13#16 1#16 0b11#2) calm).fb = ⟨[], [(3, 0x04#8)]⟩ :=
  ⟨⟨by decide, by decide, fresh_closed⟩, step_asked (by decide), by decide⟩

theorem witness_StepKeepsControlInv :
    (ControlInv (asked 0xA101FFFFFFFF#48) ∧
      step (asked 0xA101FFFFFFFF#48) = .next (after (.fbClear 0b01#2) calm)) ∧
    ∃ s t, s.mode = .configFault ∧ ControlInv s ∧ step s = .next t ∧ t.completions = [0x0300#16] := by
  refine ⟨⟨⟨rfl, fun _ => rfl, by decide, by decide, fun _ h => nomatch h⟩, step_asked (by decide)⟩,
    { bench .reserved .softCS 0 [] [] [] with requests := [0#48] }, _, rfl,
    ⟨rfl, by decide, by decide, fun _ => ⟨rfl, fun _ h => nomatch h⟩, fun _ h => nomatch h⟩, rfl, rfl⟩

theorem witness_StepKeepsTraceInv :
    (TraceInv (asked 0xD00000000000#48) ∧ step (asked 0xD00000000000#48) = .next (after .reset calm)) ∧
    ∃ s t, TraceInv s ∧ s.straps.csMode = .hardCS ∧ step s = .next t ∧ t.ghost.faultMark = true := by
  refine ⟨⟨⟨rfl, fun h => absurd h (by decide), by decide⟩, step_asked (by decide)⟩,
    { bench .old .hardCS 0 [.err] [] [] with requests := [0xD10000000000#48] }, _, ⟨rfl, fun _ => ?_, by decide⟩, rfl, rfl,
    by decide⟩
  intro v a h
  cases h

theorem witness_MisconfiguredCoreIsDead : (strapsFor small .reserved .softCS).dialectCfg = .reserved ∧
    ({ bench .reserved .softCS 0 [] [] [] with requests := [0#48] } : State).mode = .configFault ∧
    ({ bench .reserved .softCS 0 [] [] [] with requests := [0#48] } : State).seq.sp = .idle := by decide

theorem witness_IllegalRequestsChangeNothing : (asked 0x240000000000#48).mode = .operational ∧
    (asked 0x240000000000#48).seq.sp = .idle ∧ reqOp 0x240000000000#48 ∉ requestOps ∧ large.mode = .operational ∧
    planeBytes large.straps.geometry ≤ (15000#32).toNat := by decide

theorem witness_FbClearFillsPlanes : large.mode = .operational ∧ (0b00#2 : BitVec 2) ≠ 0b01#2 ∧
    (0b10#2 : BitVec 2) ≠ 0b01#2 ∧ (0b11#2 : BitVec 2) ≠ 0b01#2 ∧ 14999 < planeBytes large.straps.geometry := by decide

theorem large_framebufferInv : FramebufferInv large := ⟨by decide, by decide, fresh_closed⟩

theorem witness_FbSetPixelSetsTwoBits : large.mode = .operational ∧ FramebufferInv large ∧ (0b11#2 : BitVec 2) ≠ 0b01#2 ∧
    ((399#16).toNat < large.straps.geometry.width ∧ (299#16).toNat < large.straps.geometry.height) ∧
    (0 : Nat) ≠ (299#16).toNat * (large.straps.geometry.width / 8) + (399#16).toNat / 8 ∧
    ¬((400#16).toNat < large.straps.geometry.width ∧ (299#16).toNat < large.straps.geometry.height) ∧
    ¬((399#16).toNat < large.straps.geometry.width ∧ (300#16).toNat < large.straps.geometry.height) :=
  ⟨rfl, large_framebufferInv, by decide, by decide, by decide, by decide, by decide⟩

theorem witness_FbReadReturnsPlaneByte : large.mode = .operational ∧
    (14999#32).toNat < planeBytes large.straps.geometry ∧ (0#32).toNat < planeBytes large.straps.geometry := by decide

theorem witness_PixelMapIsInjective : (399#16).toNat < hardwareGeometry.width ∧ (299#16).toNat < hardwareGeometry.height ∧
    byteIndex hardwareGeometry 399#16 299#16 = byteIndex hardwareGeometry 399#16 299#16 ∧
    bitMask 399#16 = bitMask 399#16 := by decide

theorem witness_LastWriteWins : large.mode = .operational ∧ FramebufferInv large ∧ (0b00#2 : BitVec 2) ≠ 0b01#2 ∧
    ((399#16).toNat < large.straps.geometry.width ∧ (299#16).toNat < large.straps.geometry.height) ∧
    exec (.fbSetPixel 399#16 299#16 0b00#2) large = .next (after (.fbSetPixel 399#16 299#16 0b00#2) large) ∧
    exec (.fbClear 0b00#2) large = .next (after (.fbClear 0b00#2) large) :=
  ⟨rfl, large_framebufferInv, by decide, by decide, runs _ _, runs _ _⟩

theorem witness_RepeatedPaintIsIdempotent : FramebufferInv large ∧ ∃ t u v w,
    exec (.fbClear 0b11#2) large = .next t ∧ exec (.fbClear 0b11#2) t = .next u ∧
    exec (.fbSetPixel 0#16 0#16 0b11#2) large = .next v ∧ exec (.fbSetPixel 0#16 0#16 0b11#2) v = .next w :=
  ⟨large_framebufferInv, _, _, _, _, runs _ _, runs _ _, runs _ _, runs _ _⟩

theorem witness_SendByteFrames : calm.mode = .operational ∧
    calm.CleanFor calm.dialect (byteEvents calm.straps .low 0xFF#8) ∧
    calm.CleanFor calm.dialect (byteEvents calm.straps .high 0xFF#8) :=
  ⟨rfl, calm_clean (by decide), calm_clean (by decide)⟩

/-- One environment for each of the five clauses. -/
theorem witness_SendByteAborts :
    ((bench .new .softCS 0 [.err] [] []).mode = .operational ∧ (bench .new .softCS 0 [.err] [] []).env.ackAt 0 = .err) ∧
    ((bench .new .softCS 1 [.err] [] []).straps.csMode = .softCS ∧
      (bench .new .softCS 1 [.err] [] []).env.ackAt 0 = .ok ∧ (bench .new .softCS 1 [.err] [] []).env.ackAt 1 = .err) ∧
    ((bench .new .softCS 2 [.err] [] []).env.ackAt 1 = .ok ∧ (bench .new .softCS 2 [.err] [] []).env.ackAt 2 = .err) ∧
    ((bench .new .softCS 3 [.err] [] []).env.ackAt 2 = .ok ∧ (bench .new .softCS 3 [.err] [] []).env.ackAt 3 = .err) ∧
    ((bench .new .hardCS 1 [.err] [] []).straps.csMode = .hardCS ∧
      (bench .new .hardCS 1 [.err] [] []).env.ackAt 0 = .ok ∧ (bench .new .hardCS 1 [.err] [] []).env.ackAt 1 = .err) := by
  decide

/-- The clean pulse, and the abort at each of its three drives. -/
theorem witness_ResetPulsesPanel : calm.mode = .operational ∧ calm.AcksOk 3 ∧
    ∀ k, k < 3 → (bench .new .softCS k [.err] [] []).AcksOk k ∧ (bench .new .softCS k [.err] [] []).env.ackAt k = .err := by
  refine ⟨rfl, ?_, ?_⟩ <;> unfold State.AcksOk <;> decide

/-- The boundary values 0 and 499. -/
theorem witness_ReadBusyPollsUntilIdle :
    (bench .new .softCS 0 [] [] [some .low]).env.sampleAt 0 = some (idleLevel .new) ∧
    (bench .new .softCS 0 [] [] (List.replicate 499 (some .high) ++ [some .low])).mode = .operational ∧
    (∀ j, j < 499 → (bench .new .softCS 0 [] [] (List.replicate 499 (some .high) ++ [some .low])).env.sampleAt j =
      some (busyLevelOf .new)) ∧
    (bench .new .softCS 0 [] [] (List.replicate 499 (some .high) ++ [some .low])).env.sampleAt 499 =
      some (idleLevel .new) := by
  exact ⟨rfl, rfl, fun j hj => sample_before hj, sample_at⟩

/-- 500 busy samples; and a failing sample first of all and as the last of the 500. -/
theorem witness_ReadBusyIsBounded :
    (∀ j, j < 500 → (bench .new .softCS 0 [] [] (List.replicate 500 (some .high) ++ [])).env.sampleAt j =
      some (busyLevelOf .new)) ∧
    (bench .new .softCS 0 [] [] [none]).env.sampleAt 0 = none ∧
    (∀ j, j < 499 → (bench .new .softCS 0 [] [] (List.replicate 499 (some .high) ++ [none])).env.sampleAt j =
      some (busyLevelOf .new)) ∧
    (bench .new .softCS 0 [] [] (List.replicate 499 (some .high) ++ [none])).env.sampleAt 499 = none := by
  exact ⟨fun j hj => sample_before hj, rfl, fun j hj => sample_before hj, sample_at⟩

/-- A core whose bus never fails and whose BUSY line stays busy for `n` samples. -/
def busy (n : Nat) : State := bench .new .softCS 120 [] [] (List.replicate n (some .high) ++ [])

/-- Operations with one and with two busy-waits, all of them timing out. -/
theorem witness_OperationsGoOnAfterTimeouts : ∀ i ∈ [Instr.turnOnDisplay, .powerOffAndDeepSleep, .init],
    (busy 1000).mode = .operational ∧ (access i).events = true ∧ .new = (busy 1000).dialectAfter i ∧
    (busy 1000).AcksOk ((cleanEvents (busy 1000).straps .new (sequenceOf i (busy 1000) .new)).countP Event.takesAck) ∧
    (busy 1000).SamplesOk (500 * pollsOf (sequenceOf i (busy 1000) .new)) := by
  intro i hi
  have few : (cleanEvents (busy 1000).straps .new (sequenceOf i (busy 1000) .new)).countP Event.takesAck ≤ 120 ∧
      500 * pollsOf (sequenceOf i (busy 1000) .new) ≤ 1000 := by
    revert i
    decide +kernel
  refine ⟨rfl, ?_, ?_, fun j hj => ?_, fun j hj => ?_⟩
  · revert i; decide
  · revert i; decide
  · rw [busy, ack_before (by omega)]
  · rw [busy, sample_before (by omega)]
    simp

theorem witness_TurnOnDisplayRefreshes : calm.mode = .operational ∧
    calm.CleanFor calm.dialect (frameEvents calm.straps calm.dialect (refreshFrames calm.dialect)) ∧
    calmOld.mode = .operational ∧
    calmOld.CleanFor calmOld.dialect (frameEvents calmOld.straps calmOld.dialect (refreshFrames calmOld.dialect)) :=
  ⟨rfl, calm_clean (by decide), rfl, calmOld_clean (by decide)⟩

theorem witness_InitSendsConfiguration : calm.straps.dialectCfg ≠ .probe ∧
    calm.CleanFor calm.dialect
      (resetEvents calm.straps ++ frameEvents calm.straps calm.dialect (initFrames calm.straps.geometry calm.dialect)) ∧
    calmOld.straps.dialectCfg ≠ .probe ∧ OldAsNew calmOld.straps ∧
    calmOld.CleanFor calmOld.dialect (resetEvents calmOld.straps ++
      frameEvents calmOld.straps calmOld.dialect (initFrames calmOld.straps.geometry calmOld.dialect)) :=
  ⟨by decide, calm_clean (by decide +kernel), by decide, rfl, calmOld_clean (by decide +kernel)⟩

/-- A failed read (New), an unrecognised byte (New) and a recognised one (Old). -/
theorem witness_InitProbesDialect :
    (∀ r ∈ [none, some 0x01#8], (probing r .low).straps.dialectCfg = .probe ∧
      (probing r .low).CleanFor .new (resetEvents (probing r .low).straps ++
        (frameEvents (probing r .low).straps .new [C 0x2F#8] ++ ([.delay 50] ++
          (probeReadEvents (probing r .low).straps ((probing r .low).env.readAt 0) ++
            frameEvents (probing r .low).straps .new (initFrames (probing r .low).straps.geometry .new)))))) ∧
    (probing (some 0x00#8) .high).env.readAt 0 = some 0x00#8 ∧
    0x00#8 ∈ (probing (some 0x00#8) .high).straps.probeOld ∧ OldAsNew (probing (some 0x00#8) .high).straps ∧
    (probing (some 0x00#8) .high).CleanFor .old (resetEvents (probing (some 0x00#8) .high).straps ++
      (frameEvents (probing (some 0x00#8) .high).straps .old [C 0x2F#8] ++ ([.delay 50] ++
        (probeReadEvents (probing (some 0x00#8) .high).straps ((probing (some 0x00#8) .high).env.readAt 0) ++
          frameEvents (probing (some 0x00#8) .high).straps .old
            (initFrames (probing (some 0x00#8) .high).straps.geometry .old))))) := by
  refine ⟨fun r hr => ⟨rfl, clean_of (n := 120) (m := 4) ⟨by simp [probing, bench], rfl⟩ ?_⟩, rfl, by decide, rfl,
    clean_of (n := 120) (m := 4) ⟨by simp [probing, bench], rfl⟩ (by decide +kernel)⟩
  revert r
  decide +kernel

theorem witness_DisplayStreamsPlanes : painted.mode = .operational ∧
    painted.CleanFor painted.dialect (frameEvents painted.straps painted.dialect
      (imageFrames painted.dialect (planeBytes painted.straps.geometry) (painted.fb.read .black) (painted.fb.read .red))) ∧
    OldAsNew calmOld.straps ∧
    calmOld.CleanFor calmOld.dialect (frameEvents calmOld.straps calmOld.dialect
      (imageFrames calmOld.dialect (planeBytes calmOld.straps.geometry) (calmOld.fb.read .black) (calmOld.fb.read .red))) :=
  ⟨rfl, calm_clean (by decide +kernel), rfl, calmOld_clean (by decide +kernel)⟩

theorem witness_PanelClearStreamsWhite : painted.mode = .operational ∧
    painted.CleanFor painted.dialect (frameEvents painted.straps painted.dialect
      (imageFrames painted.dialect (planeBytes painted.straps.geometry) (fun _ => 0xFF#8) (fun _ => 0x00#8) ++ [Bw])) ∧
    calmOld.CleanFor calmOld.dialect (frameEvents calmOld.straps calmOld.dialect
      (imageFrames calmOld.dialect (planeBytes calmOld.straps.geometry) (fun _ => 0xFF#8) (fun _ => 0x00#8) ++ [Bw])) :=
  ⟨rfl, calm_clean (by decide +kernel), calmOld_clean (by decide +kernel)⟩

theorem witness_SleepSendsDeepSleep :
    calm.CleanFor calm.dialect (frameEvents calm.straps calm.dialect [C 0x10#8, D 0x03#8] ++ [.delay 2000]) ∧
    OldAsNew calmOld.straps ∧
    calmOld.CleanFor calmOld.dialect (frameEvents calmOld.straps calmOld.dialect [C 0x10#8, D 0x03#8] ++ [.delay 2000]) :=
  ⟨calm_clean (by decide), rfl, calmOld_clean (by decide)⟩

theorem witness_ShutdownKeepsItsOrder :
    calm.CleanFor calm.dialect (frameEvents calm.straps calm.dialect [C 0x02#8, Bw, C 0x10#8, D 0x01#8, Bw]) ∧
    calmOld.CleanFor calmOld.dialect
      (frameEvents calmOld.straps calmOld.dialect [C 0x02#8, Bw, C 0x10#8, D 0x01#8, Bw]) :=
  ⟨calm_clean (by decide), calmOld_clean (by decide)⟩

theorem quirky_clean {evs : List Event} (h : evs.countP Event.takesAck ≤ 120 ∧ evs.countP Event.takesSample ≤ 4) :
    quirky.CleanFor .old evs := clean_of ⟨rfl, rfl⟩ h

/-- A core under the Probe strap whose probe reads Old, with that column. -/
def quirkyProbing : State :=
  { probing (some 0x00#8) .high with
    straps := { strapsFor small .probe .softCS with probeOld := [0x00#8], oldTail := quirkyTail } }

/-- Each of the five operations of an Old core, and INIT of a core whose probe settles it. -/
theorem witness_OldConfigurationIsFollowed :
    (∀ i ∈ [Instr.init, .display, .panelClear, .sleep, .powerOffAndDeepSleep],
      quirky.mode = .operational ∧ quirky.dialectAfter i = .old) ∧
    quirky.CleanFor .old (resetEvents quirky.straps ++ ((if quirky.straps.dialectCfg = .probe then
        frameEvents quirky.straps .old [C 0x2F#8] ++ ([.delay 50] ++
          probeReadEvents quirky.straps (quirky.env.readAt 0)) else []) ++
      frameEvents quirky.straps .old ([C 0x04#8, Bw] ++ oldConfigFrames quirky.straps))) ∧
    quirky.CleanFor .old (frameEvents quirky.straps .old (itemsOf quirky.straps.oldTail.rehomeSeq ++
      planeFrame 0x10#8 (planeBytes quirky.straps.geometry) (quirky.fb.read .black) ++
      planeFrame 0x13#8 (planeBytes quirky.straps.geometry)
        (fun j => if quirky.straps.oldTail.redInvert then ~~~(quirky.fb.read .red j) else quirky.fb.read .red j) ++
      [C 0x12#8, Bw])) ∧
    quirky.CleanFor .old (frameEvents quirky.straps .old (itemsOf quirky.straps.oldTail.rehomeSeq ++
      planeFrame 0x10#8 (planeBytes quirky.straps.geometry) (fun _ => 0xFF#8) ++
      planeFrame 0x13#8 (planeBytes quirky.straps.geometry)
        (fun _ => if quirky.straps.oldTail.redInvert then 0xFF#8 else 0x00#8) ++ [C 0x12#8, Bw, Bw])) ∧
    quirky.CleanFor .old (frameEvents quirky.straps .old (itemsOf quirky.straps.oldTail.sleepSeq) ++ [.delay 2000]) ∧
    quirky.CleanFor .old (frameEvents quirky.straps .old quirky.straps.oldTail.shutdownSeq) ∧
    quirkyProbing.mode = .operational ∧ quirkyProbing.dialectAfter .init = .old ∧
    quirkyProbing.CleanFor .old (resetEvents quirkyProbing.straps ++
      ((if quirkyProbing.straps.dialectCfg = .probe then frameEvents quirkyProbing.straps .old [C 0x2F#8] ++
          ([.delay 50] ++ probeReadEvents quirkyProbing.straps (quirkyProbing.env.readAt 0)) else []) ++
        frameEvents quirkyProbing.straps .old ([C 0x04#8, Bw] ++ oldConfigFrames quirkyProbing.straps))) :=
  ⟨by decide, quirky_clean (by decide), quirky_clean (by decide +kernel), quirky_clean (by decide +kernel),
    quirky_clean (by decide), quirky_clean (by decide), rfl, by decide,
    clean_of (n := 120) (m := 4) ⟨by simp [quirkyProbing, probing, bench], rfl⟩ (by decide +kernel)⟩

/-- Every form of the list, under New and Old and, for INIT, under the Probe strap with either verdict. -/
theorem witness_CleanEventCounts :
    (∀ i ∈ [Instr.init, .display, .panelClear, .turnOnDisplay],
      (calm.dialectAfter i = .new ∧ calm.CleanFor .new (cleanEvents calm.straps .new (sequenceOf i calm .new))) ∧
      (calmOld.dialectAfter i = .old ∧
        calmOld.CleanFor .old (cleanEvents calmOld.straps .old (sequenceOf i calmOld .old)))) ∧
    calm.straps.tInterbyte = 0 ∧ calmOld.straps.tInterbyte = 0 ∧ OldAsNew calmOld.straps ∧
    ((probing none .low).dialectAfter .init = .new ∧ (probing none .low).CleanFor .new
      (cleanEvents (probing none .low).straps .new (sequenceOf .init (probing none .low) .new))) ∧
    ((probing (some 0x00#8) .high).dialectAfter .init = .old ∧ OldAsNew (probing (some 0x00#8) .high).straps ∧
      (probing (some 0x00#8) .high).CleanFor .old
        (cleanEvents (probing (some 0x00#8) .high).straps .old (sequenceOf .init (probing (some 0x00#8) .high) .old))) := by
  refine ⟨fun i hi => ⟨⟨?_, calm_clean (fb := calm.fb) ?_⟩, ?_, calmOld_clean ?_⟩, rfl, rfl, rfl,
    ⟨by decide, clean_of (n := 120) (m := 4) ⟨by simp [probing, bench], rfl⟩ (by decide +kernel)⟩, by decide, rfl,
    clean_of (n := 120) (m := 4) ⟨by simp [probing, bench], rfl⟩ (by decide +kernel)⟩ <;> revert i <;> decide +kernel

theorem witness_WireParameterFrames : calm.mode = .operational ∧
    ∀ items ∈ [[C 0x3C#8, D 0x05#8], [C 0x44#8, D 0x00#8, D 0x01#8],
      [C 0x45#8, D 0x00#8, D 0x00#8, D 0x01#8, D 0x00#8], [C 0x4F#8, D 0x00#8, D 0x00#8]],
      calm.CleanFor calm.dialect (frameEvents calm.straps calm.dialect items) := by
  refine ⟨rfl, fun items hi => calm_clean ?_⟩
  revert items
  decide

theorem witness_WirePolledFrames : calmOld.mode = .operational ∧ ∀ cmd ∈ [0x12#8, 0x20#8, 0x02#8, 0x04#8],
    calmOld.CleanFor calmOld.dialect (frameEvents calmOld.straps calmOld.dialect [C cmd, Bw]) ∧
    calm.CleanFor calm.dialect (frameEvents calm.straps calm.dialect [C cmd, Bw]) := by
  refine ⟨rfl, fun cmd hc => ⟨calmOld_clean ?_, calm_clean ?_⟩⟩ <;> revert cmd <;> decide

theorem witness_WirePlaneFrames : painted.mode = .operational ∧ ∀ cmd ∈ [0x24#8, 0x26#8, 0x10#8, 0x13#8],
    painted.CleanFor painted.dialect (frameEvents painted.straps painted.dialect
      (planeFrame cmd (planeBytes painted.straps.geometry) (painted.fb.read .black))) := by
  refine ⟨rfl, fun cmd hc => calm_clean ?_⟩
  revert cmd
  decide

theorem witness_WireDeepSleepFrames : calm.mode = .operational ∧
    calm.CleanFor calm.dialect (frameEvents calm.straps calm.dialect [C 0x10#8, D 0x03#8] ++ [.delay 2000]) ∧
    calm.CleanFor calm.dialect (frameEvents calm.straps calm.dialect [C 0x10#8, D 0x01#8, Bw]) :=
  ⟨rfl, calm_clean (by decide), calm_clean (by decide)⟩

theorem witness_WireDetectReads : plain.mode = .operational ∧ plain.dialect = .new ∧
    plain.CleanFor plain.dialect (frameEvents plain.straps plain.dialect [C 0x2F#8] ++ ([.delay 50] ++
      probeReadEvents plain.straps (plain.env.readAt 0))) ∧
    (probing none .low).CleanFor (probing none .low).dialect (frameEvents (probing none .low).straps .new [C 0x2F#8] ++
      ([.delay 50] ++ probeReadEvents (probing none .low).straps ((probing none .low).env.readAt 0))) :=
  ⟨rfl, rfl, clean_of (n := 20) (m := 2) ⟨by simp [plain, bench], rfl⟩ (by decide),
    clean_of (n := 120) (m := 4) ⟨by simp [probing, bench], rfl⟩ (by decide)⟩

theorem witness_AccessMatrixHolds : exec (.fbRead .red 0#32) large = .next (after (.fbRead .red 0#32) large) ∧
    (access (.fbRead .red 0#32)).fb = false ∧ (access (.fbRead .red 0#32)).dialect = false ∧
    (access (.fbRead .red 0#32)).rst = false ∧ (access (.fbRead .red 0#32)).dcCs = false ∧
    (access (.fbRead .red 0#32)).events = false ∧
    exec .init calmOld = .next (after .init calmOld) ∧ calmOld.straps.csMode = .hardCS ∧
    calmOld.straps.dialectCfg ≠ .probe := ⟨runs _ _, rfl, rfl, rfl, rfl, rfl, runs _ _, rfl, by decide⟩

/-- An operation that runs to its end, one that aborts, an INIT whose probe changes the dialect, and one that aborts after
that. -/
theorem witness_AbortIsPrecise : (access .reset).events = true ∧ (access .init).events = true ∧ calm.mode = .operational ∧
    exec .reset calm = .next (after .reset calm) ∧ (bench .new .softCS 1 [.err] [] []).mode = .operational ∧
    exec .reset (bench .new .softCS 1 [.err] [] []) = .next (after .reset (bench .new .softCS 1 [.err] [] [])) ∧
    exec .init (probing (some 0x00#8) .high) = .next (after .init (probing (some 0x00#8) .high)) ∧
    ∃ s, s.mode = .operational ∧ exec .init s = .next (after .init s) ∧ (after .init s).dialect ≠ s.dialect ∧
      (after .init s).completions = [0x0104#16] := by
  refine ⟨rfl, rfl, rfl, runs _ _, rfl, runs _ _, runs _ _,
    { probing (some 0x00#8) .high with env := ⟨List.replicate 12 .ok ++ [.err], 0, [some 0x00#8], 0, [], 0⟩ }, rfl,
    runs _ _, ?_⟩
  decide +kernel

theorem witness_OneCompletionEach : exec .reset calm = .next (after .reset calm) ∧
    (asked 0xD00000000000#48).seq.sp = .idle ∧ (asked 0xD00000000000#48).requests = 0xD00000000000#48 :: [] ∧
    step (asked 0xD00000000000#48) = .next (after .reset calm) :=
  ⟨runs _ _, rfl, rfl, step_asked (by decide)⟩

/-- Every form of the list, with default pacing and the Old column equal to New's. -/
theorem witness_EventCountsAreBounded : calm.straps.tInterbyte = 0 ∧ OldAsNew calm.straps ∧
    (∀ i, exec i calm = .next (after i calm)) ∧ (after .init calm).dialect = .new ∧
    quirky.straps.tInterbyte = 0 ∧ exec .init quirky = .next (after .init quirky) :=
  ⟨rfl, rfl, fun _ => runs _ _, by decide +kernel, rfl, runs _ _⟩

/-- An INIT that ends New by its strap, and one that ends New by its probe. -/
theorem witness_WaitingIsBounded : calm.straps.tInterbyte = 0 ∧ OldAsNew calm.straps ∧
    (∀ i, exec i calm = .next (after i calm)) ∧ calm.straps.dialectCfg ≠ .probe ∧ calm.dialect = .new ∧
    OldAsNew (probing none .low).straps ∧ (probing none .low).straps.dialectCfg = .probe ∧
    exec .init (probing none .low) = .next (after .init (probing none .low)) ∧
    (after .init (probing none .low)).dialect = .new :=
  ⟨rfl, rfl, fun _ => runs _ _, by decide, rfl, rfl, rfl, runs _ _, by decide +kernel⟩

theorem witness_TimeoutsAreCounted : OldAsNew calm.straps ∧ (∀ i, exec i calm = .next (after i calm)) ∧
    OldAsNew (probing none .low).straps ∧ (probing none .low).straps.dialectCfg = .probe ∧
    exec .init (probing none .low) = .next (after .init (probing none .low)) ∧
    (after .init (probing none .low)).dialect = .new :=
  ⟨rfl, fun _ => runs _ _, rfl, rfl, runs _ _, by decide +kernel⟩

/-- `calm` with an initialised panel. -/
def initialised : State := { calm with ghost := ⟨.ready, .unknown, false, false⟩ }

/-- A DISPLAY from `Ready` that stays `Ready`, and an operation that aborts. -/
theorem witness_GhostFollowsTable : initialised.mode = .operational ∧ (access .display).events = true ∧
    exec .display initialised = .next (after .display initialised) ∧
    (after .display initialised).completions = 0x0000#16 :: initialised.completions ∧
    timeouts (after .display initialised).trace = timeouts initialised.trace ∧
    (after .display initialised).ghost.phase = .ready ∧
    (after .init retained).completions = 0x0000#16 :: retained.completions ∧ (after .init retained).ghost.phase = .ready ∧
    retained.ghost.phase = .asleepPersistent ∧
    (after .panelClear retained).completions = 0x0000#16 :: retained.completions ∧
    timeouts (after .panelClear retained).trace = timeouts retained.trace ∧
    (after .powerOffAndDeepSleep initialised).ghost.phase = .asleepPersistent ∧
    (after .panelClear initialised).ghost.phase = .ready ∧
    (after .reset (bench .new .softCS 1 [.err] [] [])).completions ≠ [0x0000#16] ∧
    (after .reset (after .reset (bench .new .softCS 1 [.err, .ok, .ok, .ok] [] []))).ghost.faultMark = true := by
  refine ⟨rfl, rfl, runs _ _, ?_⟩
  decide +kernel

theorem witness_OnlyInitLeavesUndefined :
    ({ calm with ghost := Ghost.atAbort calm.ghost } : State).ghost.phase = .undefined ∧
    exec .init { calm with ghost := Ghost.atAbort calm.ghost } =
      .next (after .init { calm with ghost := Ghost.atAbort calm.ghost }) ∧
    (after .init { calm with ghost := Ghost.atAbort calm.ghost }).ghost.phase ≠ .undefined :=
  ⟨rfl, runs _ _, by decide +kernel⟩

theorem witness_StepKeepsPanelImage :
    (∀ fb, (asked 0xD60000000000#48).ghost.image = .shows fb →
      (asked 0xD60000000000#48).ghost.phase = .ready ∨ (asked 0xD60000000000#48).ghost.phase = .asleepPersistent) ∧
    step (asked 0xD60000000000#48) = .next (after .display calm) ∧
    (after .display initialised).ghost.image = .shows initialised.fb := by
  refine ⟨fun fb h => ?_, step_asked (by decide), by decide +kernel⟩
  cases h

theorem witness_DefaultProbeKeepsNew : ∃ s t, s.straps.probeOld = [] ∧ s.straps.dialectCfg = .probe ∧ s.dialect = .new ∧
    step s = .next t ∧ t.dialect = .new := by
  refine ⟨{ bench .probe .softCS 120 [] [some 0xFF#8] (List.replicate 4 (some .low)) with requests := [0xD50000000000#48] },
    after .init (bench .probe .softCS 120 [] [some 0xFF#8] (List.replicate 4 (some .low))), rfl, rfl, rfl, rfl, ?_⟩
  decide +kernel

/-- An INIT request of a core under the Probe strap changes the flag. -/
theorem witness_OnlyInitWritesDialect : ∃ s t, step s = .next t ∧ s.dialect = .new ∧ t.dialect = .old := by
  refine ⟨{ probing (some 0x00#8) .high with requests := [0xD50000000000#48] }, after .init (probing (some 0x00#8) .high), rfl,
    rfl, ?_⟩
  decide +kernel

theorem witness_GhostNeverInfluences : step (asked 0xD00000000000#48) = .next (after .reset calm) :=
  step_asked (by decide)

theorem witness_DeadRegistersNeverRead : exec .display painted = .next (after .display painted) := runs _ _

theorem witness_OnlyDisplayReadsPlanes : (access .panelClear).events = true ∧
    Instr.panelClear ∉ [Instr.display, .wWriteBlack .framebuffer, .wWriteRed .framebuffer, .wOldWriteBlack .framebuffer,
      .wOldWriteRed .framebuffer] ∧
    exec .panelClear painted = .next (after .panelClear painted) := ⟨rfl, by decide, runs _ _⟩

theorem witness_SequencerIdleAfterStep : step (standing 0x003C#16) = .next (after .wBorderWaveform calm) := rfl

/-- An operation that ends OK, the same under the other chip-select mode with pacing, and one that aborts. -/
theorem witness_WireProjectionIgnoresSelect : painted.mode = .operational ∧ (access .display).events = true ∧
    exec .display painted = .next (after .display painted) ∧
    (after .display painted).completions = 0x0000#16 :: painted.completions ∧
    exec .display { painted with straps := { painted.straps with csMode := .hardCS, tInterbyte := 3 } } =
      .next (after .display { painted with straps := { painted.straps with csMode := .hardCS, tInterbyte := 3 } }) ∧
    (after .display { painted with straps := { painted.straps with csMode := .hardCS, tInterbyte := 3 } }).completions =
      0x0000#16 :: painted.completions ∧
    (bench .new .softCS 4 [.err] [] []).mode = .operational ∧
    exec .display (bench .new .softCS 4 [.err] [] []) = .next (after .display (bench .new .softCS 4 [.err] [] [])) :=
  ⟨rfl, rfl, runs _ _, by decide +kernel, runs _ _, by decide +kernel, rfl, runs _ _⟩

end Sys2Proof.Tests
end

section
/-! The statements of the family 00_scope.md: what a step runs and answers (R16), which geometries exist (R8), and what an
operation puts on the wire (R15). -/

namespace Sys2Proof.Machine

/-! ### What a step runs -/

/-- An idle sequencer takes the request off the port (R16). -/
theorem taken_idle {s : State} (hsp : s.seq.sp = .idle) : s.taken = s.dropRequest := by
  simp [State.taken, hsp]

/-- What is left of the waiting requests when the one on the port is taken (R16). -/
theorem dropRequest_eq {s : State} {w : RequestWord} {rest : List RequestWord} (hr : s.requests = w :: rest) :
    s.dropRequest = { s with requests := rest } := by
  simp [State.dropRequest, hr]

/-- An idle sequencer runs the request on the port (R16). -/
theorem step_request {s : State} {w : RequestWord} {rest : List RequestWord} {i : Instr} (hsp : s.seq.sp = .idle)
    (hr : s.requests = w :: rest) (hi : decodeRequest w = .ok i) : step s = exec i s.dropRequest := by
  simp [step, State.fetch, taken_idle hsp, hsp, hr, decode, hi]

/-- A sequencer that stands at a frame runs it and leaves it (R28). -/
theorem step_frame {s : State} {w : FrameWord} {i : Instr} (hsp : s.seq.sp = .frame w)
    (hi : decodeFrame s.dialect w = .ok i) : step s = exec i s.leaveFrame := by
  simp [step, State.fetch, State.taken, hsp, decode, hi]

/-- With no request presented the core waits (log entry 1). -/
theorem step_no_request {s : State} (hsp : s.seq.sp = .idle) (hr : s.requests = []) : step s = .next s := by
  simp [step, State.fetch, hsp, hr]

/-- Settles O1: a request, a frame, or nothing is fetched. -/
theorem stepRunsFetchedInstruction : Obligations.StepRunsFetchedInstruction := by
  unfold Obligations.StepRunsFetchedInstruction
  refine ⟨fun s w rest i hsp hr hi => ?_, fun s w i hsp hi => step_frame hsp hi, fun s hsp hr => step_no_request hsp hr⟩
  rw [← dropRequest_eq hr]
  exact step_request hsp hr hi

/-! ### One completion each -/

/-- However an instruction ends, the host gets one completion and its waiting requests stay (R16). -/
theorem exec_answers_once {i : Instr} {s t : State} (he : exec i s = .next t) :
    t.requests = s.requests ∧ ∃ w, t.completions = w :: s.completions := by
  by_cases hev : s.mode = .operational ∧ (access i).events = true
  · obtain ⟨hm, hev⟩ := hev
    obtain ⟨u, evs, hf, ⟨-, -, rfl⟩ | ⟨k, -, -, rfl⟩⟩ := exec_plays hev hm he
    · have ended := settle_completed (ghostRow i) hf
      exact ⟨ended.requests, _, ended.completions⟩
    · rw [settle_abort]
      exact ⟨hf.requests, _, congrArg (_ :: ·) hf.completions⟩
  · obtain ⟨fb, w, rfl⟩ := exec_quiet he fun hm => by simpa [hm] using hev
    exact ⟨rfl, w, rfl⟩

/-- A request that is no instruction gets one completion, in a misconfigured core too (R85, R209). -/
theorem guarded_raise_answers (s : State) :
    (s.guarded fun s => s.raise .illegalRequest).requests = s.requests ∧
      ∃ c, (s.guarded fun s => s.raise .illegalRequest).completions = c :: s.completions := by
  cases hm : s.mode <;> simp [State.guarded, hm, State.raise]

/-- Settles O45: an instruction answers once, and a step takes the one request on the port before it answers. -/
theorem oneCompletionEach : Obligations.OneCompletionEach := by
  unfold Obligations.OneCompletionEach
  refine ⟨fun _ _ _ he => exec_answers_once he, fun s t w rest hsp hr h => ?_⟩
  have answered : t.requests = s.taken.requests ∧ ∃ c, t.completions = c :: s.taken.completions := by
    obtain ⟨-, -, hnone⟩ | ⟨c, i, -, -, he⟩ | ⟨w, -, -, rfl⟩ := step_cases h
    · rw [hr] at hnone; cases hnone
    · exact exec_answers_once he
    · exact guarded_raise_answers s.taken
  rwa [State.taken_completions, taken_idle hsp, dropRequest_eq hr] at answered

/-! ### The geometry -/

/-- The sizes R8 allows are those a geometry can be built with. -/
theorem ofSize_eq_some_iff {w h : Nat} :
    (∃ g, Geometry.ofSize w h = some g ∧ g.width = w ∧ g.height = h) ↔
      w % 8 = 0 ∧ 8 ≤ w ∧ w ≤ 2048 ∧ 1 ≤ h ∧ h ≤ 65536 := by
  constructor
  · rintro ⟨g, -, rfl, rfl⟩
    obtain ⟨w8, wmin, wmax⟩ := g.width_legal
    exact ⟨w8, wmin, wmax, g.height_legal⟩
  · rintro ⟨w8, wmin, wmax, hh⟩
    exact ⟨⟨w, h, ⟨w8, wmin, wmax⟩, hh⟩, by simp [Geometry.ofSize, w8, wmin, wmax, hh], rfl, rfl⟩

/-- `X_END` fits one byte (R94). -/
theorem xEndByte_toNat (g : Geometry) : (xEndByte g).toNat = g.width / 8 - 1 := by
  have := g.width_legal
  exact Nat.mod_eq_of_lt (by unfold xEnd; omega)

theorem yEndLo_toNat (g : Geometry) : (yEndLo g).toNat = (g.height - 1) % 256 :=
  Nat.mod_eq_of_lt (Nat.mod_lt _ (by decide))

/-- The high part of `Y_END` fits one byte (R94). -/
theorem yEndHi_toNat (g : Geometry) : (yEndHi g).toNat = (g.height - 1) / 256 := by
  have := g.height_legal
  exact Nat.mod_eq_of_lt (by unfold yEnd; omega)

/-- Settles O9: the constraints bound each constant by what its bytes hold. -/
theorem geometryConstants : Obligations.GeometryConstants := by
  unfold Obligations.GeometryConstants
  refine ⟨fun _ _ => ofSize_eq_some_iff, fun g => ?_, by decide⟩
  rw [yEndLo_toNat, yEndHi_toNat]
  exact ⟨rfl, bytesPerRow_eq g, rfl, xEndByte_toNat g, rfl, rfl, Nat.mod_add_div _ _⟩

/-! ### The wire -/

/-- What appended events add to the wire projection, at the DC latch they begin with (R15). -/
theorem State.wire_append {s t : State} {evs : List Event} (h : t.history = s.history ++ evs) :
    ∃ dc, t.wire = s.wire ++ wireFrom dc evs := by
  unfold State.wire
  rw [h]
  exact wireFrom_append _ _ _

/-- The completion of an abort is never OK (R84). -/
theorem settle_abort_not_ok (s u : State) (row : GhostRow) (k : MicroKind) (rest : List CompletionWord) :
    (s.settle row (.abort k u)).completions ≠ 0x0000#16 :: rest := by
  have status : ∀ v : Byte, completionWord 0x01#8 v ≠ 0x0000#16 := by unfold completionWord; decide
  intro h
  rw [settle_abort] at h
  exact status k.code (List.cons.inj h).1

/-- An operation that ends OK leaves the dialect of its sequence, and all its bytes are on the wire (R91). -/
theorem exec_ok_wire {i : Instr} {s t : State} (he : exec i s = .next t) (hm : s.mode = .operational)
    (hev : (access i).events = true) (ok : t.completions = 0x0000#16 :: s.completions) :
    t.dialect = s.dialectAfter i ∧ t.wire = s.wire ++ bytesOf (sequenceOf i s (s.dialectAfter i)) := by
  obtain ⟨u, evs, hf, ⟨hd, hu, rfl⟩ | ⟨k, -, -, rfl⟩⟩ := exec_plays hev hm he
  · have ended := settle_completed (ghostRow i) hf
    obtain ⟨dc, hw⟩ := State.wire_append ended.history
    exact ⟨ended.dialect.trans hu, by rw [hw, hd.wire]⟩
  · exact absurd ok (settle_abort_not_ok s u _ k _)

/-- However an operation ends, the first of its bytes are on the wire (R210). -/
theorem exec_wire_take {i : Instr} {s t : State} (he : exec i s = .next t) (hev : (access i).events = true) :
    ∃ n, t.wire = s.wire ++ (bytesOf (sequenceOf i s t.dialect)).take n := by
  obtain ⟨evs, hist, ends⟩ := exec_appends hev he
  obtain ⟨dc, hw⟩ := State.wire_append hist
  rw [hw]
  rcases ends with rfl | hd | ⟨k, hc⟩
  · exact ⟨0, rfl⟩
  · exact ⟨(bytesOf (sequenceOf i s t.dialect)).length, by rw [hd.wire, List.take_length]⟩
  · obtain ⟨n, hn⟩ := hc.wire dc
    exact ⟨n, by rw [hn]⟩

/-- No sequence names the chip-select mode or the pacing. -/
theorem sequenceOf_select (i : Instr) (s : State) (d : Dialect) (cs : CsMode) (pacing : Nat) :
    sequenceOf i { s with straps := { s.straps with csMode := cs, tInterbyte := pacing } } d = sequenceOf i s d := by
  cases i <;> rfl

/-- Settles O58: done sequences put their bytes on the wire and cut ones the first of them; neither the sequence nor its
dialect depends on the chip select or the pacing. -/
theorem wireProjectionIgnoresSelect : Obligations.WireProjectionIgnoresSelect := by
  unfold Obligations.WireProjectionIgnoresSelect
  refine fun i s t hm hev he => ⟨fun ok => ?_, exec_wire_take he hev, fun cs pacing t' he' ok ok' => ?_⟩
  · obtain ⟨dialect, wire⟩ := exec_ok_wire he hm hev ok
    rw [dialect, wire]
  · have wire := (exec_ok_wire he hm hev ok).2
    have wire' := (exec_ok_wire he' hm hev ok').2
    rw [sequenceOf_select] at wire'
    exact wire'.trans wire.symm

end Sys2Proof.Machine
end

section
/-! The statements of the family 10_state.md: what construction leaves (R33), the invariants every step keeps (R34), what an
instruction may write (R35), and which parts of the state it does not read (R27, R35). All of them rest on `exec_executed`,
which says once what an instruction can do to the state. -/

namespace Sys2Proof.Machine

/-! ### Construction -/

/-- Settles O8: construction sets each field by R33, both planes to what an unlisted address reads as. -/
theorem constructionValues : Obligations.ConstructionValues := by
  unfold Obligations.ConstructionValues
  intro p
  refine ⟨fun i => ⟨Framebuffer.read_fresh .black i, Framebuffer.read_fresh .red i⟩, ?_, ?_, ?_, rfl, rfl, rfl, rfl, rfl⟩
  · rintro (h | h) <;> simp [State.construct, dialectAtConstruction, h]
  · intro h
    simp [State.construct, dialectAtConstruction, h]
  · cases h : p.dialectCfg <;> simp [State.construct, modeAtConstruction, h]

/-- Fresh planes are canonical and all white, so no pixel is the fourth combination (R34). -/
theorem construct_framebufferInv (p : Straps) : FramebufferInv (State.construct p) where
  black_wf := Memory.wf_nil _ _
  red_wf := Memory.wf_nil _ _
  closed i := by
    show Framebuffer.fresh.read .red i &&& ~~~(Framebuffer.fresh.read .black i) = 0#8
    rw [Framebuffer.read_fresh, Framebuffer.read_fresh]
    decide

theorem construct_controlInv (p : Straps) : ControlInv (State.construct p) where
  mode_strap := rfl
  new_strap h := by simp [State.construct, dialectAtConstruction, show p.dialectCfg = .new from h]
  old_strap h := by simp [State.construct, dialectAtConstruction, show p.dialectCfg = .old from h]
  misconfigured _ := ⟨rfl, fun _ hw => nomatch hw⟩
  statuses _ hw := nomatch hw

theorem construct_traceInv (p : Straps) : TraceInv (State.construct p) where
  latches := rfl
  hard_cs _ _ _ he := nomatch he
  faultMark := by simp [State.construct]

/-- Settles O11: no event, no completion, fresh planes. -/
theorem constructionMeetsInvariants : Obligations.ConstructionMeetsInvariants := by
  unfold Obligations.ConstructionMeetsInvariants
  exact fun p => ⟨construct_framebufferInv p, construct_controlInv p, construct_traceInv p⟩

/-! ### The end of a driver operation, done or aborted -/

/-- The state a piece of an operation comes to, aborted or not. -/
def Run.state : Run → State
  | .ok s => s
  | .abort _ s => s

@[simp] theorem settle_straps (s : State) (row : GhostRow) (r : Run) : (s.settle row r).straps = r.state.straps := by
  cases r <;> rfl
@[simp] theorem settle_mode (s : State) (row : GhostRow) (r : Run) : (s.settle row r).mode = r.state.mode := by
  cases r <;> rfl
@[simp] theorem settle_fb (s : State) (row : GhostRow) (r : Run) : (s.settle row r).fb = r.state.fb := by
  cases r <;> rfl
@[simp] theorem settle_dialect (s : State) (row : GhostRow) (r : Run) : (s.settle row r).dialect = r.state.dialect := by
  cases r <;> rfl
@[simp] theorem settle_lines (s : State) (row : GhostRow) (r : Run) : (s.settle row r).lines = r.state.lines := by
  cases r <;> rfl
@[simp] theorem settle_trace (s : State) (row : GhostRow) (r : Run) : (s.settle row r).trace = r.state.trace := by
  cases r <;> rfl
@[simp] theorem settle_requests (s : State) (row : GhostRow) (r : Run) : (s.settle row r).requests = r.state.requests := by
  cases r <;> rfl
@[simp] theorem settle_sp (s : State) (row : GhostRow) (r : Run) : (s.settle row r).seq.sp = .idle := by
  cases r <;> rfl

@[simp] theorem Ghost.afterClean_oldSeqOk (g : Ghost) (row : GhostRow) (trusted : Bool) (fb : Framebuffer) :
    (g.afterClean row trusted fb).oldSeqOk = g.oldSeqOk := by
  cases row <;> simp [Ghost.afterClean, apply_ite Ghost.oldSeqOk]

@[simp] theorem Ghost.atEnd_oldSeqOk (g : Ghost) (row : GhostRow) (timedOut trusted : Bool) (fb : Framebuffer) :
    (g.atEnd row timedOut trusted fb).oldSeqOk = g.oldSeqOk := by
  unfold Ghost.atEnd; split <;> simp

/-- No ghost row and no abort changes the assumption `OldSeqOk` (R246). -/
@[simp] theorem settle_oldSeqOk (s : State) (row : GhostRow) (r : Run) :
    (s.settle row r).ghost.oldSeqOk = r.state.ghost.oldSeqOk := by
  cases r with
  | ok u => rw [settle_ok]; exact Ghost.atEnd_oldSeqOk ..
  | abort k u => rfl

/-- The four statuses of a completion; `0x02` is none of them (R84). -/
def statusCodes : List Byte := [0x00#8, 0x01#8, 0x03#8, 0x04#8]

theorem completionWord_status (status value : Byte) : (completionWord status value).extractLsb' 8 8 = status := by
  apply BitVec.eq_of_getLsbD_eq
  intro i hi
  simp only [completionWord, BitVec.getLsbD_extractLsb', BitVec.getLsbD_append, hi, decide_true, Bool.true_and]
  rw [if_neg (by omega), Nat.add_sub_cancel_left]

theorem settle_completions (s : State) (row : GhostRow) (r : Run) : ∃ status ∈ statusCodes, ∃ value,
    (s.settle row r).completions = completionWord status value :: r.state.completions := by
  cases r with
  | ok u => exact ⟨statusOk, by decide, 0x00#8, rfl⟩
  | abort k u => exact ⟨0x01#8, by decide, k.code, rfl⟩

/-! ### What an instruction can do -/

/-- `t` is `s` after an operational core ran the driver operation `i` with events `evs`, to its end or to its abort: the trace,
the latches and the fault mark are as the events say, these are events its row of R35 allows, only a probe may have
written the flag, and the sequencer is idle. -/
structure Drove (i : Instr) (s t : State) (evs : List Event) : Prop where
  history   : t.history = s.history ++ evs
  lines     : t.lines = s.lines.after evs
  allowed   : ∀ e ∈ evs, (access i).Allows s.straps e
  faultMark : t.ghost.faultMark = true ↔ s.ghost.faultMark = true ∨ ∃ e ∈ evs, e.failure.isSome
  oldSeqOk  : t.ghost.oldSeqOk = s.ghost.oldSeqOk
  dialect   : t.dialect = s.dialect ∨ t.dialect = s.dialectAfter i
  sp        : t.seq.sp = .idle
  status    : ∃ status ∈ statusCodes, ∃ value, t.completions = completionWord status value :: s.completions
  fb        : t.fb = s.fb
  straps    : t.straps = s.straps
  mode      : t.mode = s.mode
  requests  : t.requests = s.requests

/-- All of `Drove` but the fault mark, the dialect and the allowed events holds of every settled run. -/
theorem Drove.of_follows {i : Instr} {s : State} {r : Run} {evs : List Event} (hf : Follows s r.state evs)
    (allowed : ∀ e ∈ evs, (access i).Allows s.straps e)
    (dialect : r.state.dialect = s.dialect ∨ r.state.dialect = s.dialectAfter i)
    (faultMark : (s.settle (ghostRow i) r).ghost.faultMark = true ↔
      s.ghost.faultMark = true ∨ ∃ e ∈ evs, e.failure.isSome) :
    Drove i s (s.settle (ghostRow i) r) evs where
  history := State.history_of_trace (by simp [hf.trace])
  lines := by simp [hf.lines]
  allowed := allowed
  faultMark := faultMark
  oldSeqOk := by simp [hf.ghost]
  dialect := by simpa using dialect
  sp := settle_sp ..
  status := hf.completions ▸ settle_completions ..
  fb := by simp [hf.fb]
  straps := by simp [hf.straps]
  mode := by simp [hf.mode]
  requests := by simp [hf.requests]

/-- A driver operation of an operational core: where it ends OK no event failed and the mark stays, where it aborts its last
event failed and the mark is set (R211). -/
theorem exec_drove {i : Instr} {s t : State} (hev : (access i).events = true) (hm : s.mode = .operational)
    (he : exec i s = .next t) : ∃ evs, Drove i s t evs := by
  obtain ⟨u, evs, hf, hd, fine, rfl⟩ | ⟨u, k, evs, e, hf, hd, fine, hk, ha, rfl⟩ := exec_driver_ends hev hm he
  · refine ⟨evs, .of_follows hf (fun e he => (fine e he).2) (.inr hd) ?_⟩
    have noFailure : ¬ ∃ e ∈ evs, e.failure.isSome := by
      rintro ⟨e, he, h⟩
      simp [(fine e he).1] at h
    rw [settle_ok]
    simp [hf.ghost, noFailure]
  · refine ⟨evs ++ [e], .of_follows hf (fun x hx => ?_) hd ?_⟩
    · rcases List.mem_append.mp hx with hx | hx
      · exact (fine x hx).2
      · exact List.mem_singleton.mp hx ▸ ha
    · have marked : (s.settle (ghostRow i) (.abort k u)).ghost.faultMark = true := rfl
      exact iff_of_true marked (.inr ⟨e, by simp, by simp [hk]⟩)

/-- The change of the planes by FB_CLEAR with a legal colour, or by FB_SET_PIXEL with a legal colour inside the panel
(R111, R112). -/
inductive Paints (g : Geometry) (fb : Framebuffer) : Instr → Framebuffer → Prop
  | clear {c : BitVec 2} (hc : c ≠ 0b01#2) : Paints g fb (.fbClear c) (Framebuffer.cleared (planeBytes g) c)
  | pixel {x y : BitVec 16} {c : BitVec 2} (hc : c ≠ 0b01#2) (hin : pixelInRange g x y = true) :
      Paints g fb (.fbSetPixel x y c) (fb.setPixel g x y c)

/-- `t` is `s` after an instruction that emitted nothing, a framebuffer request or anything in a misconfigured core: the planes
as they were or painted, one completion more, nothing else changed. -/
structure Quiet (i : Instr) (s t : State) (status value : Byte) : Prop where
  eq     : t = { s with fb := t.fb, completions := completionWord status value :: s.completions }
  legal  : status ∈ statusCodes
  planes : t.fb = s.fb ∨ Paints s.straps.geometry s.fb i t.fb
  dead   : s.mode = .configFault → completionWord status value = 0x0300#16

theorem Quiet.respond {i : Instr} {s : State} {status value : Byte} (hs : status ∈ statusCodes)
    (hm : s.mode = .operational) : Quiet i s (s.respond status value) status value :=
  ⟨rfl, hs, .inl rfl, fun h => by simp [hm] at h⟩

theorem Quiet.answerOk {i : Instr} {s : State} {fb : Framebuffer} (hm : s.mode = .operational)
    (planes : fb = s.fb ∨ Paints s.straps.geometry s.fb i fb) : Quiet i s (s.answerOk fb) statusOk 0x00#8 :=
  ⟨rfl, by decide, planes, fun h => by simp [hm] at h⟩

/-- An instruction that emits nothing, with what it does to the planes and which status it answers. -/
theorem exec_quiet_planes {i : Instr} {s t : State} (he : exec i s = .next t)
    (hn : s.mode = .operational → (access i).events = false) : ∃ status value, Quiet i s t status value := by
  cases hm : s.mode with
  | configFault =>
    rw [exec_configFault hm] at he
    cases he
    exact ⟨_, _, rfl, by decide, .inl rfl, fun _ => rfl⟩
  | operational =>
    have illegal : Quiet i s (s.raise .illegalRequest) 0x04#8 0x00#8 := .respond (by decide) hm
    cases i with
    | fbClear c =>
      rw [exec_fbClear hm] at he
      cases he
      split
      · exact ⟨_, _, illegal⟩
      · exact ⟨_, _, .answerOk hm (.inr (.clear ‹_›))⟩
    | fbSetPixel x y c =>
      rw [exec_fbSetPixel hm] at he
      cases he
      split
      · exact ⟨_, _, illegal⟩
      · split
        · exact ⟨_, _, .answerOk hm (.inr (.pixel ‹_› ‹_›))⟩
        · exact ⟨_, _, .answerOk hm (.inl rfl)⟩
    | fbRead p index =>
      rw [exec_fbRead hm] at he
      cases he
      split
      · exact ⟨_, _, .respond (by decide) hm⟩
      · exact ⟨_, _, illegal⟩
    | _ => cases hn hm

/-- EVERYTHING AN INSTRUCTION CAN DO: it emits nothing, or it is a driver operation of an operational core. -/
theorem exec_executed {i : Instr} {s t : State} (he : exec i s = .next t) :
    (∃ status value, Quiet i s t status value) ∨
      (s.mode = .operational ∧ (access i).events = true ∧ ∃ evs, Drove i s t evs) := by
  by_cases h : s.mode = .operational ∧ (access i).events = true
  · exact .inr ⟨h.1, h.2, exec_drove h.2 h.1 he⟩
  · exact .inl (exec_quiet_planes he fun hm => by simpa [hm] using h)

/-! ### What every step keeps -/

/-- A request that is no instruction is answered like FB_CLEAR of the colour that is none (R85, R206). -/
theorem exec_illegalColour (s : State) :
    exec (.fbClear 0b01#2) s = .next (s.guarded fun s => s.raise .illegalRequest) := rfl

/-- What taking the fetched code and every instruction keep, every step keeps. -/
theorem step_keeps {P : State → Prop} (taken : ∀ s, P s → P s.taken)
    (execs : ∀ i s t, P s → exec i s = .next t → P t) {s t : State} (hs : P s) (h : step s = .next t) : P t := by
  obtain ⟨rfl, -⟩ | ⟨c, i, -, -, he⟩ | ⟨w, -, -, rfl⟩ := step_cases h
  · exact hs
  · exact execs i _ _ (taken s hs) he
  · exact execs _ _ _ (taken s hs) (exec_illegalColour _)

/-! ### The planes -/

theorem Paints.canonical {g : Geometry} {fb fb' : Framebuffer} {i : Instr} (h : Paints g fb i fb')
    (hb : Memory.wf .black (planeBytes g) fb.black) (hr : Memory.wf .red (planeBytes g) fb.red) :
    Memory.wf .black (planeBytes g) fb'.black ∧ Memory.wf .red (planeBytes g) fb'.red := by
  cases h with
  | clear hc => exact ⟨Memory.wf_fill .., Memory.wf_fill ..⟩
  | pixel hc hin =>
    obtain ⟨hx, hy⟩ := pixelInRange_iff.mp hin
    have inside := byteIndex_lt hx hy
    exact ⟨Memory.wf_write hb inside _, Memory.wf_write hr inside _⟩

/-- Painting a legal colour makes no fourth combination (R34, R52). -/
theorem Paints.closed {g : Geometry} {fb fb' : Framebuffer} {i : Instr} (h : Paints g fb i fb')
    (hb : Memory.Rising fb.black) (hr : Memory.Rising fb.red)
    (closed : ∀ j, fb.read .red j &&& ~~~(fb.read .black j) = 0#8) (j : Nat) :
    fb'.read .red j &&& ~~~(fb'.read .black j) = 0#8 := by
  cases h with
  | clear hc => exact cleared_closed hc _ j
  | pixel hc hin =>
    rw [Framebuffer.read_setPixel hb hr, Framebuffer.read_setPixel hb hr]
    split
    · exact withMask_closed hc _ (closed j)
    · exact closed j

theorem FramebufferInv.of_eq {s t : State} (h : FramebufferInv s) (straps : t.straps = s.straps) (fb : t.fb = s.fb) :
    FramebufferInv t := by
  obtain ⟨black, red, closed⟩ := h
  exact ⟨by rwa [straps, fb], by rwa [straps, fb], by rwa [fb]⟩

theorem exec_keeps_framebufferInv (i : Instr) (s t : State) (h : FramebufferInv s) (he : exec i s = .next t) :
    FramebufferInv t := by
  obtain ⟨_, _, q⟩ | ⟨-, -, evs, d⟩ := exec_executed he
  · have straps : t.straps = s.straps := by rw [q.eq]
    obtain same | painted := q.planes
    · exact h.of_eq straps same
    · rw [← straps] at painted
      obtain ⟨black, red⟩ := painted.canonical (straps ▸ h.black_wf) (straps ▸ h.red_wf)
      exact ⟨black, red, painted.closed h.black_wf.1 h.red_wf.1 h.closed⟩
  · exact h.of_eq d.straps d.fb

/-- Settles O12: a driver operation leaves the planes, and painting a legal colour keeps them canonical and closed. -/
theorem stepKeepsFramebufferInv : Obligations.StepKeepsFramebufferInv := by
  unfold Obligations.StepKeepsFramebufferInv
  intro s t hs h
  exact step_keeps (fun s hs => hs.of_eq s.taken_straps s.taken_fb) exec_keeps_framebufferInv hs h

/-! ### Mode, dialect and statuses -/

/-- Only an INIT under the Probe strap writes the flag (R163). -/
theorem dialectAfter_eq {i : Instr} {s : State} (h : (access i).dialect = false ∨ s.straps.dialectCfg ≠ .probe) :
    s.dialectAfter i = s.dialect := by
  unfold State.dialectAfter
  rw [if_neg]
  rintro ⟨rfl, hp⟩
  rcases h with h | h
  · cases h
  · exact h hp

theorem Drove.dialect_eq {i : Instr} {s t : State} {evs : List Event} (d : Drove i s t evs)
    (h : (access i).dialect = false ∨ s.straps.dialectCfg ≠ .probe) : t.dialect = s.dialect :=
  d.dialect.elim id (·.trans (dialectAfter_eq h))

theorem ControlInv.taken {s : State} (h : ControlInv s) : ControlInv s.taken := by
  obtain ⟨mode, new, old, dead, statuses⟩ := h
  exact ⟨by simpa, by simpa, by simpa, by simpa, by rwa [State.taken_completions]⟩

theorem exec_keeps_controlInv (i : Instr) (s t : State) (h : ControlInv s) (he : exec i s = .next t) : ControlInv t := by
  obtain ⟨mode, new, old, dead, statuses⟩ := h
  have word : ∀ status ∈ statusCodes, ∀ value, t.completions = completionWord status value :: s.completions →
      ∀ w ∈ t.completions, w.extractLsb' 8 8 ∈ statusCodes := by
    intro status hs value ht w hw
    rw [ht] at hw
    rcases List.mem_cons.mp hw with rfl | hw
    · rwa [completionWord_status]
    · exact statuses w hw
  obtain ⟨status, value, q⟩ | ⟨hm, -, evs, d⟩ := exec_executed he
  · have eq := q.eq
    generalize t.fb = fb at eq
    subst eq
    refine ⟨mode, new, old, fun hm => ⟨(dead hm).1, fun w hw => ?_⟩, word _ q.legal _ rfl⟩
    rcases List.mem_cons.mp hw with rfl | hw
    · exact q.dead hm
    · exact (dead hm).2 w hw
  · obtain ⟨status, hs, value, ht⟩ := d.status
    refine ⟨by rw [d.mode, d.straps, mode], fun hc => ?_, fun hc => ?_, fun hf => ?_, word status hs value ht⟩
    · rw [d.straps] at hc
      rw [d.dialect_eq (.inr (by simp [hc])), new hc]
    · rw [d.straps] at hc
      rw [d.dialect_eq (.inr (by simp [hc])), old hc]
    · rw [d.mode, hm] at hf
      cases hf

/-- Settles O13: the flag changes under the Probe strap alone, and a misconfigured core answers `0x0300` to everything. -/
theorem stepKeepsControlInv : Obligations.StepKeepsControlInv := by
  unfold Obligations.StepKeepsControlInv
  intro s t hs h
  exact step_keeps (fun _ hs => ControlInv.taken hs) exec_keeps_controlInv hs h

/-! ### Latches, chip select and fault mark -/

/-- A core whose chip select the bus drives never drives it itself (R120). -/
theorem Access.Allows.softCS {a : Access} {p : Straps} {v : Level} {k : Ack} (h : a.Allows p (.drive .cs v k)) :
    p.csMode ≠ .hardCS := h.2

theorem TraceInv.of_eq {s t : State} (h : TraceInv s) (straps : t.straps = s.straps) (lines : t.lines = s.lines)
    (trace : t.trace = s.trace) (ghost : t.ghost = s.ghost) : TraceInv t := by
  obtain ⟨latches, hard, mark⟩ := h
  refine ⟨?_, ?_, ?_⟩
  · rw [lines, latches, State.history, State.history, trace]
  · rwa [straps, trace]
  · rwa [ghost, trace]

/-- What a trace holds after events are appended. -/
theorem mem_trace_of_history {s t : State} {evs : List Event} (h : t.history = s.history ++ evs) {e : Event} :
    e ∈ t.trace ↔ e ∈ s.trace ∨ e ∈ evs := by
  have := congrArg (e ∈ ·) h
  simpa [State.history] using this

theorem exec_keeps_traceInv (i : Instr) (s t : State) (h : TraceInv s) (he : exec i s = .next t) : TraceInv t := by
  obtain ⟨_, _, q⟩ | ⟨-, -, evs, d⟩ := exec_executed he
  · exact h.of_eq (by rw [q.eq]) (by rw [q.eq]) (by rw [q.eq]) (by rw [q.eq])
  · obtain ⟨latches, hard, mark⟩ := h
    refine ⟨?_, fun hc v a hm => ?_, ?_⟩
    · rw [d.lines, d.history, Lines.after_append, ← latches]
    · rw [d.straps] at hc
      rcases (mem_trace_of_history d.history).mp hm with hm | hm
      · exact hard hc v a hm
      · exact (d.allowed _ hm).softCS hc
    · simp only [d.faultMark, mark, mem_trace_of_history d.history, or_and_right, exists_or]

/-- Settles O14: every instruction appends the events its latches and its fault mark are read from. -/
theorem stepKeepsTraceInv : Obligations.StepKeepsTraceInv := by
  unfold Obligations.StepKeepsTraceInv
  intro s t hs h
  exact step_keeps (fun s hs => hs.of_eq s.taken_straps s.taken_lines s.taken_trace s.taken_ghost) exec_keeps_traceInv hs h

/-! ### The sequencer -/

theorem exec_leaves_idle {i : Instr} {s t : State} (hs : s.seq.sp = .idle) (he : exec i s = .next t) :
    t.seq.sp = .idle := by
  obtain ⟨_, _, q⟩ | ⟨-, -, evs, d⟩ := exec_executed he
  · rw [q.eq]; exact hs
  · exact d.sp

/-- Settles O57: what is fetched is taken, and no instruction leaves the sequencer at a frame. -/
theorem sequencerIdleAfterStep : Obligations.SequencerIdleAfterStep := by
  unfold Obligations.SequencerIdleAfterStep
  intro s t h
  obtain ⟨rfl, idle, -⟩ | ⟨c, i, -, -, he⟩ | ⟨w, -, -, rfl⟩ := step_cases h
  · exact idle
  · exact exec_leaves_idle s.taken_sp he
  · exact exec_leaves_idle s.taken_sp (exec_illegalColour _)

/-! ### The access matrix -/

/-- The latch of a line (R24). -/
def Lines.latch (ls : Lines) : Line → Latch
  | .rst => ls.rst
  | .dc => ls.dc
  | .cs => ls.cs

theorem Lines.latch_set (ls : Lines) (l m : Line) (v : Latch) :
    (ls.set l v).latch m = if l = m then v else ls.latch m := by
  cases l <;> cases m <;> rfl

theorem Lines.latch_afterEvent (ls : Lines) {l : Line} {e : Event} (h : ∀ v a, e ≠ .drive l v a) :
    (ls.afterEvent e).latch l = ls.latch l := by
  cases e with
  | drive m v a =>
    have ne : m ≠ l := by rintro rfl; exact h v a rfl
    cases a
    · exact (ls.latch_set m l _).trans (if_neg ne)
    · exact (ls.latch_set m l _).trans (if_neg ne)
  | _ => rfl

/-- Events that drive no line `l` leave its latch. -/
theorem Lines.latch_after {l : Line} {evs : List Event} (h : ∀ v a, .drive l v a ∉ evs) (ls : Lines) :
    (ls.after evs).latch l = ls.latch l := by
  induction evs generalizing ls with
  | nil => rfl
  | cons e evs ih =>
    rw [Lines.after_cons, ih fun v a hm => h v a (List.mem_cons_of_mem _ hm)]
    exact ls.latch_afterEvent fun v a he => h v a (he ▸ List.mem_cons_self ..)

/-- A line whose drives the row of R35 does not allow keeps its latch. -/
theorem Drove.latch_eq {i : Instr} {s t : State} {evs : List Event} (d : Drove i s t evs) {l : Line}
    (h : ∀ v a, ¬ (access i).Allows s.straps (.drive l v a)) : t.lines.latch l = s.lines.latch l := by
  rw [d.lines]
  exact Lines.latch_after (fun v a hm => h v a (d.allowed _ hm)) _

theorem Paints.writes_fb {g : Geometry} {fb fb' : Framebuffer} {i : Instr} (h : Paints g fb i fb') :
    (access i).fb = true := by
  cases h <;> rfl

/-- Settles O43: an instruction that emits nothing changes the planes and the completions alone; a driver operation leaves the
planes, the flag but for a probe, and each line its row gives no drive of. -/
theorem accessMatrixHolds : Obligations.AccessMatrixHolds := by
  unfold Obligations.AccessMatrixHolds
  intro i s t he
  obtain ⟨_, _, q⟩ | ⟨-, hev, evs, d⟩ := exec_executed he
  · have planes : (access i).fb = false → t.fb = s.fb := fun h =>
      q.planes.resolve_right fun painted => by simp [painted.writes_fb] at h
    refine ⟨planes, ?_⟩
    rw [q.eq]
    simp
  · refine ⟨fun _ => d.fb, d.dialect_eq, fun h => ?_, fun h => ⟨?_, ?_⟩, fun h => ?_, fun h => ?_, d.straps, d.mode,
      d.requests, d.oldSeqOk⟩
    · exact d.latch_eq (l := .rst) fun v a ha => by simp [Access.Allows, h] at ha
    · exact d.latch_eq (l := .dc) fun v a ha => by simp [Access.Allows, h] at ha
    · exact d.latch_eq (l := .cs) fun v a ha => by simp [Access.Allows, h] at ha
    · exact d.latch_eq (l := .cs) fun v a ha => ha.softCS h
    · rw [hev] at h
      cases h

/-! ### What an instruction does not read -/

/-- An instruction that streams no plane has no ghost row that looks at the planes. -/
theorem ghostRow_ne_display {i : Instr} (h : readsPlanes i = false) : ghostRow i ≠ .display := by
  cases i with
  | display => cases h
  | _ => intro hd; cases hd

/-- The ghost row of DISPLAY alone looks at the planes (R246). -/
theorem Ghost.atEnd_planes {row : GhostRow} {a b : Framebuffer} (h : row ≠ .display ∨ a = b) (g : Ghost)
    (timedOut trusted : Bool) : g.atEnd row timedOut trusted a = g.atEnd row timedOut trusted b := by
  obtain h | rfl := h
  · cases row with
    | display => exact absurd rfl h
    | _ => rfl
  · rfl

/-- An operation leaves in the transient registers what depends on the completions alone (R27). -/
theorem settle_seq (s : State) (row : GhostRow) (r : Run) : (s.settle row r).seq =
    ⟨.idle, Config.deadFbAddr r.state.completions.length, Config.deadPollCnt r.state.completions.length⟩ := by
  cases r <;> rfl

theorem Run.Alike.state {R : Framebuffer → Framebuffer → Prop} {r r' : Run} (h : Run.Alike R r r') :
    Machine.Alike R r.state r'.state := by
  cases h <;> assumption

/-- Alike runs with the same ghost end with the same ghost, where the row does not look at planes that differ. -/
theorem settle_ghost_alike {R : Framebuffer → Framebuffer → Prop} {s t : State} {r r' : Run} {row : GhostRow}
    (hr : Run.Alike R r r') (trace : t.trace = s.trace) (ghost : r'.state.ghost = r.state.ghost)
    (planes : row ≠ .display ∨ r'.state.fb = r.state.fb) : (t.settle row r').ghost = (s.settle row r).ghost := by
  cases hr with
  | @ok u v h =>
    have trusted : v.trusted = u.trusted := by
      unfold State.trusted
      rw [h.dialect, show v.ghost = u.ghost from ghost]
    show v.ghost.atEnd _ _ _ v.fb = u.ghost.atEnd _ _ _ u.fb
    rw [show v.ghost = u.ghost from ghost, trusted, h.trace, trace]
    exact Ghost.atEnd_planes planes ..
  | abort h => exact congrArg Ghost.atAbort ghost

/-- Alike states with the same registers and the same ghost differ in the planes alone. -/
theorem Alike.eq_setFb {R : Framebuffer → Framebuffer → Prop} {s t : State} (h : Alike R s t) (seq : t.seq = s.seq)
    (ghost : t.ghost = s.ghost) : t = s.setFb t.fb := by
  cases s; cases t; cases h; simp_all [State.setFb]

/-- The micro-operations of an instruction leave the ghost, the planes and the completions. -/
theorem bodyOf_follows {i : Instr} (hev : (access i).events = true) (s : State) :
    ∃ evs, Follows s (bodyOf i s).state evs := by
  have plays := bodyOf_plays i s hev
  cases hb : bodyOf i s with
  | ok u => rw [hb] at plays; obtain ⟨evs, hf, -⟩ := plays; exact ⟨evs, hf⟩
  | abort k u => rw [hb] at plays; obtain ⟨evs, hf, -⟩ := plays; exact ⟨evs, hf⟩

/-- A driver operation from two states that differ in the transient registers, and in the planes if it does not stream them,
ends in states that differ in the planes alone, and leaves these. -/
theorem exec_alike {R : Framebuffer → Framebuffer → Prop} {i : Instr} {s s' t : State} (hev : (access i).events = true)
    (hm : s.mode = .operational) (hR : readsPlanes i = false ∨ ∀ a b, R a b → b = a) (h : Alike R s s')
    (ghost : s'.ghost = s.ghost) (he : exec i s = .next t) : exec i s' = .next (t.setFb s'.fb) := by
  rw [exec_driver i s hev, operate_operational hm] at he
  cases he
  rw [exec_driver i s' hev, operate_operational (h.mode.trans hm)]
  obtain ⟨_, hf⟩ := bodyOf_follows hev s
  obtain ⟨_, hf'⟩ := bodyOf_follows hev s'
  have runs := bodyOf_alike i hR h
  have seq : (s'.settle (ghostRow i) (bodyOf i s')).seq = (s.settle (ghostRow i) (bodyOf i s)).seq := by
    rw [settle_seq, settle_seq, runs.state.completions]
  have ghosts := settle_ghost_alike (row := ghostRow i) runs h.trace (hf'.ghost.trans (ghost.trans hf.ghost.symm))
    (hR.imp ghostRow_ne_display fun eq => eq _ _ runs.state.fb)
  have ends := (settle_alike (row := ghostRow i) runs).eq_setFb seq ghosts
  rw [settle_fb, hf'.fb] at ends
  exact congrArg _ ends

theorem alike_transient (s : State) (a p : Nat) : Alike (· = ·) s ((s.setFbAddr a).setPollCnt p) :=
  ⟨rfl, rfl, rfl, rfl, rfl, rfl, rfl, rfl, rfl, rfl⟩

/-- An instruction that emits nothing leaves the transient registers as they are and does not read them. -/
theorem exec_quiet_transient {i : Instr} {s t : State} (a p : Nat) (hn : s.mode = .operational → (access i).events = false)
    (he : exec i s = .next t) :
    exec i ((s.setFbAddr a).setPollCnt p) = .next ((t.setFbAddr a).setPollCnt p) := by
  cases hm : s.mode with
  | configFault =>
    rw [exec_configFault hm] at he
    cases he
    exact exec_configFault (s := (s.setFbAddr a).setPollCnt p) hm i
  | operational =>
    have hm' : ((s.setFbAddr a).setPollCnt p).mode = .operational := hm
    cases i with
    | fbClear c =>
      rw [exec_fbClear hm] at he
      rw [exec_fbClear hm']
      cases he
      split <;> rfl
    | fbSetPixel x y c =>
      rw [exec_fbSetPixel hm] at he
      rw [exec_fbSetPixel hm']
      split at he <;> rename_i hc
      · cases he
        exact congrArg _ (if_pos hc)
      · split at he <;> rename_i hin <;> cases he
        · exact congrArg _ ((if_neg hc).trans (if_pos hin))
        · exact congrArg _ ((if_neg hc).trans (if_neg hin))
    | fbRead plane index =>
      rw [exec_fbRead hm] at he
      rw [exec_fbRead hm']
      split at he <;> rename_i hin <;> cases he
      · exact congrArg _ (if_pos hin)
      · exact congrArg _ (if_neg hin)
    | _ => cases hn hm

/-- Settles O55: an operation starts its own counts and ends with free values, and the others leave the registers alone. -/
theorem deadRegistersNeverRead : Obligations.DeadRegistersNeverRead := by
  unfold Obligations.DeadRegistersNeverRead
  intro i s t a p he
  by_cases h : s.mode = .operational ∧ (access i).events = true
  · obtain ⟨hm, hev⟩ := h
    have same := exec_alike hev hm (.inr fun _ _ eq => eq.symm) (alike_transient s a p) rfl he
    obtain ⟨evs, d⟩ := exec_drove hev hm he
    have planes : t.setFb s.fb = t := by rw [← d.fb]; rfl
    exact ⟨t.seq.fbAddr, t.seq.pollCnt, same.trans (congrArg _ planes)⟩
  · exact ⟨a, p, exec_quiet_transient a p (fun hm => by simpa [hm] using h) he⟩

/-- The instructions that stream the core's own planes are those R35 lets read them. -/
theorem readsPlanes_eq_false {i : Instr} (h : i ∉ [Instr.display, .wWriteBlack .framebuffer, .wWriteRed .framebuffer,
    .wOldWriteBlack .framebuffer, .wOldWriteRed .framebuffer]) : readsPlanes i = false := by
  cases i with
  | display => simp at h
  | wWriteBlack src => cases src <;> simp_all [readsPlanes]
  | wWriteRed src => cases src <;> simp_all [readsPlanes]
  | wOldWriteBlack src => cases src <;> simp_all [readsPlanes]
  | wOldWriteRed src => cases src <;> simp_all [readsPlanes]
  | _ => rfl

/-- Settles O56: a sequence that streams no plane of the core's is the same whatever the planes hold. -/
theorem onlyDisplayReadsPlanes : Obligations.OnlyDisplayReadsPlanes := by
  unfold Obligations.OnlyDisplayReadsPlanes
  intro i s t fb hev hi he
  cases hm : s.mode with
  | configFault =>
    rw [exec_configFault hm] at he
    cases he
    exact exec_configFault (s := s.setFb fb) hm i
  | operational =>
    have alike : Alike (fun _ _ => True) s (s.setFb fb) := ⟨rfl, rfl, trivial, rfl, rfl, rfl, rfl, rfl, rfl, rfl⟩
    exact exec_alike hev hm (.inl (readsPlanes_eq_false hi)) alike rfl he

end Sys2Proof.Machine
end

section
/-! The statements of the family 20_memory.md: the pixel map read backwards. A pixel's byte gives its row and the byte of its column, its mask gives its
place in that byte, and the two together give the pixel (spec/20_memory.md R51). -/

namespace Sys2Proof.Machine

/-- The row of a pixel inside the panel is its byte's quotient by the bytes of a row. -/
theorem byteIndex_div {g : Geometry} {x : BitVec 16} (y : BitVec 16) (hx : x.toNat < g.width) :
    byteIndex g x y / (g.width / 8) = y.toNat := by
  have hc := column_lt hx
  unfold byteIndex
  rw [bytesPerRow_eq, Nat.add_comm, Nat.add_mul_div_right _ _ (Nat.zero_lt_of_lt hc), Nat.div_eq_of_lt hc, Nat.zero_add]

/-- The byte of a column inside the panel is its byte's remainder by the bytes of a row. -/
theorem byteIndex_mod {g : Geometry} {x : BitVec 16} (y : BitVec 16) (hx : x.toNat < g.width) :
    byteIndex g x y % (g.width / 8) = x.toNat / 8 := by
  unfold byteIndex
  rw [bytesPerRow_eq, Nat.mul_add_mod_self_right, Nat.mod_eq_of_lt (column_lt hx)]

/-- Two columns have one mask only at one place in their bytes: the bit the first sets is set by the second. -/
theorem mod_eq_of_bitMask_eq {x x' : BitVec 16} (h : bitMask x = bitMask x') : x.toNat % 8 = x'.toNat % 8 := by
  have hj : 7 - x.toNat % 8 < 8 := by omega
  have set : (bitMask x).getLsbD (7 - x.toNat % 8) = true := by simp [bitMask_getLsbD x hj]
  rw [h, bitMask_getLsbD x' hj, decide_eq_true_eq] at set
  omega

/-- A pixel inside the panel is found again from its byte and its mask. -/
theorem pixel_eq_of_byteIndex_eq_of_bitMask_eq {g : Geometry} {x y x' y' : BitVec 16} (hx : x.toNat < g.width)
    (hx' : x'.toNat < g.width) (hi : byteIndex g x y = byteIndex g x' y') (hm : bitMask x = bitMask x') :
    x = x' ∧ y = y' := by
  have row : y.toNat = y'.toNat := by rw [← byteIndex_div y hx, hi, byteIndex_div y' hx']
  have column : x.toNat / 8 = x'.toNat / 8 := by rw [← byteIndex_mod y hx, hi, byteIndex_mod y' hx']
  have place := mod_eq_of_bitMask_eq hm
  exact ⟨BitVec.eq_of_toNat_eq (by omega), BitVec.eq_of_toNat_eq row⟩

/-- Settles O20: the formulas are the map's own, and quotient, remainder and mask give the pixel back. -/
theorem pixelMapIsInjective : Obligations.PixelMapIsInjective := by
  unfold Obligations.PixelMapIsInjective
  intro g x y x' y' hx hy hx' _
  exact ⟨rfl, rfl, byteIndex_lt hx hy, pixel_eq_of_byteIndex_eq_of_bitMask_eq hx hx'⟩

end Sys2Proof.Machine
end

section
/-! The statements of the family 30_encoding.md: decoder and encoder undo each other (R80 to R86, R92, R93), and a step runs what it
decodes. A request is looked at through its four fields: it is packed from them, and a mask acts on each of them. A frame is
looked at through its row of the tables: no two rows have one command byte and one sender. -/

namespace Sys2Proof

open Sys2Proof.Machine

/-! ### The fields of a request -/

/-- Every request word is packed from its four fields (R80). -/
theorem packRequest_fields (w : RequestWord) : packRequest (reqOp w) (reqC w) (reqA w) (reqB w) = w := by
  have opC : reqOp w ++ reqC w = w.extractLsb' 32 16 := BitVec.extractLsb'_append_extractLsb'_eq_extractLsb' rfl
  have withA : w.extractLsb' 32 16 ++ reqA w = w.extractLsb' 16 32 :=
    BitVec.extractLsb'_append_extractLsb'_eq_extractLsb' rfl
  have withB : w.extractLsb' 16 32 ++ reqB w = w.extractLsb' 0 48 :=
    BitVec.extractLsb'_append_extractLsb'_eq_extractLsb' rfl
  rw [packRequest, opC, withA, withB, BitVec.extractLsb'_eq_self]

theorem packRequest_and (op c op' c' : Byte) (a b a' b' : BitVec 16) :
    packRequest op c a b &&& packRequest op' c' a' b' = packRequest (op &&& op') (c &&& c') (a &&& a') (b &&& b') :=
  calc packRequest op c a b &&& packRequest op' c' a' b'
    _ = (op ++ c ++ a &&& op' ++ c' ++ a') ++ (b &&& b') := BitVec.and_append
    _ = (op ++ c &&& op' ++ c') ++ (a &&& a') ++ (b &&& b') := congrArg (· ++ _) BitVec.and_append
    _ = packRequest (op &&& op') (c &&& c') (a &&& a') (b &&& b') := congrArg (· ++ _ ++ _) BitVec.and_append

/-- A mask that keeps `OP` acts on each operand field by itself. -/
theorem and_packRequest (w : RequestWord) (c : Byte) (a b : BitVec 16) :
    w &&& packRequest 0xFF#8 c a b = packRequest (reqOp w) (reqC w &&& c) (reqA w &&& a) (reqB w &&& b) := by
  have keepOp : reqOp w &&& 0xFF#8 = reqOp w := BitVec.and_allOnes
  conv_lhs => rw [← packRequest_fields w, packRequest_and, keepOp]

/-- The colour is the two low bits of `C` (R81), and encoding it clears the others (R86). -/
theorem colourField_reqColour (w : RequestWord) : colourField (reqColour w) = reqC w &&& 0x03#8 := by
  rw [reqColour_eq]
  generalize reqC w = c
  revert c
  decide

theorem planeField_reqPlane (w : RequestWord) : planeField (reqPlane w) = reqC w &&& 0x01#8 := by
  rw [reqPlane_eq]
  generalize reqC w = c
  revert c
  decide

theorem reqIndex_upper (w : RequestWord) : (reqIndex w).extractLsb' 16 16 = reqA w := by
  rw [reqIndex_eq]
  exact BitVec.extractLsb'_append_eq_left

theorem reqIndex_lower (w : RequestWord) : (reqIndex w).extractLsb' 0 16 = reqB w := by
  rw [reqIndex_eq]
  exact BitVec.extractLsb'_append_eq_right

theorem reqColour_pack (op : Byte) (colour : BitVec 2) (a b : BitVec 16) :
    reqColour (packRequest op (colourField colour) a b) = colour := by
  rw [reqColour_eq, reqC_pack]
  revert colour
  decide

theorem reqPlane_pack (op : Byte) (plane : Plane) (a b : BitVec 16) :
    reqPlane (packRequest op (planeField plane) a b) = plane := by
  rw [reqPlane_eq, reqC_pack]
  cases plane <;> rfl

theorem reqIndex_pack (op c : Byte) (index : BitVec 32) :
    reqIndex (packRequest op c (index.extractLsb' 16 16) (index.extractLsb' 0 16)) = index := by
  rw [reqIndex_eq, reqA_pack, reqB_pack]
  exact (BitVec.extractLsb'_append_extractLsb'_eq_extractLsb' rfl).trans BitVec.extractLsb'_eq_self

/-! ### The request decoder -/

/-- A word with none of the 13 codes is rejected with its code (R85). -/
theorem decodeRequest_unknownOp {w : RequestWord} (h : reqOp w ∉ requestOps) :
    decodeRequest w = .error (.unknownOp (reqOp w)) := by
  simp only [requestOps, List.mem_cons, List.not_mem_nil, or_false, not_or] at h
  simp [decodeRequest, h]

/-- Settles O7: a code of R83 decides each comparison of the decoder, and no other word passes one. -/
theorem requestDecoderFollowsTable : Obligations.RequestDecoderFollowsTable := by
  unfold Obligations.RequestDecoderFollowsTable
  intro w
  refine ⟨?_, ?_, ?_, ?_, ?_, ?_, ?_, ?_, ?_, ?_, ?_, ?_, ?_, decodeRequest_unknownOp⟩
  all_goals
    intro h
    simp [decodeRequest, h, reqColour, reqPlane, reqIndex, reqA, reqB, reqC]

/-- A request instruction is decoded from its word. -/
theorem decodeRequest_of_encode {i : Instr} {w : RequestWord} (h : encode i = .request w) : decodeRequest w = .ok i := by
  cases i with
  | fbClear colour => cases h; simp [decodeRequest, reqColour_pack]
  | fbSetPixel x y colour => cases h; simp [decodeRequest, reqColour_pack]
  | fbRead plane index => cases h; simp [decodeRequest, reqPlane_pack, reqIndex_pack]
  | sendCommand byte | sendData byte => cases h; simp [decodeRequest]
  | wWriteBlack source | wWriteRed source | wOldWriteBlack source | wOldWriteRed source => cases source <;> cases h
  | wDeepSleep mode => cases mode <;> cases h
  | _ => cases h <;> rfl

/-- An instruction whose fields are those of a word under its mask encodes to the masked word. -/
theorem encode_eq_masked {w : RequestWord} {i : Instr} {op c cMask : Byte} {a b aMask bMask : BitVec 16}
    (he : encode i = .request (packRequest op c a b)) (hu : usedBits i = packRequest 0xFF#8 cMask aMask bMask)
    (hop : reqOp w = op) (hc : c = reqC w &&& cMask) (ha : a = reqA w &&& aMask) (hb : b = reqB w &&& bMask) :
    encode i = .request (w &&& usedBits i) := by
  rw [he, hu, and_packRequest, hop, hc, ha, hb]

/-- An instruction without operands uses `OP` alone. -/
theorem encode_eq_masked_op {w : RequestWord} {i : Instr} {op : Byte}
    (he : encode i = .request (packRequest op 0#8 0#16 0#16)) (hu : usedBits i = packRequest 0xFF#8 0#8 0#16 0#16)
    (hop : reqOp w = op) : encode i = .request (w &&& usedBits i) :=
  encode_eq_masked he hu hop BitVec.and_zero.symm BitVec.and_zero.symm BitVec.and_zero.symm

/-- Settles O6: field by field, a decoded operand is the word's field under the operation's mask. -/
theorem requestUsesOnlyItsBits : Obligations.RequestUsesOnlyItsBits := by
  unfold Obligations.RequestUsesOnlyItsBits
  intro w i h
  have whole (v : BitVec 16) : v = v &&& 0xFFFF#16 := BitVec.and_allOnes.symm
  have cleared (v : BitVec 16) : 0#16 = v &&& 0#16 := BitVec.and_zero.symm
  obtain ⟨hop, ⟨⟩⟩ | ⟨hop, ⟨⟩⟩ | ⟨hop, ⟨⟩⟩ | ⟨hop, ⟨⟩⟩ | ⟨hop, ⟨⟩⟩ | ⟨hop, ⟨⟩⟩ | ⟨hop, ⟨⟩⟩ | ⟨hop, ⟨⟩⟩ | ⟨hop, ⟨⟩⟩ | ⟨hop, ⟨⟩⟩ |
    ⟨hop, ⟨⟩⟩ | ⟨hop, ⟨⟩⟩ | ⟨hop, ⟨⟩⟩ | ⟨-, ⟨⟩⟩ := decodeRequest_cases h
  · exact encode_eq_masked rfl rfl hop (colourField_reqColour w) (cleared _) (cleared _)
  · exact encode_eq_masked rfl rfl hop (colourField_reqColour w) (whole _) (whole _)
  · exact encode_eq_masked rfl rfl hop (planeField_reqPlane w) ((reqIndex_upper w).trans (whole _))
      ((reqIndex_lower w).trans (whole _))
  · exact encode_eq_masked_op rfl rfl hop
  · exact encode_eq_masked rfl rfl hop BitVec.and_allOnes.symm (cleared _) (cleared _)
  · exact encode_eq_masked rfl rfl hop BitVec.and_allOnes.symm (cleared _) (cleared _)
  all_goals exact encode_eq_masked_op rfl rfl hop

/-! ### The frame decoder -/

/-- A command byte with a sender names one row of the tables, whichever dialect's rows come first (R93). -/
theorem decodeFrame_of_row {d : Dialect} {r : FrameRow} (hr : r ∈ frameRows d) :
    decodeFrame d (packFrame r.cmd r.sender) = .ok r.instr := by
  revert r
  cases d <;> decide

/-- A frame's word is the command byte and the sender of one of its rows (R92, R93). -/
theorem encode_frame_row (d : Dialect) {i : Instr} {w : FrameWord} (h : encode i = .frame w) :
    ∃ r ∈ frameRows d, r.instr = i ∧ packFrame r.cmd r.sender = w := by
  cases i with
  | fbClear colour | fbSetPixel x y colour | fbRead plane index | sendCommand byte | sendData byte => cases h
  | wWriteBlack source | wWriteRed source | wOldWriteBlack source | wOldWriteRed source =>
    cases source <;> cases h <;> cases d <;> decide
  | wDeepSleep mode => cases mode <;> cases h <;> cases d <;> decide
  | _ => cases h <;> cases d <;> decide

/-- Settles O5: a request is read back field by field, a frame from its row. -/
theorem decodeOfEncode : Obligations.DecodeOfEncode := by
  unfold Obligations.DecodeOfEncode
  intro d i
  cases hw : encode i with
  | request w => exact decodeRequest_of_encode hw
  | frame w =>
    obtain ⟨r, hr, rfl, rfl⟩ := encode_frame_row d hw
    exact decodeFrame_of_row hr

/-- Settles O4: the decoders evaluated on each word of the table. -/
theorem specWordsDecode : Obligations.SpecWordsDecode := by
  unfold Obligations.SpecWordsDecode
  decide

/-! ### A decoded word in a step -/

theorem decode_of_decodeTableWord {nbits w : Nat} {i : Instr} (h : decodeTableWord nbits w = some i) :
    decode .new (tableCode nbits w) = .ok i := by
  unfold decodeTableWord at h
  split at h
  · cases h
    assumption
  · cases h

/-- An idle core has no frame to leave (R28). -/
theorem leaveFrame_of_idle {s : State} (hsp : s.seq.sp = .idle) : s.leaveFrame = s := by
  rw [State.leaveFrame, ← hsp]

/-- A request put on the port of an idle core is what it runs, and nothing else is changed. -/
theorem step_present {s : State} {w : RequestWord} {i : Instr} (hsp : s.seq.sp = .idle) (hi : decodeRequest w = .ok i) :
    step (s.present w) = exec i s :=
  calc step (s.present w)
    _ = exec i s.leaveFrame := step_request rfl rfl hi
    _ = exec i s := by rw [leaveFrame_of_idle hsp]

/-- An idle core made to stand at a frame runs it, and nothing else is changed. -/
theorem step_standAt {s : State} {w : FrameWord} {i : Instr} (hsp : s.seq.sp = .idle)
    (hi : decodeFrame s.dialect w = .ok i) : step (s.standAt w) = exec i s :=
  calc step (s.standAt w)
    _ = exec i s.leaveFrame := step_frame rfl hi
    _ = exec i s := by rw [leaveFrame_of_idle hsp]

/-- Settles O2: a word of 48 bits is placed as a request, a word of 8 bits as a frame. -/
theorem placedWordRuns : Obligations.PlacedWordRuns := by
  unfold Obligations.PlacedWordRuns
  refine fun s w i hsp => ⟨fun h => step_present hsp (decode_of_decodeTableWord h), fun hd h => step_standAt hsp ?_⟩
  rw [hd]
  exact decode_of_decodeTableWord h

/-- Settles O3: an instruction answers, a request that is none is answered too, and a frame no table has faults. -/
theorem stepAnswersOrFaultsOnUnknownFrame : Obligations.StepAnswersOrFaultsOnUnknownFrame := by
  unfold Obligations.StepAnswersOrFaultsOnUnknownFrame
  intro s
  cases hf : s.fetch with
  | none => exact .inl ⟨s, by simp [step, hf]⟩
  | some c =>
    cases hd : decode s.dialect c with
    | ok i =>
      obtain ⟨t, ht⟩ := exec_next i s.taken
      exact .inl ⟨t, by simp [step, hf, hd, ht]⟩
    | error e =>
      have undecoded : step s = s.taken.undecoded e := by simp [step, hf, hd]
      cases c with
      | request w =>
        obtain ⟨-, rfl⟩ := decodeRequest_error hd
        exact .inl ⟨_, undecoded⟩
      | frame w =>
        obtain rfl := decodeFrame_error hd
        exact .inr ⟨w, _, fetch_frame hf, hd, undecoded⟩

end Sys2Proof
end

section
/-! The statements of the family 40_framebuffer.md: what FB_CLEAR, FB_SET_PIXEL and FB_READ answer (R111 to R113) and the pixels
they leave (R114). Each request is looked at through its cases, and the planes through what one pixel's bit in a plane reads
as after a paint. -/

namespace Sys2Proof.Machine

/-! ### The requests, case by case -/

/-- The answer to a request the core refuses. -/
theorem raise_illegalRequest (s : State) :
    s.raise .illegalRequest = { s with completions := 0x0400#16 :: s.completions } := rfl

theorem exec_fbClear_of_illegal {s : State} (hm : s.mode = .operational) :
    exec (.fbClear 0b01#2) s = .next (s.raise .illegalRequest) := by
  rw [exec_fbClear hm, if_pos rfl]

theorem exec_fbClear_of_legal {s : State} {c : BitVec 2} (hm : s.mode = .operational) (hc : c ≠ 0b01#2) :
    exec (.fbClear c) s = .next (s.answerOk (Framebuffer.cleared (planeBytes s.straps.geometry) c)) := by
  rw [exec_fbClear hm, if_neg hc]

theorem exec_fbSetPixel_of_illegal {s : State} (hm : s.mode = .operational) (x y : BitVec 16) :
    exec (.fbSetPixel x y 0b01#2) s = .next (s.raise .illegalRequest) := by
  rw [exec_fbSetPixel hm, if_pos rfl]

theorem exec_fbSetPixel_of_inRange {s : State} {x y : BitVec 16} {c : BitVec 2} (hm : s.mode = .operational)
    (hc : c ≠ 0b01#2) (hin : x.toNat < s.straps.geometry.width ∧ y.toNat < s.straps.geometry.height) :
    exec (.fbSetPixel x y c) s = .next (s.answerOk (s.fb.setPixel s.straps.geometry x y c)) := by
  rw [exec_fbSetPixel hm, if_neg hc, if_pos (pixelInRange_iff.mpr hin)]

theorem exec_fbSetPixel_of_outOfRange {s : State} {x y : BitVec 16} {c : BitVec 2} (hm : s.mode = .operational)
    (hc : c ≠ 0b01#2) (hout : ¬(x.toNat < s.straps.geometry.width ∧ y.toNat < s.straps.geometry.height)) :
    exec (.fbSetPixel x y c) s = .next (s.answerOk s.fb) := by
  rw [exec_fbSetPixel hm, if_neg hc, if_neg (mt pixelInRange_iff.mp hout)]

/-- The planes after FB_CLEAR: only an operational core paints, and only a legal colour. -/
theorem fb_of_exec_fbClear {s t : State} {c : BitVec 2} (he : exec (.fbClear c) s = .next t) :
    t.fb = if s.mode = .operational ∧ c ≠ 0b01#2 then Framebuffer.cleared (planeBytes s.straps.geometry) c else s.fb := by
  cases hm : s.mode with
  | configFault => rw [exec_configFault hm] at he; cases he; rfl
  | operational =>
    rw [exec_fbClear hm] at he
    cases he
    by_cases hc : c = 0b01#2
    · simp [hc, raise_illegalRequest]
    · simp [hc, State.answerOk]

/-- The planes after FB_SET_PIXEL: as for FB_CLEAR, and only inside the panel. -/
theorem fb_of_exec_fbSetPixel {s t : State} {x y : BitVec 16} {c : BitVec 2}
    (he : exec (.fbSetPixel x y c) s = .next t) :
    t.fb = if s.mode = .operational ∧ c ≠ 0b01#2 ∧ pixelInRange s.straps.geometry x y then
      s.fb.setPixel s.straps.geometry x y c else s.fb := by
  cases hm : s.mode with
  | configFault => rw [exec_configFault hm] at he; cases he; rfl
  | operational =>
    rw [exec_fbSetPixel hm] at he
    cases he
    by_cases hc : c = 0b01#2
    · simp [hc, raise_illegalRequest]
    · by_cases hin : pixelInRange s.straps.geometry x y <;> simp [hc, hin, State.answerOk]

/-- A framebuffer request leaves the two parts of the state its case depends on. -/
theorem straps_mode_of_exec_quiet {i : Instr} {s t : State} (he : exec i s = .next t) (hi : (access i).events = false) :
    t.straps = s.straps ∧ t.mode = s.mode := by
  obtain ⟨_, _, rfl⟩ := exec_quiet he fun _ => hi
  exact ⟨rfl, rfl⟩

/-! ### The bits of a painted plane -/

/-- Where a pixel lies, by the formula of R51. -/
theorem byteIndex_eq (g : Geometry) (x y : BitVec 16) : byteIndex g x y = y.toNat * (g.width / 8) + x.toNat / 8 := by
  rw [byteIndex, bytesPerRow_eq]

theorem replicateBit_getLsbD (bit : Bool) {j : Nat} (hj : j < 8) : (replicateBit bit).getLsbD j = bit := by
  cases bit
  · exact BitVec.getLsbD_zero
  · exact BitVec.getLsbD_allOnes.trans (decide_eq_true hj)

/-- The mask of a column has the bit of another only where the two stand at one place in their bytes. -/
theorem bitMask_getLsbD_column (x x' : BitVec 16) :
    (bitMask x).getLsbD (7 - x'.toNat % 8) = decide (x'.toNat % 8 = x.toNat % 8) := by
  rw [bitMask_getLsbD x (by omega), decide_eq_decide]
  omega

/-- A pixel's bit in a plane after FB_SET_PIXEL: the colour's for the painted pixel, for every other the bit it had. -/
theorem Framebuffer.getLsbD_read_setPixel {fb : Framebuffer} {g : Geometry} {x x' : BitVec 16}
    (hb : Memory.Rising fb.black) (hr : Memory.Rising fb.red) (hx : x.toNat < g.width) (hx' : x'.toNat < g.width)
    (y y' : BitVec 16) (c : BitVec 2) (p : Plane) :
    ((fb.setPixel g x y c).read p (byteIndex g x' y')).getLsbD (7 - x'.toNat % 8) =
      if x' = x ∧ y' = y then colourBit c p else (fb.read p (byteIndex g x' y')).getLsbD (7 - x'.toNat % 8) := by
  have hj : 7 - x'.toNat % 8 < 8 := by omega
  rw [Framebuffer.read_setPixel hb hr]
  by_cases same : x' = x ∧ y' = y
  · obtain ⟨rfl, rfl⟩ := same
    simp [withMask_getLsbD _ _ _ hj, bitMask_getLsbD_column]
  · rw [if_neg same]
    split
    case isTrue sameByte =>
      have otherPlace : x'.toNat % 8 ≠ x.toNat % 8 := fun h =>
        same (pixel_eq_of_byteIndex_eq_of_bitMask_eq hx' hx sameByte.symm (by rw [bitMask, bitMask, h]))
      simp [withMask_getLsbD _ _ _ hj, bitMask_getLsbD_column, otherPlace]
    case isFalse => rfl

theorem Framebuffer.pixel_setPixel {fb : Framebuffer} {g : Geometry} {x x' : BitVec 16} (hb : Memory.Rising fb.black)
    (hr : Memory.Rising fb.red) (hx : x.toNat < g.width) (hx' : x'.toNat < g.width) (y y' : BitVec 16) (c : BitVec 2) :
    (fb.setPixel g x y c).pixel g x' y' =
      if x' = x ∧ y' = y then (colourBlackBit c, colourRedBit c) else fb.pixel g x' y' := by
  unfold Framebuffer.pixel
  rw [getLsbD_read_setPixel hb hr hx hx', getLsbD_read_setPixel hb hr hx hx']
  split <;> rfl

theorem Framebuffer.pixel_cleared {g : Geometry} {x y : BitVec 16} (hx : x.toNat < g.width) (hy : y.toNat < g.height)
    (c : BitVec 2) :
    (Framebuffer.cleared (planeBytes g) c).pixel g x y = (colourBlackBit c, colourRedBit c) := by
  have hj : 7 - x.toNat % 8 < 8 := by omega
  have bit (p : Plane) : ((Framebuffer.cleared (planeBytes g) c).read p (byteIndex g x y)).getLsbD (7 - x.toNat % 8) =
      colourBit c p := by
    rw [Framebuffer.read_cleared, if_pos (byteIndex_lt hx hy), replicateBit_getLsbD _ hj]
  exact Prod.ext (bit .black) (bit .red)

/-- Painting a pixel of canonical planes again changes nothing, as data (R114). -/
theorem Framebuffer.setPixel_setPixel {fb : Framebuffer} {g : Geometry} {x y : BitVec 16} {c : BitVec 2}
    (hin : pixelInRange g x y = true) (hb : Memory.wf .black (planeBytes g) fb.black)
    (hr : Memory.wf .red (planeBytes g) fb.red) :
    (fb.setPixel g x y c).setPixel g x y c = fb.setPixel g x y c := by
  obtain ⟨hx, hy⟩ := pixelInRange_iff.mp hin
  obtain ⟨bRising, bListed⟩ := Memory.wf_write hb (byteIndex_lt hx hy)
    (withMask (colourBlackBit c) (bitMask x) (fb.read .black (byteIndex g x y)))
  obtain ⟨rRising, rListed⟩ := Memory.wf_write hr (byteIndex_lt hx hy)
    (withMask (colourRedBit c) (bitMask x) (fb.read .red (byteIndex g x y)))
  refine setPixel_of_painted ⟨bRising, fun e he => (bListed e he).2⟩ ⟨rRising, fun e he => (rListed e he).2⟩ fun p => ?_
  rw [Framebuffer.read_setPixel hb.1 hr.1, if_pos rfl, withMask_idem]

/-! ### What the requests answer -/

/-- Settles O17: the fill has the colour's bit, eight times over, in every byte below `N`. -/
theorem fbClearFillsPlanes : Obligations.FbClearFillsPlanes := by
  unfold Obligations.FbClearFillsPlanes
  refine ⟨fun w => ?_, fun s c hm => ⟨fun hc => ?_, fun hc => ?_⟩⟩
  · obtain ⟨fbClear, -⟩ := requestDecoderFollowsTable w
    exact fbClear
  · refine ⟨Framebuffer.cleared (planeBytes s.straps.geometry) c, exec_fbClear_of_legal hm hc, fun i hi => ?_⟩
    have filled (p : Plane) : (Framebuffer.cleared (planeBytes s.straps.geometry) c).read p i =
        replicateBit (colourBit c p) := by rw [Framebuffer.read_cleared, if_pos hi]
    exact ⟨filled .black, filled .red⟩
  · rw [hc, exec_fbClear_of_illegal hm, raise_illegalRequest]

/-- Settles O18: the colour is checked first, then the range, and a painted byte is the old one under the pixel's mask. -/
theorem fbSetPixelSetsTwoBits : Obligations.FbSetPixelSetsTwoBits := by
  unfold Obligations.FbSetPixelSetsTwoBits
  refine ⟨fun w => ?_, fun s x y c hm inv => ⟨fun hc => ?_, fun hc hin => ?_, fun hc hout => ?_⟩⟩
  · obtain ⟨-, fbSetPixel, -⟩ := requestDecoderFollowsTable w
    exact fbSetPixel
  · rw [hc, exec_fbSetPixel_of_illegal hm, raise_illegalRequest]
  · have read := Framebuffer.read_setPixel inv.black_wf.1 inv.red_wf.1 s.straps.geometry x y c
    rw [← byteIndex_eq]
    refine ⟨s.fb.setPixel s.straps.geometry x y c, exec_fbSetPixel_of_inRange hm hc hin, fun p j hj => ?_,
      fun p b hb => ?_⟩
    · rw [read, if_neg hj.symm]
    · rw [read, if_pos rfl, hb]
      cases p <;> rfl
  · exact exec_fbSetPixel_of_outOfRange hm hc hout

/-- Settles O19: the index is compared with `N`, and the byte is the plane's own. -/
theorem fbReadReturnsPlaneByte : Obligations.FbReadReturnsPlaneByte := by
  unfold Obligations.FbReadReturnsPlaneByte
  refine ⟨fun w => ?_, fun s p index hm => ⟨fun hi => ?_, fun hi => ?_⟩⟩
  · obtain ⟨-, -, fbRead, -⟩ := requestDecoderFollowsTable w
    exact fbRead
  · rw [exec_fbRead hm, if_pos hi]
    rfl
  · rw [exec_fbRead hm, if_neg (Nat.not_lt.mpr hi), raise_illegalRequest]

/-! ### What the requests leave -/

/-- Settles O21: a painted bit is the colour's, and no other pixel has the byte and the mask of the painted one. -/
theorem lastWriteWins : Obligations.LastWriteWins := by
  unfold Obligations.LastWriteWins
  refine fun s t c hm inv hc => ⟨fun x y x' y' hx hy hx' _ he => ?_, fun x y hx hy he => ?_⟩
  · rw [fb_of_exec_fbSetPixel he, if_pos ⟨hm, hc, pixelInRange_iff.mpr ⟨hx, hy⟩⟩]
    exact Framebuffer.pixel_setPixel inv.black_wf.1 inv.red_wf.1 hx hx' y y' c
  · rw [fb_of_exec_fbClear he, if_pos ⟨hm, hc⟩]
    exact Framebuffer.pixel_cleared hx hy c

/-- Settles O22: the second request meets the case the first met, and where it paints it finds its paint there. -/
theorem repeatedPaintIsIdempotent : Obligations.RepeatedPaintIsIdempotent := by
  unfold Obligations.RepeatedPaintIsIdempotent
  refine fun s t u inv => ⟨fun c ht hu => ?_, fun x y c ht hu => ?_⟩
  · obtain ⟨straps, mode⟩ := straps_mode_of_exec_quiet ht rfl
    rw [fb_of_exec_fbClear hu, straps, mode]
    split
    case isTrue paints => rw [fb_of_exec_fbClear ht, if_pos paints]
    case isFalse => rfl
  · obtain ⟨straps, mode⟩ := straps_mode_of_exec_quiet ht rfl
    rw [fb_of_exec_fbSetPixel hu, straps, mode]
    split
    case isTrue paints =>
      have ⟨_, _, hin⟩ := paints
      rw [fb_of_exec_fbSetPixel ht, if_pos paints, Framebuffer.setPixel_setPixel hin inv.black_wf inv.red_wf]
    case isFalse => rfl

end Sys2Proof.Machine
end

section
/-! The statements of the family 42_driver_primitives.md: where the driver primitives end and where they abort (R130 to R134),
that a time-out ends no operation (R202), and how many events an operation can have (R137). -/

namespace Sys2Proof.Machine

/-! ### Aborted operations -/

/-- `t` is `s` after a driver operation with events `evs`, the last of them a failing micro-operation of kind `k`: the
completion names it, the ghost is marked and knows no panel, and nothing inside the core changed (R210, R211). -/
structure Aborted (s t : State) (k : MicroKind) (evs : List Event) : Prop where
  history     : t.history = s.history ++ evs
  completions : t.completions = completionWord 0x01#8 k.code :: s.completions
  lines       : t.lines = s.lines.after evs
  dialect     : t.dialect = s.dialect
  fb          : t.fb = s.fb
  faultMark   : t.ghost.faultMark = true
  phase       : t.ghost.phase = .undefined

theorem settle_aborted {s u : State} {evs : List Event} (row : GhostRow) (k : MicroKind) (h : Follows s u evs)
    (same : u.dialect = s.dialect) : Aborted s (s.settle row (.abort k u)) k evs where
  history := h.history
  completions := by rw [settle_abort]; simp [h.completions]
  lines := h.lines
  dialect := same
  fb := h.fb
  faultMark := rfl
  phase := rfl

/-- A sequence without a busy-wait aborts at its first `Drive` or `Tx` that fails. -/
theorem exec_aborted {i : Instr} {s : State} {k : MicroKind} {init rest : List Event} {e : Event}
    (h : (access i).events = true) (hm : s.mode = .operational) (hd : s.dialectAfter i = s.dialect)
    (hx : .item .busyWait ∉ sequenceOf i s s.dialect)
    (hc : cleanEvents s.straps s.dialect (sequenceOf i s s.dialect) = init ++ e :: rest)
    (ht : e.takesAck = true) (hk : e.failed.failure = some k)
    (ha : s.AcksOk (init.countP Event.takesAck)) (he : s.env.ackAt (init.countP Event.takesAck) = .err) :
    ∃ t, exec i s = .next t ∧ Aborted s t k (init ++ [e.failed]) := by
  obtain ⟨u, hf, same, hn⟩ := exec_aborts h hm hd hx hc ht hk ha he
  exact ⟨_, hn, settle_aborted _ k hf same⟩

theorem State.AcksOk.zero (s : State) : s.AcksOk 0 := fun _ hj => absurd hj (Nat.not_lt_zero _)

theorem State.AcksOk.succ {s : State} {k : Nat} (h : s.AcksOk k) (hk : s.env.ackAt k = .ok) : s.AcksOk (k + 1) :=
  fun j hj => (Nat.lt_succ_iff_lt_or_eq.mp hj).elim (h j) fun e => e ▸ hk

/-! ### SEND_COMMAND and SEND_DATA -/

/-- The pacing delay after a framed byte (R128). -/
def pacing (p : Straps) : List Event := if p.tInterbyte = 0 then [] else [.delay p.tInterbyte]

theorem byteEvents_softCS {p : Straps} (h : p.csMode = .softCS) (dc : Level) (b : Byte) : byteEvents p dc b =
    [.drive .dc dc .ok, .drive .cs .low .ok, .tx b .ok, .drive .cs .high .ok] ++ pacing p := by
  simp [byteEvents, pacing, h]

theorem byteEvents_hardCS {p : Straps} (h : p.csMode = .hardCS) (dc : Level) (b : Byte) :
    byteEvents p dc b = [.drive .dc dc .ok, .tx b .ok] ++ pacing p := by
  simp [byteEvents, pacing, h]

@[simp] theorem Lines.after_pacing (ls : Lines) (p : Straps) : ls.after (pacing p) = ls := by
  unfold pacing
  split <;> rfl

/-- A framed byte leaves DC at its level and the device deselected (R131). -/
theorem Lines.after_byteEvents (ls : Lines) (p : Straps) (dc : Level) (b : Byte) : ls.after (byteEvents p dc b) =
    ⟨ls.rst, latchOf dc, if p.csMode = .softCS then .high else ls.cs⟩ := by
  cases h : p.csMode with
  | softCS => rw [byteEvents_softCS h, Lines.after_append, Lines.after_pacing]; rfl
  | hardCS => rw [byteEvents_hardCS h, Lines.after_append, Lines.after_pacing]; rfl

/-- `i` sends the one byte `b` with DC at `dc` (R131, R132). -/
def SendsByte (i : Instr) (dc : Level) (b : Byte) : Prop := i = .sendCommand b ∧ dc = .low ∨ i = .sendData b ∧ dc = .high

/-- What the two requests have in common: a byte framed, no dialect written. -/
theorem SendsByte.spec {i : Instr} {dc : Level} {b : Byte} (h : SendsByte i dc b) (s : State) :
    (access i).events = true ∧ s.dialectAfter i = s.dialect ∧ ∀ d, sequenceOf i s d = [SeqItem.send dc b].map .item := by
  rcases h with ⟨rfl, rfl⟩ | ⟨rfl, rfl⟩
  · exact ⟨rfl, dialectAfter_eq (.inl rfl), fun _ => rfl⟩
  · exact ⟨rfl, dialectAfter_eq (.inl rfl), fun _ => rfl⟩

theorem frameEvents_singleton_send (p : Straps) (d : Dialect) (dc : Level) (b : Byte) :
    frameEvents p d [.send dc b] = byteEvents p dc b := by simp

theorem SendsByte.completes {i : Instr} {dc : Level} {b : Byte} (h : SendsByte i dc b) {s : State}
    (hm : s.mode = .operational) (hc : s.CleanFor s.dialect (byteEvents s.straps dc b)) :
    ∃ t, exec i s = .next t ∧ Completed s t s.dialect (byteEvents s.straps dc b) ∧ t.lines.dc = latchOf dc ∧
      t.lines.cs = (if s.straps.csMode = .softCS then .high else s.lines.cs) ∧ t.lines.rst = s.lines.rst := by
  obtain ⟨hev, hd, hseq⟩ := h.spec s
  rw [← frameEvents_singleton_send _ s.dialect] at hc ⊢
  obtain ⟨t, he, done⟩ := exec_clean_items hev hm hd (hseq _) hc
  have lines := done.lines
  rw [frameEvents_singleton_send, Lines.after_byteEvents] at lines
  exact ⟨t, he, done, by rw [lines], by rw [lines], by rw [lines]⟩

/-- Settles O23: a framed byte of either kind, and the latches its events leave. -/
theorem sendByteFrames : Obligations.SendByteFrames := by
  unfold Obligations.SendByteFrames
  exact fun s b hm => ⟨SendsByte.completes (.inl ⟨rfl, rfl⟩) hm, SendsByte.completes (.inr ⟨rfl, rfl⟩) hm⟩

/-- Where the micro-operation `e` of a framed byte fails, and none before it, the operation ends there. -/
theorem SendsByte.aborts {i : Instr} {dc : Level} {b : Byte} (h : SendsByte i dc b) {s : State} {k : MicroKind}
    {init rest : List Event} {e : Event} (hm : s.mode = .operational) (hb : byteEvents s.straps dc b = init ++ e :: rest)
    (ht : e.takesAck = true) (hk : e.failed.failure = some k) (ha : s.AcksOk (init.countP Event.takesAck))
    (he : s.env.ackAt (init.countP Event.takesAck) = .err) :
    ∃ t, exec i s = .next t ∧ t.history = s.history ++ (init ++ [e.failed]) ∧
      t.completions = completionWord 0x01#8 k.code :: s.completions ∧ t.lines = s.lines.after (init ++ [e.failed]) ∧
      t.ghost.faultMark = true ∧ t.ghost.phase = .undefined := by
  obtain ⟨hev, hd, hseq⟩ := h.spec s
  have clean : cleanEvents s.straps s.dialect (sequenceOf i s s.dialect) = init ++ e :: rest := by
    rw [hseq, cleanEvents_items, frameEvents_singleton_send, hb]
  obtain ⟨t, hn, cut⟩ := exec_aborted hev hm hd (by simp [hseq]) clean ht hk ha he
  exact ⟨t, hn, cut.history, cut.completions, cut.lines, cut.faultMark, cut.phase⟩

/-- Settles O24: the events of a framed byte split at the micro-operation that fails. -/
theorem sendByteAborts : Obligations.SendByteAborts := by
  unfold Obligations.SendByteAborts
  intro s i b v (h : SendsByte i v b) hm
  have one (h0 : s.env.ackAt 0 = .ok) : s.AcksOk 1 := .succ (.zero s) h0
  refine ⟨fun err => ?_, fun cs h0 err => ?_, fun cs h0 h1 err => ?_, fun cs h0 h1 h2 err => ?_, fun cs h0 err => ?_⟩
  · have first : ∃ rest, byteEvents s.straps v b = [] ++ .drive .dc v .ok :: rest := by
      cases hcs : s.straps.csMode with
      | softCS => exact ⟨_, byteEvents_softCS hcs v b⟩
      | hardCS => exact ⟨_, byteEvents_hardCS hcs v b⟩
    obtain ⟨rest, hb⟩ := first
    exact h.aborts hm hb rfl rfl (.zero s) err
  · exact h.aborts hm (init := [.drive .dc v .ok]) (byteEvents_softCS cs v b) rfl rfl (one h0) err
  · exact h.aborts hm (init := [.drive .dc v .ok, .drive .cs .low .ok]) (byteEvents_softCS cs v b) rfl rfl
      (.succ (one h0) h1) err
  · exact h.aborts hm (init := [.drive .dc v .ok, .drive .cs .low .ok, .tx b .ok]) (byteEvents_softCS cs v b) rfl rfl
      (.succ (.succ (one h0) h1) h2) err
  · exact h.aborts hm (init := [.drive .dc v .ok]) (byteEvents_hardCS cs v b) rfl rfl (one h0) err

/-! ### RESET -/

theorem exec_reset_completes {s : State} (hm : s.mode = .operational) (ha : s.AcksOk 3) :
    ∃ t, exec .reset s = .next t ∧ Completed s t s.dialect (resetEvents s.straps) ∧
      t.lines = { s.lines with rst := .high } := by
  have clean : s.CleanFor s.dialect (resetEvents s.straps) := ⟨ha, fun _ hj => absurd hj (Nat.not_lt_zero _)⟩
  obtain ⟨t, he, done⟩ := exec_clean (i := .reset) rfl hm (dialectAfter_eq (.inl rfl)) clean
  exact ⟨t, he, done, done.lines⟩

/-- The `k`-th `Drive` of the pulse and what comes before it (R130). -/
theorem resetEvents_split (p : Straps) {k : Nat} (hk : k < 3) :
    resetEvents p = (resetEvents p).take (2 * k) ++
      .drive .rst (if k = 1 then .low else .high) .ok :: (resetEvents p).drop (2 * k + 1) := by
  match k, hk with
  | 0, _ => rfl
  | 1, _ => rfl
  | 2, _ => rfl

theorem resetEvents_take_takesAck (p : Straps) {k : Nat} (hk : k < 3) :
    ((resetEvents p).take (2 * k)).countP Event.takesAck = k := by
  match k, hk with
  | 0, _ => rfl
  | 1, _ => rfl
  | 2, _ => rfl

theorem Lines.after_resetEvents_cut (ls : Lines) (p : Straps) {k : Nat} (hk : k < 3) (v : Level) :
    ls.after ((resetEvents p).take (2 * k) ++ [.drive .rst v .err]) = { ls with rst := .unknown } := by
  match k, hk with
  | 0, _ => rfl
  | 1, _ => rfl
  | 2, _ => rfl

/-- Settles O25: the pulse done, or cut at its `k`-th drive. -/
theorem resetPulsesPanel : Obligations.ResetPulsesPanel := by
  unfold Obligations.ResetPulsesPanel
  refine ⟨fun w => ?_, fun s hm => ⟨exec_reset_completes hm, fun k hk ha err => ?_⟩⟩
  · obtain ⟨-, -, -, reset, -⟩ := requestDecoderFollowsTable w
    exact reset
  · have count := resetEvents_take_takesAck s.straps hk
    obtain ⟨t, he, cut⟩ := exec_aborted (i := .reset) rfl hm (dialectAfter_eq (.inl rfl)) (resetPieces_noPoll _)
      (resetEvents_split s.straps hk) rfl rfl (by rwa [count]) (by rwa [count])
    refine ⟨t, _, he, ?_, rfl, cut.completions, ?_, cut.fb, cut.dialect⟩
    · rw [List.append_assoc]
      exact cut.history
    · rw [cut.lines]
      exact s.lines.after_resetEvents_cut s.straps hk _

/-! ### READ_BUSY -/

@[simp] theorem Lines.after_busyPolls (ls : Lines) (d : Dialect) (k : Nat) : ls.after (busyPolls d k) = ls := by
  induction k with
  | zero => rfl
  | succ k ih => rw [busyPolls_succ, Lines.after_append]; exact ih

/-- Polling drives no line, whatever ends it (R133). -/
theorem Lines.after_polled {ls : Lines} {e : Event} (he : ls.afterEvent e = ls) (d : Dialect) (k : Nat) :
    ls.after (busyPolls d k ++ [e]) = ls := by
  rw [Lines.after_append, Lines.after_busyPolls]
  exact he

/-- The next `k` samples show the busy level of the active dialect. -/
def State.BusyFor (s : State) (k : Nat) : Prop := ∀ j, j < k → s.env.sampleAt j = some (busyLevelOf s.dialect)

/-- A line is busy for as long as it is busy: two counts of busy samples, each ended by a sample that is not busy, agree. -/
theorem State.BusyFor.le {s : State} {j k : Nat} (h : s.BusyFor j) (hk : s.env.sampleAt k ≠ some (busyLevelOf s.dialect)) :
    j ≤ k :=
  Nat.le_of_not_lt fun hkj => hk (h k hkj)

theorem idle_not_busy {s : State} {k : Nat} (h : s.env.sampleAt k = some (idleLevel s.dialect)) :
    s.env.sampleAt k ≠ some (busyLevelOf s.dialect) := by
  rw [h]
  exact fun e => idle_ne_busy _ (Option.some.inj e)

theorem failed_not_busy {s : State} {k : Nat} (h : s.env.sampleAt k = none) :
    s.env.sampleAt k ≠ some (busyLevelOf s.dialect) := by
  rw [h]
  nofun

/-- What the environment answered where `k` busy polls and a last sample were taken. -/
theorem Ran.sampled {s t : State} {k : Nat} {r : Option Level}
    (h : Ran s t (busyPolls s.dialect k ++ [.sample r])) : s.BusyFor k ∧ s.env.sampleAt k = r := by
  obtain ⟨busy, last⟩ := Answered.append.mp h.answers
  exact ⟨answered_busyPolls.mp busy, by simpa [Answered] using last⟩

/-- How READ_BUSY ends (R133): at the first idle sample, with the log after 500 busy samples, or at a failing sample. -/
inductive PollEnd (s t : State) : Prop
  | idle {k : Nat} (hk : k < 500) (busy : s.BusyFor k) (last : s.env.sampleAt k = some (idleLevel s.dialect))
      (done : Completed s t s.dialect (busyPolls s.dialect k ++ [.sample (some (idleLevel s.dialect))]))
  | timeout (busy : s.BusyFor 500) (done : Completed s t s.dialect (busyPolls s.dialect 500 ++ [.log 0x02#8]))
  | failed {k : Nat} (hk : k < 500) (busy : s.BusyFor k) (last : s.env.sampleAt k = none)
      (cut : Aborted s t .sample (busyPolls s.dialect k ++ [.sample none]))

theorem exec_readBusy_ends {s : State} (hm : s.mode = .operational) : ∃ t, exec .readBusy s = .next t ∧ PollEnd s t := by
  refine ⟨_, operate_operational hm .unchanged readBusy, ?_⟩
  have start := Ran.setPollCnt s 0
  have cases := pollLoop_cases 500 (s.setPollCnt 0)
  show PollEnd s (s.settle .unchanged (pollLoop 500 (s.setPollCnt 0)))
  cases hr : pollLoop 500 (s.setPollCnt 0) with
  | ok t =>
    rw [hr] at cases
    have done {evs} (ran : Ran s t evs) : Completed s (s.settle .unchanged (.ok t)) s.dialect evs :=
      ran.same ▸ settle_completed .unchanged ran.toFollows
    obtain ⟨k, hk, ran⟩ | ran := cases
    · have ran := start.trans ran
      obtain ⟨busy, last⟩ := ran.sampled
      exact .idle hk busy last (done ran)
    · have ran : Ran s t (busyPolls s.dialect 500 ++ [.log 0x02#8]) := start.trans ran
      exact .timeout (answered_busyPolls.mp (Answered.append.mp ran.answers).1) (done ran)
  | abort kind t =>
    rw [hr] at cases
    obtain ⟨rfl, k, hk, ran⟩ := cases
    have ran := start.trans ran
    obtain ⟨busy, last⟩ := ran.sampled
    exact .failed hk busy last (settle_aborted _ _ ran.toFollows ran.same)

/-- Settles O26: of the three ends, the one whose busy samples are those the line shows. -/
theorem readBusyPollsUntilIdle : Obligations.ReadBusyPollsUntilIdle := by
  unfold Obligations.ReadBusyPollsUntilIdle
  intro s k hm hk (busy : s.BusyFor k) idle
  obtain ⟨t, he, ends⟩ := exec_readBusy_ends hm
  refine ⟨t, he, ?_⟩
  cases ends with
  | @idle j _ busy' last done =>
    obtain rfl : j = k := Nat.le_antisymm (busy'.le (idle_not_busy idle)) (busy.le (idle_not_busy last))
    exact ⟨done, done.lines.trans (Lines.after_polled rfl _ _)⟩
  | timeout busy' _ => exact absurd (busy'.le (idle_not_busy idle)) (Nat.not_le_of_lt hk)
  | @failed j _ busy' last _ =>
    obtain rfl : j = k := Nat.le_antisymm (busy'.le (idle_not_busy idle)) (busy.le (failed_not_busy last))
    rw [last] at idle
    cases idle

/-- Settles O27: 500 busy samples leave only the time-out, and a failing sample after fewer only the abort. -/
theorem readBusyIsBounded : Obligations.ReadBusyIsBounded := by
  unfold Obligations.ReadBusyIsBounded
  intro s hm
  obtain ⟨t, he, ends⟩ := exec_readBusy_ends hm
  refine ⟨fun (busy : s.BusyFor 500) => ⟨t, he, ?_⟩, fun k hk (busy : s.BusyFor k) failed => ⟨t, he, ?_⟩⟩
  · cases ends with
    | idle hk _ last _ => exact absurd (busy.le (idle_not_busy last)) (Nat.not_le_of_lt hk)
    | timeout _ done =>
      exact ⟨done, by simp, done.lines.trans (Lines.after_polled rfl _ _)⟩
    | failed hk _ last _ => exact absurd (busy.le (failed_not_busy last)) (Nat.not_le_of_lt hk)
  · cases ends with
    | @idle j _ busy' last _ =>
      obtain rfl : j = k := Nat.le_antisymm (busy'.le (failed_not_busy failed)) (busy.le (idle_not_busy last))
      rw [failed] at last
      cases last
    | timeout busy' _ => exact absurd (busy'.le (failed_not_busy failed)) (Nat.not_le_of_lt hk)
    | @failed j _ busy' last cut =>
      obtain rfl : j = k := Nat.le_antisymm (busy'.le (failed_not_busy failed)) (busy.le (failed_not_busy last))
      exact ⟨cut.history, cut.completions, cut.lines.trans (Lines.after_polled rfl _ _), cut.faultMark⟩

/-! ### Time-outs and the refresh -/

/-- Settles O28: with no failing answer no sequence is cut, and a done one has all its bytes on the wire. -/
theorem operationsGoOnAfterTimeouts : Obligations.OperationsGoOnAfterTimeouts := by
  unfold Obligations.OperationsGoOnAfterTimeouts
  intro i s d hm hev hd acks samples
  obtain ⟨t, evs, he, ended, done, answers⟩ := exec_goes_on hev hm hd.symm acks samples
  obtain ⟨dc, wire⟩ := State.wire_append ended.history
  exact ⟨t, evs, he, ended, done, answers, by rw [wire, done.wire]⟩

/-- Settles O29: the frames of the refresh, answered cleanly. -/
theorem turnOnDisplayRefreshes : Obligations.TurnOnDisplayRefreshes := by
  unfold Obligations.TurnOnDisplayRefreshes
  exact fun s hm clean => exec_clean_items (i := .turnOnDisplay) rfl hm (dialectAfter_eq (.inl rfl)) rfl clean

/-! ### How many events -/

/-- However an instruction ends, it appends at most the events of its sequence with every busy-wait timing out. -/
theorem exec_trace_length {i : Instr} {s t : State} (he : exec i s = .next t) :
    t.trace.length ≤ s.trace.length + Weight.length.pieces s.straps (sequenceOf i s t.dialect) := by
  cases hev : (access i).events with
  | true => exact exec_length hev he
  | false =>
    obtain ⟨fb, w, rfl⟩ := exec_quiet he fun _ => hev
    exact Nat.le_add_right ..

/-- The events of a piece that is neither a byte nor a busy-wait: a level on RST, a delay, the probe's read frame. -/
def Piece.extra : Piece → Nat
  | .item _ => 0
  | .rst _ => 1
  | .wait _ => 1
  | .read _ => 4

/-- The events of a sequence that belong to no byte and no busy-wait. -/
def extras (xs : List Piece) : Nat := (xs.map Piece.extra).sum

theorem extras_append (xs ys : List Piece) : extras (xs ++ ys) = extras xs + extras ys := by simp [extras]

theorem extras_items (items : List SeqItem) : extras (items.map .item) = 0 := by
  induction items with
  | nil => rfl
  | cons _ items ih => exact (Nat.zero_add _).trans ih

section DefaultPacing

variable {p : Straps} (h : p.tInterbyte = 0)
include h

/-- With default pacing a byte has at most 4 events, a busy-wait 1001 (R137). -/
theorem pieces_length (xs : List Piece) :
    Weight.length.pieces p xs = 4 * (bytesOf xs).length + 1001 * pollsOf xs + extras xs := by
  induction xs with
  | nil => rfl
  | cons x xs ih =>
    rw [Weight.pieces_cons, ih]
    match x with
    | .item (.send _ _) | .item .busyWait | .rst _ | .wait _ | .read _ =>
      simp [Weight.piece, Weight.pause, Weight.length, h, bytesOf, pollsOf, Bw, extras, Piece.extra]
      omega

/-- A plane-write frame is the command and `n` data bytes (R136). -/
theorem planeFrame_length (cmd : Byte) (n : Nat) (data : Nat → Byte) :
    Weight.length.pieces p ((planeFrame cmd n data).map .item) = 4 * (n + 1) := by
  have data_length : Weight.length.pieces p (((List.range n).map fun i => D (data i)).map .item) = 4 * n := by
    simp [Weight.pieces, Function.comp_def, D, Weight.piece, Weight.pause, Weight.length, h, Nat.mul_comm]
  rw [planeFrame, List.map_cons, Weight.pieces_cons, data_length]
  simp [C, Weight.piece, Weight.pause, Weight.length, h]
  omega

/-- TURN_ON_DISPLAY: at most three bytes and a busy-wait (R134). -/
theorem refreshFrames_length (d : Dialect) : Weight.length.pieces p ((refreshFrames d).map .item) ≤ 1013 := by
  rw [pieces_length h]
  cases d <;> decide

/-- CONFIG: 20 bytes and two busy-waits (R142). -/
theorem configFrames_length (g : Geometry) : Weight.length.pieces p ((configFrames g).map .item) = 2082 := by
  have bytes : (bytesOf ((configFrames g).map .item)).length = 20 := rfl
  have polls : pollsOf ((configFrames g).map .item) = 2 := rfl
  rw [pieces_length h, bytes, polls, extras_items]

/-- Under Old the power-on command and a busy-wait, then CONFIG (R140). -/
theorem initSequence_length (hs : OldAsNew p) (d : Dialect) :
    Weight.length.pieces p ((initSequence p d).map .item) = if d = .new then 2082 else 3087 := by
  cases d with
  | new => exact configFrames_length h _
  | old =>
    obtain ⟨config, -⟩ := sequences_oldAsNew hs
    have powerOn : Weight.length.pieces p ([C 0x04#8, Bw].map .item) = 1005 := by rw [pieces_length h]; rfl
    rw [initSequence, config, List.map_append, Weight.pieces_append, powerOn, configFrames_length h]
    rfl

/-- INIT: the pulse, the probe at most, and the configuration (R140). -/
theorem sequenceOf_init_length {s : State} (hp : s.straps = p) (hs : OldAsNew p) (d : Dialect) :
    Weight.length.pieces p (sequenceOf .init s d) ≤ 15 + if d = .new then 2082 else 3087 := by
  subst hp
  have pulse : Weight.length.pieces s.straps (resetPieces s.straps) = 6 := rfl
  have probe : Weight.length.pieces s.straps (if s.straps.dialectCfg = .probe then detectPieces s else []) ≤ 9 := by
    split
    · exact (pieces_length h _).le
    · exact Nat.zero_le _
  rw [sequenceOf, Weight.pieces_append, Weight.pieces_append, pulse, initSequence_length h hs]
  omega

/-- REHOME, two plane writes and the refresh (R143, R144). -/
theorem imageSequence_length (hs : OldAsNew p) (d : Dialect) (black red : Nat → Byte) :
    Weight.length.pieces p ((imageSequence p d black red).map .item) ≤ 4 * (2 * planeBytes p.geometry + 10) + 1001 := by
  have rehome : Weight.length.pieces p ((rehomeSequence p d).map .item) = 20 := by
    obtain ⟨-, rehome, -⟩ := sequences_oldAsNew hs
    rw [pieces_length h]
    cases d with
    | new => rfl
    | old => rw [rehome]; rfl
  have refresh := refreshFrames_length h d
  simp only [imageSequence, List.map_append, Weight.pieces_append, planeFrame_length h, rehome]
  omega

/-- SLEEP: two bytes and the settling delay (R150). -/
theorem sequenceOf_sleep_length {s : State} (hp : s.straps = p) (hs : OldAsNew p) (d : Dialect) :
    Weight.length.pieces p (sequenceOf .sleep s d) = 9 := by
  subst hp
  obtain ⟨-, -, -, sleep, -⟩ := sequences_oldAsNew hs
  rw [pieces_length h, sequenceOf]
  cases d with
  | new => rfl
  | old => rw [sleep]; rfl

/-- POWER_OFF_AND_DEEP_SLEEP: three bytes and two busy-waits (R151). -/
theorem shutdownSequence_length (hs : OldAsNew p) (d : Dialect) :
    Weight.length.pieces p ((shutdownSequence p d).map .item) = 2014 := by
  obtain ⟨-, -, -, -, shutdown⟩ := sequences_oldAsNew hs
  rw [pieces_length h]
  cases d with
  | new => rfl
  | old => rw [shutdown]; rfl

end DefaultPacing

/-- INIT has the most events that belong to no byte and no busy-wait: those of the reset pulse and of the probe. -/
theorem extras_sequenceOf_le (i : Instr) (s : State) (d : Dialect) : extras (sequenceOf i s d) ≤ 11 := by
  have items (items : List SeqItem) : extras (items.map .item) ≤ 11 := (extras_items items).trans_le (Nat.zero_le _)
  have pulse : extras (resetPieces s.straps) = 6 := rfl
  have probe : extras (detectPieces s) = 5 := rfl
  cases i with
  | fbClear _ | fbSetPixel _ _ _ | fbRead _ _ => exact Nat.zero_le _
  | sendCommand b => exact items [C b]
  | sendData b => exact items [D b]
  | readBusy => exact items [Bw]
  | reset => rw [sequenceOf, pulse]; decide
  | wDetect => rw [sequenceOf, probe]; decide
  | init =>
    rw [sequenceOf, extras_append, extras_append, extras_items, pulse]
    split
    · rw [probe]
    · decide
  | sleep =>
    rw [sequenceOf, extras_append, extras_items]
    decide
  | wDeepSleep mode =>
    cases mode with
    | ordinary => exact (by decide : 1 ≤ 11)
    | persistent => exact items [C 0x10#8, D 0x01#8, Bw]
  | _ => exact items _

/-- Settles O46: the general bound counts the pieces, and each number is that bound at the operation's own sequence. -/
theorem eventCountsAreBounded : Obligations.EventCountsAreBounded := by
  unfold Obligations.EventCountsAreBounded
  intro i s t hp he
  have bound {n : Nat} (hn : Weight.length.pieces s.straps (sequenceOf i s t.dialect) ≤ n) :
      t.trace.length ≤ s.trace.length + n := (exec_trace_length he).trans (Nat.add_le_add_left hn _)
  refine ⟨bound ?_, ?_, ?_, ?_, ?_, ?_, fun hs => ⟨?_, ?_, ?_, ?_, ?_, ?_⟩⟩
  · rw [pieces_length hp]
    exact Nat.add_le_add_left (extras_sequenceOf_le i s t.dialect) _
  · rintro rfl
    exact bound (pieces_length hp _).le
  · rintro b (rfl | rfl)
    · exact bound (pieces_length hp _).le
    · exact bound (pieces_length hp _).le
  · rintro rfl
    exact bound (pieces_length hp _).le
  · rintro src (rfl | rfl | rfl | rfl)
    all_goals exact bound (planeFrame_length hp _ _ _).le
  · rintro rfl
    exact bound (refreshFrames_length hp _)
  · rintro rfl
    refine bound ((sequenceOf_init_length hp rfl hs _).trans ?_)
    split <;> decide
  · rintro rfl new
    refine bound ((sequenceOf_init_length hp rfl hs _).trans ?_)
    rw [if_pos new]
  · rintro rfl
    exact bound (imageSequence_length hp hs _ _ _)
  · rintro rfl
    have image := imageSequence_length hp hs t.dialect (fun _ => 0xFF#8) (fun _ => 0x00#8)
    have poll : Weight.length.pieces s.straps ([Bw].map .item) = 1001 := pieces_length hp _
    refine bound ?_
    rw [sequenceOf, List.map_append, Weight.pieces_append, poll]
    omega
  · rintro rfl
    exact bound (sequenceOf_sleep_length hp rfl hs _).le
  · rintro rfl
    exact bound (shutdownSequence_length hp hs _).le

end Sys2Proof.Machine
end

section
/-! The statements of the family 43_driver_sequences.md: what INIT, DISPLAY and PANEL_CLEAR send when nothing fails and BUSY is
idle (R140 to R144), the configured Old column (R160, R162), and how many events that is (R145). Every one of them is
`exec_clean` at the operation's own sequence, read in the statement's words. -/

namespace Sys2Proof.Machine

/-! ### The sequences in the statements' words -/

/-- What INIT sends after its probe, once the Old column is known to be New's (R140, R162). -/
theorem initSequence_eq {p : Straps} {d : Dialect} (h : d = .old → OldAsNew p) :
    initSequence p d = initFrames p.geometry d := by
  cases d with
  | new => rfl
  | old =>
    obtain ⟨config, -⟩ := sequences_oldAsNew (h rfl)
    rw [initSequence, config, initFrames]

/-- The transfer and the refresh of an image, once the Old column is known to be New's (R143, R162). -/
theorem imageSequence_eq {p : Straps} {d : Dialect} (h : d = .old → OldAsNew p) (black red : Nat → Byte) :
    imageSequence p d black red = imageFrames d (planeBytes p.geometry) black red := by
  cases d with
  | new => rfl
  | old =>
    obtain ⟨-, rehome, invert, -⟩ := sequences_oldAsNew (h rfl)
    simp only [imageSequence, imageFrames, rehome, invert]

/-- The clean events of INIT: the reset pulse, the detection under the Probe strap, the configuration (R140, R141). -/
theorem cleanEvents_init (s : State) (d : Dialect) : cleanEvents s.straps d (sequenceOf .init s d) =
    resetEvents s.straps ++
      ((if s.straps.dialectCfg = .probe then frameEvents s.straps d [C 0x2F#8] ++ ([.delay 50] ++
          probeReadEvents s.straps (s.env.readAt 0)) else []) ++
        frameEvents s.straps d (initSequence s.straps d)) := by
  rw [sequenceOf, cleanEvents_append, cleanEvents_append, cleanEvents_reset, cleanEvents_items, List.append_assoc]
  congr 2
  split
  · exact cleanEvents_detect s d
  · rfl

/-- The clean events of SLEEP (R150). -/
theorem cleanEvents_sleep (s : State) (d : Dialect) : cleanEvents s.straps d (sequenceOf .sleep s d) =
    frameEvents s.straps d (sleepSequence s.straps d) ++ [.delay 2000] := by
  rw [sequenceOf, cleanEvents_append, cleanEvents_items]
  rfl

/-- `exec_clean`, the events given in other words. -/
theorem exec_clean_events {i : Instr} {s : State} {d : Dialect} {evs : List Event} (h : (access i).events = true)
    (hm : s.mode = .operational) (hd : s.dialectAfter i = d)
    (he : cleanEvents s.straps d (sequenceOf i s d) = evs) (hc : s.CleanFor d evs) :
    ∃ t, exec i s = .next t ∧ Completed s t d evs := by
  subst he
  exact exec_clean h hm hd hc

/-! ### INIT -/

/-- Without the Probe strap nothing stands between the pulse and the configuration (R140). -/
theorem cleanEvents_init_of_ne_probe {s : State} (h : s.straps.dialectCfg ≠ .probe) (d : Dialect) :
    cleanEvents s.straps d (sequenceOf .init s d) =
      resetEvents s.straps ++ frameEvents s.straps d (initSequence s.straps d) := by
  rw [cleanEvents_init, if_neg h, List.nil_append]

/-- Under the Probe strap INIT ends with the dialect of the verdict (R141). -/
theorem dialectAfter_init_of_probe {s : State} (h : s.straps.dialectCfg = .probe) : s.dialectAfter .init = s.verdict :=
  if_pos ⟨rfl, h⟩

/-- Settles O30: the flag stays, and the pulse is followed by the configuration of its dialect. -/
theorem initSendsConfiguration : Obligations.InitSendsConfiguration := by
  unfold Obligations.InitSendsConfiguration
  intro s hm hp old clean
  have events := cleanEvents_init_of_ne_probe hp s.dialect
  rw [initSequence_eq old] at events
  exact exec_clean_events rfl hm (dialectAfter_eq (.inr hp)) events clean

/-- Settles O31: the detection stands between the pulse and the configuration, whose dialect is the verdict's. -/
theorem initProbesDialect : Obligations.InitProbesDialect := by
  unfold Obligations.InitProbesDialect
  intro s d evs hm hp hd old hevs clean
  have verdict : s.dialectAfter .init = d := (dialectAfter_init_of_probe hp).trans hd.symm
  refine exec_clean_events rfl hm verdict ?_ clean
  rw [cleanEvents_init, if_pos hp, initSequence_eq old, hevs]
  simp only [List.append_assoc]

/-! ### DISPLAY and PANEL_CLEAR -/

/-- DISPLAY's sequence is the image of the core's own planes (R143). -/
theorem sequenceOf_display {s : State} {d : Dialect} (old : d = .old → OldAsNew s.straps) : sequenceOf .display s d =
    (imageFrames d (planeBytes s.straps.geometry) (s.fb.read .black) (s.fb.read .red)).map .item := by
  rw [sequenceOf, imageSequence_eq old]

/-- PANEL_CLEAR's sequence is the white image and one more busy-wait (R144). -/
theorem sequenceOf_panelClear {s : State} {d : Dialect} (old : d = .old → OldAsNew s.straps) :
    sequenceOf .panelClear s d =
      (imageFrames d (planeBytes s.straps.geometry) (fun _ => 0xFF#8) (fun _ => 0x00#8) ++ [Bw]).map .item := by
  rw [sequenceOf, imageSequence_eq old]

/-- Settles O32: DISPLAY sends the image of the core's own planes. -/
theorem displayStreamsPlanes : Obligations.DisplayStreamsPlanes := by
  unfold Obligations.DisplayStreamsPlanes
  intro s evs hm old hevs clean
  subst hevs
  exact exec_clean_items rfl hm (dialectAfter_eq (.inl rfl)) (sequenceOf_display old) clean

/-- Settles O33: PANEL_CLEAR sends the white image and polls once more. -/
theorem panelClearStreamsWhite : Obligations.PanelClearStreamsWhite := by
  unfold Obligations.PanelClearStreamsWhite
  intro s evs hm old hevs clean
  subst hevs
  exact exec_clean_items rfl hm (dialectAfter_eq (.inl rfl)) (sequenceOf_panelClear old) clean

/-! ### The configured Old column -/

/-- The white image under Old: red is zero in memory, on the wire its complement where `RED_INVERT` says so (R144, R160). -/
theorem sequenceOf_panelClear_old (s : State) : sequenceOf .panelClear s .old =
    (itemsOf s.straps.oldTail.rehomeSeq ++
      planeFrame 0x10#8 (planeBytes s.straps.geometry) (fun _ => 0xFF#8) ++
      planeFrame 0x13#8 (planeBytes s.straps.geometry)
        (fun _ => if s.straps.oldTail.redInvert then 0xFF#8 else 0x00#8) ++
      [C 0x12#8, Bw, Bw]).map .item := by
  rw [sequenceOf, imageSequence, List.append_assoc _ (refreshFrames .old)]
  rfl

/-- Settles O36: the sequence of each operation under Old is made of the configured fields. -/
theorem oldConfigurationIsFollowed : Obligations.OldConfigurationIsFollowed := by
  unfold Obligations.OldConfigurationIsFollowed
  intro s i evs hm hd hmem clean
  simp only [List.mem_cons, List.not_mem_nil, or_false, Prod.mk.injEq] at hmem
  obtain ⟨rfl, rfl⟩ | ⟨rfl, rfl⟩ | ⟨rfl, rfl⟩ | ⟨rfl, rfl⟩ | ⟨rfl, rfl⟩ := hmem
  · exact exec_clean_events rfl hm hd (cleanEvents_init s .old) clean
  · exact exec_clean_items (i := .display) rfl hm hd rfl clean
  · exact exec_clean_items rfl hm hd (sequenceOf_panelClear_old s) clean
  · exact exec_clean_events rfl hm hd (cleanEvents_sleep s .old) clean
  · exact exec_clean_items (i := .powerOffAndDeepSleep) rfl hm hd rfl clean

/-! ### How many events a clean operation appends -/

/-- The sequence has `k` bytes and `q` busy-waits. -/
structure Counts (items : List SeqItem) (k q : Nat) : Prop where
  bytes : (bytesOf (items.map .item)).length = k
  polls : pollsOf (items.map .item) = q

theorem Counts.append {a b : List SeqItem} {k q k' q' : Nat} (ha : Counts a k q) (hb : Counts b k' q') :
    Counts (a ++ b) (k + k') (q + q') where
  bytes := by
    rw [← ha.bytes, ← hb.bytes, List.map_append, bytesOf, List.filterMap_append, List.length_append]
    rfl
  polls := by
    rw [← ha.polls, ← hb.polls, List.map_append, pollsOf, List.count_append]
    rfl

theorem counts_planeFrame (cmd : Byte) (n : Nat) (data : Nat → Byte) : Counts (planeFrame cmd n data) (n + 1) 0 where
  bytes := by simp [planeFrame, bytesOf, C, D, Function.comp_def]
  polls := by simp [planeFrame, pollsOf, C, D, Bw, List.count_eq_zero]

/-- An image is five bytes of REHOME, two plane writes and the refresh (R143). -/
theorem counts_imageFrames {d : Dialect} {k : Nat} (refresh : Counts (refreshFrames d) k 1) (n : Nat)
    (black red : Nat → Byte) : Counts (imageFrames d n black red) (2 * n + (7 + k)) 1 := by
  have rehome : Counts rehomeFrames 5 0 := ⟨rfl, rfl⟩
  have blackPlane := counts_planeFrame (blackCommand d) n black
  have redPlane := counts_planeFrame (redCommand d) n fun i => ~~~(red i)
  have bytes : 2 * n + (7 + k) = 5 + (n + 1) + (n + 1) + k := by omega
  rw [bytes]
  exact ((rehome.append blackPlane).append redPlane).append refresh

/-- The events of one byte with default pacing, which is also how many the read frame of the probe has (R91, R97). -/
def eventsPerByte : CsMode → Nat
  | .softCS => 4
  | .hardCS => 2

theorem byteEvents_length {p : Straps} (h : p.tInterbyte = 0) (dc : Level) (b : Byte) :
    (byteEvents p dc b).length = eventsPerByte p.csMode := by
  unfold byteEvents
  cases p.csMode <;> simp [h, eventsPerByte]

theorem probeReadEvents_length (p : Straps) (r : Option Byte) : (probeReadEvents p r).length = eventsPerByte p.csMode := by
  unfold probeReadEvents
  cases p.csMode <;> rfl

/-- With default pacing `k` bytes and `q` busy-waits are `4k + q` or `2k + q` events (R145). -/
theorem frameEvents_length {p : Straps} {items : List SeqItem} {k q : Nat} (h : p.tInterbyte = 0) (hc : Counts items k q)
    (d : Dialect) : (frameEvents p d items).length = eventsPerByte p.csMode * k + q := by
  obtain ⟨rfl, rfl⟩ := hc
  induction items with
  | nil => rfl
  | cons item items ih =>
    cases item with
    | send dc b =>
      have bytes : (bytesOf ((SeqItem.send dc b :: items).map .item)).length = (bytesOf (items.map .item)).length + 1 := rfl
      have polls : pollsOf ((SeqItem.send dc b :: items).map .item) = pollsOf (items.map .item) := by simp [pollsOf, Bw]
      rw [frameEvents_send, List.length_append, byteEvents_length h, ih, bytes, polls, Nat.mul_succ]
      omega
    | busyWait =>
      have bytes : bytesOf ((SeqItem.busyWait :: items).map .item) = bytesOf (items.map .item) := rfl
      have polls : pollsOf ((SeqItem.busyWait :: items).map .item) = pollsOf (items.map .item) + 1 := by simp [pollsOf, Bw]
      rw [frameEvents_busyWait, List.length_append, ih, bytes, polls, List.length_singleton]
      omega

/-- INIT has the events of its frames, six for the pulse and, with the probe, one byte, the delay and the read frame (R145). -/
theorem cleanEvents_init_length {s : State} {d : Dialect} {k q probes : Nat} (h : s.straps.tInterbyte = 0)
    (hc : Counts (initSequence s.straps d) k q) (hp : probes = if s.straps.dialectCfg = .probe then 1 else 0) :
    (cleanEvents s.straps d (sequenceOf .init s d)).length = eventsPerByte s.straps.csMode * (k + probes) + q +
      (6 + probes * (eventsPerByte s.straps.csMode + 1)) := by
  have pulse : (resetEvents s.straps).length = 6 := rfl
  have command : Counts [C 0x2F#8] 1 0 := ⟨rfl, rfl⟩
  rw [cleanEvents_init, List.length_append, List.length_append, pulse, frameEvents_length h hc, hp]
  split
  · simp only [List.length_append, frameEvents_length h command, probeReadEvents_length, List.length_singleton]
    ring
  · simp only [List.length_nil]
    ring

/-- An operation that is frames alone has the events of its frames (R145). -/
theorem cleanEvents_length {i : Instr} {s : State} {d : Dialect} {items : List SeqItem} {k q : Nat}
    (h : s.straps.tInterbyte = 0) (hi : sequenceOf i s d = items.map .item) (hc : Counts items k q) :
    (cleanEvents s.straps d (sequenceOf i s d)).length = eventsPerByte s.straps.csMode * k + q := by
  rw [hi, cleanEvents_items, frameEvents_length h hc]

theorem Completed.trace_length {s t : State} {d : Dialect} {evs : List Event} (h : Completed s t d evs) :
    t.trace.length = s.trace.length + evs.length := by
  simpa [State.history] using congrArg List.length h.history

/-- A clean operation appends as many events as its sequence has. -/
theorem exec_clean_length {i : Instr} {s : State} {d : Dialect} {n : Nat} (h : (access i).events = true)
    (hm : s.mode = .operational) (hd : s.dialectAfter i = d)
    (hc : s.CleanFor d (cleanEvents s.straps d (sequenceOf i s d)))
    (hn : (cleanEvents s.straps d (sequenceOf i s d)).length = n) :
    ∃ t, exec i s = .next t ∧ t.completions = 0x0000#16 :: s.completions ∧ t.trace.length = s.trace.length + n := by
  obtain ⟨t, he, done⟩ := exec_clean h hm hd hc
  exact ⟨t, he, done.completions, hn ▸ done.trace_length⟩

/-- Settles O37: each operation's clean events, counted by its bytes and its busy-waits. -/
theorem cleanEventCounts : Obligations.CleanEventCounts := by
  unfold Obligations.CleanEventCounts
  intro s i d probes per k q extra hm pacing hd old hprobes hper hmem clean
  have perByte : per = eventsPerByte s.straps.csMode := by
    rw [hper]
    cases s.straps.csMode <;> rfl
  have perProbe : (if s.straps.csMode = .softCS then 5 else 3) = eventsPerByte s.straps.csMode + 1 := by
    cases s.straps.csMode <;> rfl
  have poll : Counts [Bw] 0 1 := ⟨rfl, rfl⟩
  have newImage := counts_imageFrames (d := .new) (k := 3) ⟨rfl, rfl⟩ (planeBytes s.straps.geometry)
  have oldImage := counts_imageFrames (d := .old) (k := 1) ⟨rfl, rfl⟩ (planeBytes s.straps.geometry)
  rw [perProbe] at hmem
  rw [perByte]
  simp only [List.mem_cons, List.not_mem_nil, or_false, Prod.mk.injEq] at hmem
  obtain ⟨rfl, rfl, rfl, rfl, rfl⟩ | ⟨rfl, rfl, rfl, rfl, rfl⟩ | ⟨rfl, rfl, rfl, rfl, rfl⟩ | ⟨rfl, rfl, rfl, rfl, rfl⟩ |
    ⟨rfl, rfl, rfl, rfl, rfl⟩ | ⟨rfl, rfl, rfl, rfl, rfl⟩ | ⟨rfl, rfl, rfl, rfl, rfl⟩ | ⟨rfl, rfl, rfl, rfl, rfl⟩ := hmem
  · exact exec_clean_length rfl hm hd.symm clean (cleanEvents_init_length pacing ⟨rfl, rfl⟩ hprobes)
  · have counts : Counts (initSequence s.straps .old) 21 3 := by
      rw [initSequence_eq old]
      exact ⟨rfl, rfl⟩
    exact exec_clean_length rfl hm hd.symm clean (cleanEvents_init_length pacing counts hprobes)
  · exact exec_clean_length rfl hm hd.symm clean (cleanEvents_length pacing (sequenceOf_display old) (newImage _ _))
  · exact exec_clean_length rfl hm hd.symm clean (cleanEvents_length pacing (sequenceOf_display old) (oldImage _ _))
  · exact exec_clean_length rfl hm hd.symm clean
      (cleanEvents_length pacing (sequenceOf_panelClear old) ((newImage _ _).append poll))
  · exact exec_clean_length rfl hm hd.symm clean
      (cleanEvents_length pacing (sequenceOf_panelClear old) ((oldImage _ _).append poll))
  · exact exec_clean_length rfl hm hd.symm clean (cleanEvents_length pacing rfl ⟨rfl, rfl⟩)
  · exact exec_clean_length rfl hm hd.symm clean (cleanEvents_length pacing rfl ⟨rfl, rfl⟩)

end Sys2Proof.Machine
end

section
/-! The statements of the family 44_power_down.md: what SLEEP and POWER_OFF_AND_DEEP_SLEEP send when nothing fails and BUSY is
idle (R150, R151). Each is `exec_clean` at the operation's own sequence, which under `OldAsNew` is New's in either dialect. -/

namespace Sys2Proof.Machine

/-- What SLEEP sends before its delay, once the Old column is known to be New's (R150, R162). -/
theorem sleepSequence_eq {p : Straps} {d : Dialect} (h : d = .old → OldAsNew p) :
    sleepSequence p d = [C 0x10#8, D 0x03#8] := by
  cases d with
  | new => rfl
  | old =>
    obtain ⟨-, -, -, sleep, -⟩ := sequences_oldAsNew (h rfl)
    exact sleep

/-- What POWER_OFF_AND_DEEP_SLEEP sends, once the Old column is known to be New's (R151, R162). -/
theorem shutdownSequence_eq {p : Straps} {d : Dialect} (h : d = .old → OldAsNew p) :
    shutdownSequence p d = [C 0x02#8, Bw, C 0x10#8, D 0x01#8, Bw] := by
  cases d with
  | new => rfl
  | old =>
    obtain ⟨-, -, -, -, shutdown⟩ := sequences_oldAsNew (h rfl)
    exact shutdown

/-- POWER_OFF_AND_DEEP_SLEEP's sequence is its frames alone (R151). -/
theorem sequenceOf_powerOffAndDeepSleep {s : State} {d : Dialect} (old : d = .old → OldAsNew s.straps) :
    sequenceOf .powerOffAndDeepSleep s d = [C 0x02#8, Bw, C 0x10#8, D 0x01#8, Bw].map .item := by
  rw [sequenceOf, shutdownSequence_eq old]

/-- Settles O34: the two bytes of SLEEP, then its delay, which is no busy-wait. -/
theorem sleepSendsDeepSleep : Obligations.SleepSendsDeepSleep := by
  unfold Obligations.SleepSendsDeepSleep
  intro s evs hm old hevs clean
  have events := cleanEvents_sleep s s.dialect
  rw [sleepSequence_eq old, ← hevs] at events
  exact exec_clean_events rfl hm (dialectAfter_eq (.inl rfl)) events clean

/-- Settles O35: the frames of the shutdown sequence, in the order they stand there. -/
theorem shutdownKeepsItsOrder : Obligations.ShutdownKeepsItsOrder := by
  unfold Obligations.ShutdownKeepsItsOrder
  intro s evs hm old hevs clean
  subst hevs
  exact exec_clean_items rfl hm (dialectAfter_eq (.inl rfl)) (sequenceOf_powerOffAndDeepSleep old) clean

end Sys2Proof.Machine
end

section
/-! The statements of the family 45_dialect_tables.md: the two columns of the dialect record (R161, R162), and who writes the
dialect flag (R163, R164, R166). A changed flag is traced back from the step to the instruction it ran, from the instruction to
INIT, and from INIT to the request it was decoded from. -/

namespace Sys2Proof.Machine

/-! ### The columns -/

/-- Settles O10: each field is the spec's by definition, `CONFIG_SEQ` the bytes and busy-waits of CONFIG. -/
theorem dialectColumns : Obligations.DialectColumns := by
  unfold Obligations.DialectColumns
  exact ⟨fun p => ⟨rfl, rfl, rfl, rfl, rfl, rfl, configBlock_new p.geometry, rfl, rfl, rfl, rfl⟩, rfl⟩

/-! ### What is decoded as INIT -/

/-- A decoded frame is one of the rows of its dialect (R92, R93). -/
theorem decodeFrame_ok {d : Dialect} {w : FrameWord} {i : Instr} (h : decodeFrame d w = .ok i) :
    ∃ r ∈ frameRows d, r.instr = i := by
  unfold decodeFrame at h
  split at h
  · cases h
    exact ⟨_, List.mem_of_find?_eq_some ‹_›, rfl⟩
  · cases h

/-- INIT is no wire frame (R83, R92, R93). -/
theorem frameRows_ne_init (d : Dialect) : ∀ r ∈ frameRows d, r.instr ≠ .init := by
  cases d <;> decide

/-- `0xD5` is the one operation code of INIT (R83). -/
theorem reqOp_of_decodeRequest_init {w : RequestWord} (h : decodeRequest w = .ok .init) : reqOp w = 0xD5#8 := by
  obtain ⟨-, ⟨⟩⟩ | ⟨-, ⟨⟩⟩ | ⟨-, ⟨⟩⟩ | ⟨-, ⟨⟩⟩ | ⟨-, ⟨⟩⟩ | ⟨-, ⟨⟩⟩ | ⟨-, ⟨⟩⟩ | ⟨-, ⟨⟩⟩ | ⟨hop, -⟩ | ⟨-, ⟨⟩⟩ | ⟨-, ⟨⟩⟩ |
    ⟨-, ⟨⟩⟩ | ⟨-, ⟨⟩⟩ | ⟨-, ⟨⟩⟩ := decodeRequest_cases h
  exact hop

/-- INIT is decoded from a request with its operation code, under either dialect. -/
theorem decode_init {d : Dialect} {c : Code} (h : decode d c = .ok .init) : ∃ w, c = .request w ∧ reqOp w = 0xD5#8 := by
  cases c with
  | request w => exact ⟨w, rfl, reqOp_of_decodeRequest_init h⟩
  | frame w =>
    obtain ⟨r, hr, isInit⟩ := decodeFrame_ok h
    exact absurd isInit (frameRows_ne_init d r hr)

/-- A fetched request is the first of those presented (R16). -/
theorem requests_of_fetch {s : State} {w : RequestWord} (h : s.fetch = some (.request w)) :
    ∃ rest, s.requests = w :: rest := by
  have first : s.requests.head? = some w := by simpa [State.fetch, fetch_request h] using h
  exact List.head?_eq_some_iff.mp first

/-! ### Who writes the flag -/

/-- With a `probe_decode` that recognises no byte, every answer is New (R166). -/
theorem verdict_of_probeOld_nil {s : State} (h : s.straps.probeOld = []) : s.verdict = .new := by
  unfold State.verdict
  cases s.env.readAt 0 <;> simp [h]

/-- An instruction that changes the flag is an INIT under the Probe strap, and leaves the verdict (R163). -/
theorem exec_changes_dialect {i : Instr} {s t : State} (he : exec i s = .next t) (hne : t.dialect ≠ s.dialect) :
    i = .init ∧ s.straps.dialectCfg = .probe ∧ t.dialect = s.verdict := by
  obtain ⟨_, _, q⟩ | ⟨-, -, evs, d⟩ := exec_executed he
  · exact absurd (by rw [q.eq]) hne
  · have written := d.dialect.resolve_left hne
    by_cases probing : i = .init ∧ s.straps.dialectCfg = .probe
    · exact ⟨probing.1, probing.2, written.trans (if_pos probing)⟩
    · exact absurd (written.trans (if_neg probing)) hne

/-- A step that changes the flag ran a fetched INIT under the Probe strap, and leaves the verdict (R163, R164). -/
theorem step_changes_dialect {s t : State} (h : step s = .next t) (hne : t.dialect ≠ s.dialect) :
    s.straps.dialectCfg = .probe ∧ (∃ c, s.fetch = some c ∧ decode s.dialect c = .ok .init) ∧ t.dialect = s.verdict := by
  have ran {i : Instr} (he : exec i s.taken = .next t) :
      i = .init ∧ s.straps.dialectCfg = .probe ∧ t.dialect = s.verdict := by
    simpa [State.verdict] using exec_changes_dialect he (by simpa using hne)
  obtain ⟨rfl, -⟩ | ⟨c, i, hf, hd, he⟩ | ⟨w, -, -, rfl⟩ := step_cases h
  · exact absurd rfl hne
  · obtain ⟨rfl, probe, verdict⟩ := ran he
    exact ⟨probe, ⟨c, hf, hd⟩, verdict⟩
  · obtain ⟨notInit, -⟩ := ran (exec_illegalColour _)
    cases notInit

/-- Settles O52: a step that changes the flag leaves the verdict, which is New whatever the probe reads. -/
theorem defaultProbeKeepsNew : Obligations.DefaultProbeKeepsNew := by
  unfold Obligations.DefaultProbeKeepsNew
  intro s t hp hnew h
  by_cases same : t.dialect = s.dialect
  · exact same.trans hnew
  · obtain ⟨-, -, verdict⟩ := step_changes_dialect h same
    exact verdict.trans (verdict_of_probeOld_nil hp)

/-- Settles O53: the INIT a changed flag is traced back to was the request on the port of an idle sequencer. -/
theorem onlyInitWritesDialect : Obligations.OnlyInitWritesDialect := by
  unfold Obligations.OnlyInitWritesDialect
  intro s t h hne
  obtain ⟨probe, ⟨c, hf, hd⟩, verdict⟩ := step_changes_dialect h hne
  obtain ⟨w, rfl, hop⟩ := decode_init hd
  obtain ⟨rest, hr⟩ := requests_of_fetch hf
  exact ⟨probe, fetch_request hf, ⟨w, rest, hr, hop⟩, verdict⟩

end Sys2Proof.Machine
end

section
/-! The statements of the family 46_wire_commands.md: the wire commands, each run on its own (R171 to R189; log entry 6), with
nothing failing and BUSY idle. A wire command leaves the dialect flag, so each statement is `exec_clean` at the command's own
sequence: frames alone, or frames and a delay. -/

namespace Sys2Proof.Machine

/-- An instruction that only sends bytes, its sequence a list of frames, completes with their clean events and leaves the
dialect flag. -/
theorem exec_clean_sends {i : Instr} {s : State} {items : List SeqItem} (ha : access i = accessSend)
    (hi : sequenceOf i s s.dialect = items.map .item) (hm : s.mode = .operational)
    (hc : s.CleanFor s.dialect (frameEvents s.straps s.dialect items)) :
    ∃ t, exec i s = .next t ∧ Completed s t s.dialect (frameEvents s.straps s.dialect items) := by
  have events : (access i).events = true := by rw [ha]; rfl
  have noFlag : (access i).dialect = false := by rw [ha]; rfl
  exact exec_clean_items events hm (dialectAfter_eq (.inl noFlag)) hi hc

/-! ### Frames alone -/

/-- Settles O38: each command's sequence is its row of the list. -/
theorem wireParameterFrames : Obligations.WireParameterFrames := by
  unfold Obligations.WireParameterFrames
  intro s i items hm hmem clean
  obtain ⟨sends, frames⟩ : access i = accessSend ∧ sequenceOf i s s.dialect = items.map .item := by
    simp only [List.mem_cons, List.not_mem_nil, or_false, Prod.mk.injEq] at hmem
    obtain ⟨rfl, rfl⟩ | ⟨rfl, rfl⟩ | ⟨rfl, rfl⟩ | ⟨rfl, rfl⟩ |
      ⟨rfl, rfl⟩ | ⟨rfl, rfl⟩ | ⟨rfl, rfl⟩ | ⟨rfl, rfl⟩ := hmem <;> exact ⟨rfl, rfl⟩
  exact exec_clean_sends sends frames hm clean

/-- Settles O39: the sequence is the byte and a busy-wait under either dialect, which decides the level of the sample alone. -/
theorem wirePolledFrames : Obligations.WirePolledFrames := by
  unfold Obligations.WirePolledFrames
  intro s i cmd hm hmem clean
  obtain ⟨sends, frames⟩ : access i = accessSend ∧ sequenceOf i s s.dialect = [C cmd, Bw].map .item := by
    simp only [List.mem_cons, List.not_mem_nil, or_false, Prod.mk.injEq] at hmem
    obtain ⟨rfl, rfl⟩ | ⟨rfl, rfl⟩ | ⟨rfl, rfl⟩ | ⟨rfl, rfl⟩ | ⟨rfl, rfl⟩ := hmem <;> exact ⟨rfl, rfl⟩
  exact exec_clean_sends sends frames hm clean

/-! ### Plane writes -/

/-- The white image's red bytes are zero in memory (R144). -/
theorem streamed_red_white (s : State) (j : Nat) : streamed s .red .white j = 0x00#8 := rfl

/-- The complement R180 sends in their place. -/
theorem complement_zero : ~~~(0x00#8 : Byte) = 0xFF#8 := by decide

/-- Under New they are `0xFF` on the wire (R180). -/
theorem sequenceOf_wWriteRed_white (s : State) (d : Dialect) : sequenceOf (.wWriteRed .white) s d =
    (planeFrame 0x26#8 (planeBytes s.straps.geometry) (fun _ => 0xFF#8)).map .item := by
  simp only [sequenceOf, streamed_red_white, complement_zero]

/-- Under Old they are `0xFF` on the wire where `RED_INVERT` says so (R187). -/
theorem sequenceOf_wOldWriteRed_white (s : State) (d : Dialect) : sequenceOf (.wOldWriteRed .white) s d =
    (planeFrame 0x13#8 (planeBytes s.straps.geometry)
      (fun _ => if s.straps.oldTail.redInvert then 0xFF#8 else 0x00#8)).map .item := by
  simp only [sequenceOf, streamed_red_white, redOnWire, complement_zero]

/-- Settles O40: the plane streamed is the core's or the white image, whose red zero bytes the complement makes `0xFF`. -/
theorem wirePlaneFrames : Obligations.WirePlaneFrames := by
  unfold Obligations.WirePlaneFrames
  intro s i items hm hmem clean
  obtain ⟨sends, frames⟩ : access i = accessSend ∧ sequenceOf i s s.dialect = items.map .item := by
    simp only [List.mem_cons, List.not_mem_nil, or_false, Prod.mk.injEq] at hmem
    obtain ⟨rfl, rfl⟩ | ⟨rfl, rfl⟩ | ⟨rfl, rfl⟩ | ⟨rfl, rfl⟩ |
      ⟨rfl, rfl⟩ | ⟨rfl, rfl⟩ | ⟨rfl, rfl⟩ | ⟨rfl, rfl⟩ := hmem
    exacts [⟨rfl, rfl⟩, ⟨rfl, rfl⟩, ⟨rfl, rfl⟩, ⟨rfl, sequenceOf_wWriteRed_white s _⟩,
      ⟨rfl, rfl⟩, ⟨rfl, rfl⟩, ⟨rfl, rfl⟩, ⟨rfl, sequenceOf_wOldWriteRed_white s _⟩]
  exact exec_clean_sends sends frames hm clean

/-! ### Frames and a delay -/

/-- The clean events of SLEEP's deep-sleep frame: its two bytes and the settling delay (R183). -/
theorem cleanEvents_wDeepSleep_ordinary (s : State) (d : Dialect) :
    cleanEvents s.straps d (sequenceOf (.wDeepSleep .ordinary) s d) =
      frameEvents s.straps d [C 0x10#8, D 0x03#8] ++ [.delay 2000] := by
  rw [← cleanEvents_items]
  exact cleanEvents_append s.straps d ([C 0x10#8, D 0x03#8].map .item) [.wait 2000]

/-- Settles O41: SLEEP's form ends with a delay, the shutdown's with a busy-wait. -/
theorem wireDeepSleepFrames : Obligations.WireDeepSleepFrames := by
  unfold Obligations.WireDeepSleepFrames
  intro s hm
  constructor
  · exact exec_clean_events rfl hm (dialectAfter_eq (.inl rfl)) (cleanEvents_wDeepSleep_ordinary s s.dialect)
  · exact exec_clean_sends (i := .wDeepSleep .persistent) rfl rfl hm

/-- Settles O42: the sequence is the detection of PROBE, its read frame with whatever the read answers. -/
theorem wireDetectReads : Obligations.WireDetectReads := by
  unfold Obligations.WireDetectReads
  intro s evs hm hevs clean
  have events : cleanEvents s.straps s.dialect (sequenceOf .wDetect s s.dialect) = evs :=
    (cleanEvents_detect s s.dialect).trans hevs.symm
  exact exec_clean_events rfl hm (dialectAfter_eq (.inl rfl)) events clean

end Sys2Proof.Machine
end

section
/-! The statements of the family 60_exceptions.md: what is refused without an effect (R205, R206), how an operation aborts (R210,
R211), and how many time-outs it can log (R202). -/

namespace Sys2Proof.Machine

/-! ### Requests that end without an effect -/

/-- The answer of a misconfigured core. -/
theorem raise_misconfiguration (s : State) :
    s.raise .misconfiguration = { s with completions := 0x0300#16 :: s.completions } := rfl

/-- The reserved strap alone makes a dead core (R25, R205). -/
theorem reserved_iff_configFault (c : DialectCfg) : c = .reserved ↔ modeAtConstruction c = .configFault := by
  cases c <;> decide

/-- A request with none of the 13 codes is answered like FB_CLEAR of the colour that is none (R85, R206). -/
theorem step_unknownOp {s : State} {w : RequestWord} {rest : List RequestWord} (hsp : s.seq.sp = .idle)
    (hr : s.requests = w :: rest) (hw : reqOp w ∉ requestOps) : step s = exec (.fbClear 0b01#2) s.dropRequest := by
  rw [exec_illegalColour]
  simp [step, State.fetch, taken_idle hsp, hsp, hr, decode, decodeRequest_unknownOp hw, State.undecoded]

/-- Whatever the request on the port is, a step answers it as some instruction, once it is off the port. -/
theorem step_execs_request {s : State} {w : RequestWord} {rest : List RequestWord} (hsp : s.seq.sp = .idle)
    (hr : s.requests = w :: rest) : ∃ i, step s = exec i s.dropRequest := by
  cases hd : decodeRequest w with
  | ok i => exact ⟨i, step_request hsp hr hd⟩
  | error e =>
    obtain ⟨unknown, -⟩ := decodeRequest_error hd
    exact ⟨_, step_unknownOp hsp hr unknown⟩

/-- Settles O15: the mode check comes first in every instruction, and every request is answered as one. -/
theorem misconfiguredCoreIsDead : Obligations.MisconfiguredCoreIsDead := by
  unfold Obligations.MisconfiguredCoreIsDead
  refine ⟨fun p => reserved_iff_configFault p.dialectCfg, fun i s hm => exec_configFault hm i,
    fun s w rest hm hsp hr => ?_⟩
  obtain ⟨i, hi⟩ := step_execs_request hsp hr
  rw [hi, exec_configFault (s := s.dropRequest) hm, dropRequest_eq hr, raise_misconfiguration]

/-- Settles O16: an unknown code is answered as the colour that is none, which both painting requests refuse first. -/
theorem illegalRequestsChangeNothing : Obligations.IllegalRequestsChangeNothing := by
  unfold Obligations.IllegalRequestsChangeNothing
  refine ⟨fun s w rest hm hsp hr hw => ?_, fun s hm => exec_fbClear_of_illegal hm,
    fun s x y hm => exec_fbSetPixel_of_illegal hm x y, fun s p index hm hi => ?_⟩
  · rw [step_unknownOp hsp hr hw, exec_fbClear_of_illegal (s := s.dropRequest) hm, dropRequest_eq hr,
      raise_illegalRequest]
  · rw [exec_fbRead hm, if_neg (Nat.not_lt.mpr hi), raise_illegalRequest]

/-! ### Aborts -/

/-- No micro-operation of an instruction's done sequence has failed (R210). -/
theorem sequenceOf_done_noFailure {i : Instr} {s : State} {d : Dialect} {evs : List Event}
    (h : Done s.straps d (sequenceOf i s d) evs) : ∀ e ∈ evs, e.failure = none :=
  fun e he => (h.allowed (sequenceOf_allowed i s d) e he).1

/-- An instruction's cut sequence ends with the one micro-operation that failed (R210). -/
theorem sequenceOf_cut_last {i : Instr} {s : State} {d : Dialect} {k : MicroKind} {evs : List Event}
    (h : Cut k s.straps d (sequenceOf i s d) evs) :
    ∃ init last, evs = init ++ [last] ∧ (∀ e ∈ init, e.failure = none) ∧ last.failure = some k := by
  obtain ⟨init, last, split, fine, fails, -⟩ := h.allowed (sequenceOf_allowed i s d)
  exact ⟨init, last, split, fun e he => (fine e he).1, fails⟩

/-- Settles O44: the sequence is done and completed, or cut and aborted; a cut one is a cut of the sequence of the dialect
the flag then has, whether INIT's probe came before the abort or not. -/
theorem abortIsPrecise : Obligations.AbortIsPrecise := by
  unfold Obligations.AbortIsPrecise
  intro i s t hm hev he
  obtain ⟨u, evs, hf, ⟨done, hu, rfl⟩ | ⟨k, cut, hu, rfl⟩⟩ := exec_plays hev hm he
  · have ended := settle_completed (ghostRow i) hf
    have dialect := ended.dialect.trans hu
    rw [← dialect] at done
    exact ⟨evs, ended.history, hf.answers, ended.env, ended.lines, ended.sp, ended.fb, ended.mode, ended.straps,
      ended.requests, .inl ⟨done, dialect, sequenceOf_done_noFailure done, ended.completions, ended.faultMark⟩⟩
  · have cut := cut u.dialect (.inr rfl)
    have completions := congrArg (completionWord 0x01#8 k.code :: ·) hf.completions
    exact ⟨evs, hf.history, hf.answers, hf.env, hf.lines, rfl, hf.fb, hf.mode, hf.straps, hf.requests,
      .inr ⟨k, cut, hu, sequenceOf_cut_last cut, completions, rfl, rfl, rfl⟩⟩

/-! ### Time-outs -/

/-- Every busy-wait of a sequence can log one time-out, and nothing else logs one (R202). -/
theorem pieces_timeouts (p : Straps) (xs : List Piece) : Weight.timeouts.pieces p xs = pollsOf xs := by
  induction xs with
  | nil => rfl
  | cons x xs ih =>
    rw [Weight.pieces_cons, ih]
    match x with
    | .item (.send _ _) | .item .busyWait | .rst _ | .wait _ | .read _ =>
      simp [Weight.piece, Weight.pause, Weight.timeouts, pollsOf, Bw, Nat.add_comm]

theorem timeouts_of_history {s t : State} {evs : List Event} (h : t.history = s.history ++ evs) :
    timeouts t.trace = timeouts s.trace + timeouts evs := by
  simpa [State.history, timeouts] using congrArg timeouts h

/-- An instruction logs at most one time-out for each busy-wait of its sequence (R202). -/
theorem exec_timeouts {i : Instr} {s t : State} (he : exec i s = .next t) :
    ∃ n ≤ pollsOf (sequenceOf i s t.dialect), timeouts t.trace = timeouts s.trace + n := by
  cases hev : (access i).events with
  | true =>
    obtain ⟨evs, appended, weight⟩ := exec_weight Weight.timeouts hev he
    rw [Weight.sum_timeouts, pieces_timeouts] at weight
    exact ⟨timeouts evs, weight, timeouts_of_history appended⟩
  | false =>
    obtain ⟨fb, w, rfl⟩ := exec_quiet he fun _ => hev
    exact ⟨0, Nat.zero_le _, rfl⟩

theorem pollsOf_append (xs ys : List Piece) : pollsOf (xs ++ ys) = pollsOf xs + pollsOf ys := List.count_append

/-- An image is polled for once, by its refresh (R134, R143). -/
theorem pollsOf_imageFrames (d : Dialect) (n : Nat) (black red : Nat → Byte) :
    pollsOf ((imageFrames d n black red).map .item) = 1 := by
  cases d with
  | new => exact (counts_imageFrames (d := .new) (k := 3) ⟨rfl, rfl⟩ n black red).polls
  | old => exact (counts_imageFrames (d := .old) (k := 1) ⟨rfl, rfl⟩ n black red).polls

section OldColumn

variable {s : State} (h : OldAsNew s.straps)
include h

/-- INIT: the two busy-waits of CONFIG, and under Old the one of the power-on command (R140, R142). -/
theorem pollsOf_init (d : Dialect) : pollsOf (sequenceOf .init s d) = if d = .new then 2 else 3 := by
  have probe : pollsOf (if s.straps.dialectCfg = .probe then detectPieces s else []) = 0 := by
    split
    · exact pollsOf_noPoll (detectPieces_noPoll s)
    · rfl
  rw [sequenceOf, pollsOf_append, pollsOf_append, pollsOf_noPoll (resetPieces_noPoll _), probe,
    initSequence_eq fun _ => h]
  cases d <;> rfl

theorem pollsOf_display (d : Dialect) : pollsOf (sequenceOf .display s d) = 1 := by
  rw [sequenceOf_display fun _ => h, pollsOf_imageFrames]

/-- PANEL_CLEAR polls once more after its image (R144). -/
theorem pollsOf_panelClear (d : Dialect) : pollsOf (sequenceOf .panelClear s d) = 2 := by
  rw [sequenceOf_panelClear fun _ => h, List.map_append, pollsOf_append, pollsOf_imageFrames]
  rfl

/-- SLEEP waits and does not poll (R150). -/
theorem pollsOf_sleep (d : Dialect) : pollsOf (sequenceOf .sleep s d) = 0 := by
  rw [sequenceOf, sleepSequence_eq fun _ => h]
  rfl

theorem pollsOf_powerOffAndDeepSleep (d : Dialect) : pollsOf (sequenceOf .powerOffAndDeepSleep s d) = 2 := by
  rw [sequenceOf_powerOffAndDeepSleep fun _ => h]
  rfl

end OldColumn

/-- TURN_ON_DISPLAY polls once, under either dialect (R134). -/
theorem pollsOf_turnOnDisplay (s : State) (d : Dialect) : pollsOf (sequenceOf .turnOnDisplay s d) = 1 := by
  cases d <;> rfl

/-- Settles O48: each number is that of the busy-waits of the operation's own sequence. -/
theorem timeoutsAreCounted : Obligations.TimeoutsAreCounted := by
  unfold Obligations.TimeoutsAreCounted
  intro i s t hs he
  obtain ⟨n, hn, ht⟩ := exec_timeouts he
  rw [ht]
  have bound {m : Nat} (hm : pollsOf (sequenceOf i s t.dialect) ≤ m) : timeouts s.trace + n ≤ timeouts s.trace + m :=
    Nat.add_le_add_left (hn.trans hm) _
  have unchanged (h0 : pollsOf (sequenceOf i s t.dialect) = 0) : timeouts s.trace + n = timeouts s.trace := by omega
  refine ⟨?_, ?_, ?_, ?_, ?_⟩
  · rintro (rfl | rfl | rfl)
    · exact bound (Nat.le_refl 1)
    · exact bound (pollsOf_turnOnDisplay s _).le
    · exact bound (pollsOf_display hs _).le
  · rintro (rfl | rfl)
    · exact bound (pollsOf_panelClear hs _).le
    · exact bound (pollsOf_powerOffAndDeepSleep hs _).le
  · rintro rfl
    refine bound ((pollsOf_init hs _).trans_le ?_)
    split <;> decide
  · rintro rfl new
    exact bound ((pollsOf_init hs _).trans (if_pos new)).le
  · rintro b (rfl | rfl | rfl | rfl)
    · exact unchanged rfl
    · exact unchanged (pollsOf_sleep hs _)
    · exact unchanged rfl
    · exact unchanged rfl

end Sys2Proof.Machine
end

section
/-! The statements of the family 70_reset_and_hazards.md: how the ghost follows the table (R245, R246), and how long an
operation can wait (R251). What an instruction does to the ghost is said once, in `GhostEnds`: an operation ends clean, with a
logged time-out, or by an abort. -/

namespace Sys2Proof.Machine

/-! ### What an instruction does to the ghost -/

/-- How a driver operation ends, and the ghost it leaves: OK without a logged time-out, with the row's ghost (R246); with a
logged time-out; or aborted (R211). -/
inductive GhostEnds (i : Instr) (s t : State) : Prop
  | clean (ok : t.completions = 0x0000#16 :: s.completions) (calm : timeouts t.trace = timeouts s.trace)
      (ghost : t.ghost = s.ghost.afterClean (ghostRow i) (decide (t.dialect = .new) || s.ghost.oldSeqOk) s.fb)
  | timedOut (logged : timeouts t.trace ≠ timeouts s.trace) (ghost : t.ghost = s.ghost.panel .undefined .unknown)
  | aborted (failed : t.completions ≠ 0x0000#16 :: s.completions) (ghost : t.ghost = s.ghost.atAbort)

/-- A driver operation of an operational core ends in one of the three ways. -/
theorem exec_ghostEnds {i : Instr} {s t : State} (hev : (access i).events = true) (hm : s.mode = .operational)
    (he : exec i s = .next t) : GhostEnds i s t := by
  obtain ⟨u, evs, hf, ⟨-, -, rfl⟩ | ⟨k, -, -, rfl⟩⟩ := exec_plays hev hm he
  · have logged := timeouts_of_history hf.history
    have trusted : u.trusted = (decide (u.dialect = .new) || s.ghost.oldSeqOk) := by rw [State.trusted, hf.ghost]
    have ghost : (s.settle (ghostRow i) (.ok u)).ghost = s.ghost.atEnd (ghostRow i)
        (decide (timeouts s.trace < timeouts u.trace)) (decide (u.dialect = .new) || s.ghost.oldSeqOk) s.fb := by
      rw [← trusted, ← hf.ghost, ← hf.fb]
      rfl
    by_cases calm : timeouts u.trace = timeouts s.trace
    · have noneLogged : ¬ timeouts s.trace < timeouts u.trace := by omega
      exact .clean (settle_completed _ hf).completions calm (ghost.trans (by simp [Ghost.atEnd, noneLogged, Run.state]))
    · have oneLogged : timeouts s.trace < timeouts u.trace := by omega
      exact .timedOut calm (ghost.trans (by simp [Ghost.atEnd, oneLogged]))
  · refine .aborted (settle_abort_not_ok s u _ k _) ?_
    rw [← hf.ghost]
    rfl

/-- An instruction leaves the ghost as it is, or it is a driver operation that ends in one of the three ways. -/
theorem exec_ghost {i : Instr} {s t : State} (he : exec i s = .next t) :
    t.ghost = s.ghost ∨ ((access i).events = true ∧ GhostEnds i s t) := by
  obtain ⟨_, _, q⟩ | ⟨hm, hev, -⟩ := exec_executed he
  · exact .inl (by rw [q.eq])
  · exact .inr ⟨hev, exec_ghostEnds hev hm he⟩

/-! ### An image on the panel -/

/-- The ghost claims an image only while the panel is `Ready` or in the persistence shutdown. -/
def Ghost.ImageInPhase (g : Ghost) : Prop :=
  ∀ fb, g.image = .shows fb → g.phase = .ready ∨ g.phase = .asleepPersistent

theorem Ghost.imageLost_ne_shows (g : Ghost) (fb : Framebuffer) : g.imageLost ≠ .shows fb := by
  unfold Ghost.imageLost
  split <;> simp

/-- Nothing is claimed where no image is shown. -/
theorem Ghost.imageInPhase_of_not_shows {g : Ghost} (h : ∀ fb, g.image ≠ .shows fb) : g.ImageInPhase :=
  fun fb hfb => absurd hfb (h fb)

/-- Both ghosts a row chooses from keep the claim, and so does the row. -/
theorem Ghost.ImageInPhase.ite {c : Prop} [Decidable c] {g g' : Ghost} (h : g.ImageInPhase) (h' : g'.ImageInPhase) :
    (if c then g else g').ImageInPhase := by
  split <;> assumption

/-- The rows that show an image lead to `Ready` or to the persistence shutdown; the others know none (R246). -/
theorem Ghost.ImageInPhase.afterClean {g : Ghost} (h : g.ImageInPhase) (row : GhostRow) (trusted : Bool)
    (fb : Framebuffer) : (g.afterClean row trusted fb).ImageInPhase := by
  have unknown (p : Phase) : (g.panel p .unknown).ImageInPhase := imageInPhase_of_not_shows fun _ => nofun
  have lost (p : Phase) : (g.panel p g.imageLost).ImageInPhase := imageInPhase_of_not_shows g.imageLost_ne_shows
  have ready (image : PanelImage) : (g.panel .ready image).ImageInPhase := fun _ _ => .inl rfl
  have retained : (g.panel .asleepPersistent g.image).ImageInPhase := fun _ _ => .inr rfl
  cases row with
  | unchanged => exact h
  | raw => exact unknown _
  | init => exact .ite (ready _) (unknown _)
  | display => exact .ite (ready _) (unknown _)
  | panelClear => exact .ite (ready _) (lost _)
  | sleep => exact .ite (unknown _) (unknown _)
  | shutdown => exact .ite retained (unknown _)

/-- An end that is not clean knows no image, a clean one has the row's (R246). -/
theorem exec_keeps_imageInPhase (i : Instr) (s t : State) (h : s.ghost.ImageInPhase) (he : exec i s = .next t) :
    t.ghost.ImageInPhase := by
  obtain ghost | ⟨-, ⟨-, -, ghost⟩ | ⟨-, ghost⟩ | ⟨-, ghost⟩⟩ := exec_ghost he <;> rw [ghost]
  · exact h
  · exact h.afterClean _ _ _
  · exact Ghost.imageInPhase_of_not_shows fun _ => nofun
  · exact Ghost.imageInPhase_of_not_shows fun _ => nofun

/-- Settles O51: each way an instruction can leave the ghost keeps it, and so does every step. -/
theorem stepKeepsPanelImage : Obligations.StepKeepsPanelImage := by
  unfold Obligations.StepKeepsPanelImage
  intro s t hs h
  exact step_keeps (P := fun s => s.ghost.ImageInPhase) (fun s hs => by rwa [State.taken_ghost]) exec_keeps_imageInPhase
    hs h

/-! ### The table of R246 -/

/-- The phase of the row is the table's (R246). -/
theorem Ghost.afterClean_phase {i : Instr} (hev : (access i).events = true) (g : Ghost) (trusted : Bool)
    (fb : Framebuffer) : (g.afterClean (ghostRow i) trusted fb).phase = phaseAfter i trusted g.phase := by
  cases i with
  | fbClear _ | fbSetPixel _ _ _ | fbRead _ _ => cases hev
  | init | display | panelClear | sleep | powerOffAndDeepSleep => exact apply_ite Ghost.phase ..
  | _ => rfl

/-- Of two panels the phase tells which it is. -/
theorem Ghost.image_of_ite_panel {c : Prop} [Decidable c] {g : Ghost} {p q : Phase} {image other : PanelImage}
    (hne : q ≠ p) (h : (if c then g.panel p image else g.panel q other).phase = p) :
    (if c then g.panel p image else g.panel q other).image = image := by
  split at h
  · rw [if_pos ‹c›]; rfl
  · exact absurd h hne

/-- From the persistence shutdown a PANEL_CLEAR erases the retained image, whatever the dialect (R246, U13). -/
theorem Ghost.afterClean_panelClear_persistent {g : Ghost} (h : g.phase = .asleepPersistent) (trusted : Bool)
    (fb : Framebuffer) : (g.afterClean .panelClear trusted fb).image = .erased := by
  simp [Ghost.afterClean, Ghost.imageLost, h]

/-- After SLEEP no image is known (R246, U14). -/
theorem Ghost.afterClean_sleep_image (g : Ghost) (trusted : Bool) (fb : Framebuffer) :
    (g.afterClean .sleep trusted fb).image = .unknown :=
  (apply_ite Ghost.image ..).trans (ite_self _)

/-- Settles O49: a clean end has the row's ghost, whose phase is the table's and tells the row's image; the two other ends
know neither phase nor image. -/
theorem ghostFollowsTable : Obligations.GhostFollowsTable := by
  unfold Obligations.GhostFollowsTable
  intro i s t hm hev he
  obtain ⟨ok, calm, ghost⟩ | ⟨logged, ghost⟩ | ⟨failed, ghost⟩ := exec_ghostEnds hev hm he <;> rw [ghost]
  · refine ⟨fun _ _ => ⟨Ghost.afterClean_phase hev .., ?_, ?_, ?_, ?_, ?_, ?_⟩, fun unclean => absurd ⟨ok, calm⟩ unclean,
      fun mark => (Ghost.afterClean_faultMark ..).trans mark⟩
    · rintro rfl
      exact Ghost.image_of_ite_panel (by decide)
    · rintro rfl
      exact Ghost.image_of_ite_panel (by decide)
    · rintro rfl
      exact Ghost.image_of_ite_panel (by decide)
    · rintro rfl persistent
      exact Ghost.afterClean_panelClear_persistent persistent ..
    · rintro rfl
      exact Ghost.image_of_ite_panel (by decide)
    · rintro rfl
      exact Ghost.afterClean_sleep_image ..
  · exact ⟨fun _ calm => absurd calm logged, fun _ => ⟨rfl, rfl⟩, id⟩
  · exact ⟨fun ok => absurd ok failed, fun _ => ⟨rfl, rfl⟩, fun _ => rfl⟩

/-- In the table INIT alone leads out of `Undefined`, to `Ready` (R246). -/
theorem phaseAfter_undefined {i : Instr} {trusted : Bool} (h : phaseAfter i trusted .undefined ≠ .undefined) :
    i = .init ∧ phaseAfter i trusted .undefined = .ready := by
  cases i with
  | init =>
    refine ⟨rfl, ?_⟩
    cases trusted with
    | true => rfl
    | false => exact absurd rfl h
  | display | panelClear | sleep | powerOffAndDeepSleep => exact absurd (if_neg (by simp)) h
  | _ => exact absurd rfl h

/-- Settles O50: only a clean end can leave `Undefined`, and by the table only INIT's does. -/
theorem onlyInitLeavesUndefined : Obligations.OnlyInitLeavesUndefined := by
  unfold Obligations.OnlyInitLeavesUndefined
  intro i s t he undefined leaves
  obtain ghost | ⟨hev, ⟨ok, calm, ghost⟩ | ⟨-, ghost⟩ | ⟨-, ghost⟩⟩ := exec_ghost he
  · exact absurd (ghost ▸ undefined) leaves
  · have phase := congrArg Ghost.phase ghost
    rw [Ghost.afterClean_phase hev, undefined] at phase
    rw [phase] at leaves ⊢
    obtain ⟨isInit, ready⟩ := phaseAfter_undefined leaves
    exact ⟨isInit, ready, ok, calm⟩
  · exact absurd (congrArg Ghost.phase ghost) leaves
  · exact absurd (congrArg Ghost.phase ghost) leaves

/-! ### Nothing reads the ghost -/

theorem alike_setGhost (s : State) (g : Ghost) : Alike (· = ·) s (s.setGhost g) :=
  ⟨rfl, rfl, rfl, rfl, rfl, rfl, rfl, rfl, rfl, rfl⟩

/-- With another ghost an operation runs to the same end, with some other ghost there. -/
theorem settle_setGhost (i : Instr) (s : State) (g : Ghost) : ∃ g',
    (s.setGhost g).settle (ghostRow i) (bodyOf i (s.setGhost g)) =
      (s.settle (ghostRow i) (bodyOf i s)).setGhost g' := by
  have runs := bodyOf_alike i (.inr fun _ _ eq => eq.symm) (alike_setGhost s g)
  have seq : ((s.setGhost g).settle (ghostRow i) (bodyOf i (s.setGhost g))).seq =
      (s.settle (ghostRow i) (bodyOf i s)).seq := by
    rw [settle_seq, settle_seq, runs.state.completions]
  exact ⟨_, (settle_alike (row := ghostRow i) runs).eq_setGhost seq⟩

/-- The mode check does not look at the ghost. -/
theorem guarded_setGhost {s : State} {g : Ghost} {f : State → State} (h : ∃ g', f (s.setGhost g) = (f s).setGhost g') :
    ∃ g', (s.setGhost g).guarded f = (s.guarded f).setGhost g' := by
  simp only [State.guarded, State.setGhost_mode]
  cases s.mode with
  | configFault => exact ⟨g, rfl⟩
  | operational => exact h

/-- An instruction does not read the ghost: with another it does the same to everything else (R245). -/
theorem exec_setGhost {i : Instr} {s t : State} (g : Ghost) (he : exec i s = .next t) :
    ∃ g', exec i (s.setGhost g) = .next (t.setGhost g') := by
  have guarded {f : State → State} (hi : ∀ s, exec i s = .next (s.guarded f))
      (hf : ∃ g', f (s.setGhost g) = (f s).setGhost g') : ∃ g', exec i (s.setGhost g) = .next (t.setGhost g') := by
    rw [hi] at he
    cases he
    obtain ⟨g', eq⟩ := guarded_setGhost hf
    exact ⟨g', (hi _).trans (congrArg _ eq)⟩
  cases hev : (access i).events with
  | true => exact guarded (fun s => exec_driver i s hev) (settle_setGhost i s g)
  | false =>
    have push (c : Prop) [Decidable c] (a b : State) :
        (if c then a else b).setGhost g = if c then a.setGhost g else b.setGhost g := apply_ite (State.setGhost · g) c a b
    cases i with
    | fbClear c => exact guarded (fun _ => rfl) ⟨g, by rw [push]; rfl⟩
    | fbSetPixel x y c => exact guarded (fun _ => rfl) ⟨g, by rw [push, push]; rfl⟩
    | fbRead p index => exact guarded (fun _ => rfl) ⟨g, by rw [push]; rfl⟩
    | _ => cases hev

theorem taken_setGhost (s : State) (g : Ghost) : (s.setGhost g).taken = s.taken.setGhost g := by
  simp only [State.taken, State.setGhost_seq]
  cases s.seq.sp <;> rfl

/-- A fetched code that is an instruction is run once it is taken. -/
theorem step_of_decode {s : State} {c : Code} {i : Instr} (hf : s.fetch = some c) (hd : decode s.dialect c = .ok i) :
    step s = exec i s.taken := by
  simp [step, hf, hd]

/-- Settles O54: the ghost decides neither what is fetched nor what it is decoded to, and no instruction reads it. -/
theorem ghostNeverInfluences : Obligations.GhostNeverInfluences := by
  unfold Obligations.GhostNeverInfluences
  intro s t g h
  obtain ⟨rfl, hsp, hr⟩ | ⟨c, i, hf, hd, he⟩ | ⟨w, hf, hw, rfl⟩ := step_cases h
  · exact ⟨g, step_no_request hsp hr⟩
  · rw [step_of_decode (s := s.setGhost g) hf hd, taken_setGhost]
    exact exec_setGhost g he
  · obtain ⟨rest, hr⟩ := requests_of_fetch hf
    have hsp := fetch_request hf
    rw [step_unknownOp (s := s.setGhost g) hsp hr hw, taken_idle hsp]
    exact exec_setGhost g (exec_illegalColour s.dropRequest)

/-! ### How long an operation waits -/

/-- What a piece waits; a busy-wait is counted apart. -/
def Piece.waits : Piece → Nat
  | .wait ms => ms
  | _ => 0

/-- The delays of a sequence that belong to no busy-wait. -/
def pausesOf (xs : List Piece) : Nat := (xs.map Piece.waits).sum

theorem pausesOf_append (xs ys : List Piece) : pausesOf (xs ++ ys) = pausesOf xs + pausesOf ys := by simp [pausesOf]

theorem pausesOf_items (items : List SeqItem) : pausesOf (items.map .item) = 0 := by
  induction items with
  | nil => rfl
  | cons _ items ih => exact (Nat.zero_add _).trans ih

/-- With default pacing a busy-wait waits at most 5 s, and a byte does not wait (R133, R251). -/
theorem pieces_waiting {p : Straps} (h : p.tInterbyte = 0) (xs : List Piece) :
    Weight.waiting.pieces p xs = 5000 * pollsOf xs + pausesOf xs := by
  induction xs with
  | nil => rfl
  | cons x xs ih =>
    rw [Weight.pieces_cons, ih]
    match x with
    | .item (.send _ _) | .item .busyWait | .rst _ | .wait _ | .read _ =>
      simp [Weight.piece, Weight.pause, Weight.waiting, h, pollsOf, Bw, pausesOf, Piece.waits] <;> omega

/-- However an instruction ends, it waits no longer than its sequence with every busy-wait timing out (R251). -/
theorem exec_waited {i : Instr} {s t : State} (h : s.straps.tInterbyte = 0) (he : exec i s = .next t) :
    ∃ evs, t.history = s.history ++ evs ∧
      waited evs ≤ 5000 * pollsOf (sequenceOf i s t.dialect) + pausesOf (sequenceOf i s t.dialect) := by
  cases hev : (access i).events with
  | true =>
    obtain ⟨evs, appended, weight⟩ := exec_weight Weight.waiting hev he
    rw [Weight.sum_waiting, pieces_waiting h] at weight
    exact ⟨evs, appended, weight⟩
  | false =>
    obtain ⟨fb, w, rfl⟩ := exec_quiet he fun _ => hev
    exact ⟨[], (List.append_nil _).symm, Nat.zero_le _⟩

/-- RESET: the delays of the pulse, of which `T_RST_LO` is at most 5 ms (R10, R130). -/
theorem pausesOf_resetPieces (p : Straps) : pausesOf (resetPieces p) ≤ 405 := by
  have low := p.tRstLo.legal.2
  simp only [pausesOf, resetPieces, List.map_cons, List.map_nil, Piece.waits, List.sum_cons, List.sum_nil]
  omega

/-- INIT: the pulse, and under the Probe strap the delay before the read (R140, R141). -/
theorem pausesOf_init (s : State) (d : Dialect) :
    pausesOf (sequenceOf .init s d) ≤ 405 + if s.straps.dialectCfg = .probe then 50 else 0 := by
  have pulse := pausesOf_resetPieces s.straps
  have probe : pausesOf (if s.straps.dialectCfg = .probe then detectPieces s else []) =
      if s.straps.dialectCfg = .probe then 50 else 0 := by
    split <;> rfl
  rw [sequenceOf, pausesOf_append, pausesOf_append, pausesOf_items, probe]
  omega

/-- SLEEP: its settling delay (R150). -/
theorem pausesOf_sleep (s : State) (d : Dialect) : pausesOf (sequenceOf .sleep s d) = 2000 := by
  rw [sequenceOf, pausesOf_append, pausesOf_items]
  rfl

/-- An INIT without the Probe strap leaves the flag (R163). -/
theorem exec_init_dialect {s t : State} (he : exec .init s = .next t) (hp : s.straps.dialectCfg ≠ .probe) :
    t.dialect = s.dialect := by
  by_contra changed
  obtain ⟨-, probe, -⟩ := exec_changes_dialect he changed
  exact hp probe

/-- Settles O47: each number is 5 s for every busy-wait of the operation's own sequence, and its other delays. -/
theorem waitingIsBounded : Obligations.WaitingIsBounded := by
  unfold Obligations.WaitingIsBounded
  intro i s t hp hs he
  obtain ⟨evs, appended, weight⟩ := exec_waited hp he
  have pauses := pausesOf_init s t.dialect
  refine ⟨evs, appended, ?_, ?_, ?_, ?_, ?_, ?_, ?_, ?_, ?_, ?_⟩
  · rintro rfl
    exact weight
  · rintro rfl
    have polls : pollsOf (sequenceOf .reset s t.dialect) = 0 := rfl
    rw [polls] at weight
    have pulse : pausesOf (sequenceOf .reset s t.dialect) ≤ 405 := pausesOf_resetPieces s.straps
    omega
  · rintro rfl
    rw [pollsOf_turnOnDisplay, sequenceOf, pausesOf_items] at weight
    exact weight
  · rintro rfl
    rw [pollsOf_init hs] at weight
    split at weight <;> split at pauses <;> omega
  · rintro rfl new
    rw [pollsOf_init hs, if_pos new] at weight
    split at pauses <;> omega
  · rintro rfl noProbe new
    rw [pollsOf_init hs, if_pos ((exec_init_dialect he noProbe).trans new)] at weight
    rw [if_neg noProbe] at pauses
    omega
  · rintro rfl
    rw [pollsOf_display hs, sequenceOf, pausesOf_items] at weight
    exact weight
  · rintro rfl
    rw [pollsOf_panelClear hs, sequenceOf, pausesOf_items] at weight
    exact weight
  · rintro rfl
    rw [pollsOf_sleep hs, pausesOf_sleep] at weight
    exact weight
  · rintro rfl
    rw [pollsOf_powerOffAndDeepSleep hs, sequenceOf, pausesOf_items] at weight
    exact weight

end Sys2Proof.Machine
end
